-- ==== Sys2Proof/Word.lean ====
section
/-! DEFINITION. The words that cross the host port of DCTENG (spec/20_memory.md rule R42, spec/30_encoding.md
rule R64). Everything computed from them stands in Decode.lean and under Machine/. -/

namespace Sys2Proof

/-- A word address of the 4096-word window (R40, R42). -/
abbrev Addr := BitVec 12

/-- The 64 bits of read or write data of one transaction (R42). -/
abbrev Data := BitVec 64

/-- A command word: what a write of `CMD` carries in bits [31:0] (R64). -/
abbrev CmdWord := BitVec 32

/-- One IEEE 754 binary64 datum, any of the 2^64 patterns (R17). -/
abbrev F64 := BitVec 64

end Sys2Proof
end

