-- ==== Sys2Proof/Syntax.lean ====
section
/-! DEFINITION. The ten commands of DCTENG, one constructor per row of spec/opcode_table.json
(spec/30_encoding.md rule R66). No command names an operand: source and destination buffers are fixed by the
opcode (rule R68), so no constructor has an argument. -/

namespace Sys2Proof

/-- The commands, in the order of rule R66: encode direction first, then decode direction. -/
inductive Instr where
  /-- `LDPX`, load pixels: `P` to `X` (R118). -/
  | ldpx
  /-- `FDCT`, forward transform: `X` to `F` (R77). -/
  | fdct
  /-- `QNT`, quantize: `F` to `Q` (R91). -/
  | qnt
  /-- `ZZF`, flatten in zigzag order: `Q` to `Z` (R99). -/
  | zzf
  /-- `RLE`, run-length encode: `Z` to `RV`, `RC`, `RLEN` (R108). -/
  | rle
  /-- `STPX`, store pixels: `X` to `P` (R120). -/
  | stpx
  /-- `IDCT`, inverse transform: `F` to `X` (R84). -/
  | idct
  /-- `DQT`, dequantize: `Q` to `F` (R96). -/
  | dqt
  /-- `ZZU`, unflatten: `Z` to `Q` (R104). -/
  | zzu
  /-- `RLD`, run-length decode: `RV`, `RC`, `RLEN` to `Z` (R112). -/
  | rld
deriving DecidableEq, Repr

end Sys2Proof
end

