-- ==== Sys2Proof/WellFormed.lean ====
section
/-! DEFINITION. What a well-formed command is (spec/30_encoding.md rules R64, R65, R68). A command has no operand
field, no register number and no immediate, so every term of `Instr` is well formed; the checks there are to make
are those on the command WORD and on the write data that carries it. -/

namespace Sys2Proof

/-- No command has an operand that could be out of range (R68), so every command is well formed. -/
def Instr.wellFormed (_ : Instr) : Bool := true

/-- Write data for `CMD` is well formed when bits [63:32] are zero (R64, R50). -/
def commandData (d : Data) : Bool := d.extractLsb' 32 32 == 0

/-- A command word is well formed when the field `zero` is 0 and the field `stage` is 1 to 5 (R65). -/
def commandWord (w : CmdWord) : Bool :=
  w.extractLsb' 4 28 == 0 && 1 ≤ (w.extractLsb' 0 3).toNat && (w.extractLsb' 0 3).toNat ≤ 5

end Sys2Proof
end

