-- ==== Sys2Proof/Decode.lean ====
section
/-! DEFINITION. The decoder and the encoder of command words (spec/30_encoding.md rules R64 to R71). The decoder is
total: every 32-bit word is one of the ten commands or is illegal for a named reason (R67, R69). -/

namespace Sys2Proof

/-- Why a word is no command: the two cases of rule R69. -/
inductive Illegal where
  /-- `w[31:4]` is not 0. -/
  | zeroField
  /-- `w[2:0]` is 0, 6 or 7. -/
  | stage
deriving DecidableEq, Repr

/-- The field `zero`, bits [31:4] (R65). -/
def zeroField (w : CmdWord) : BitVec 28 := w.extractLsb' 4 28

/-- The field `dir`, bit 3: set for the decode direction (R65). -/
def dirField (w : CmdWord) : Bool := w.getLsbD 3

/-- The field `stage`, bits [2:0] (R65). -/
def stageField (w : CmdWord) : BitVec 3 := w.extractLsb' 0 3

/-- The command of a direction and a stage number (R65, R66); none for the stages 0, 6 and 7. -/
def instrOf (dir : Bool) (stage : Nat) : Option Instr :=
  match stage, dir with
  | 1, false => some .ldpx
  | 2, false => some .fdct
  | 3, false => some .qnt
  | 4, false => some .zzf
  | 5, false => some .rle
  | 1, true => some .stpx
  | 2, true => some .idct
  | 3, true => some .dqt
  | 4, true => some .zzu
  | 5, true => some .rld
  | _, _ => none

/-- Decoding a command word (R67): `w[31:4]` must be 0, and (`w[3]`, `w[2:0]`) chooses the row. -/
def decode (w : CmdWord) : Except Illegal Instr :=
  if zeroField w = 0 then
    match instrOf (dirField w) (stageField w).toNat with
    | some i => .ok i
    | none => .error .stage
  else .error .zeroField

/-- The direction of a command: true for the decode direction (R66, column `dir`). -/
def Instr.dir : Instr → Bool
  | .ldpx => false
  | .fdct => false
  | .qnt => false
  | .zzf => false
  | .rle => false
  | .stpx => true
  | .idct => true
  | .dqt => true
  | .zzu => true
  | .rld => true

/-- The stage number of a command (R66, column `stage`). -/
def Instr.stage : Instr → BitVec 3
  | .ldpx => 1
  | .fdct => 2
  | .qnt => 3
  | .zzf => 4
  | .rle => 5
  | .stpx => 1
  | .idct => 2
  | .dqt => 3
  | .zzu => 4
  | .rld => 5

/-- The command word of a command: 28 zero bits, `dir`, `stage` (R65, R66). -/
def encode (i : Instr) : CmdWord := (0 : BitVec 28) ++ BitVec.ofBool i.dir ++ i.stage

/-- The command this decoder reads from a table row's word `w` of `nbits` bits. The hardware takes a command as
ONE port datum of 64 bits whose bits [63:32] must be zero (R64), so the bits above `nbits` are zeros of that
datum; a datum with a bit above 31 set is no command word (R50). -/
def decodeTableWord (nbits w : Nat) : Option Instr :=
  let d := w % 2 ^ nbits
  if d < 2 ^ 32 then (decode (BitVec.ofNat 32 d)).toOption else none

end Sys2Proof
end

