-- ==== Sys2Proof/Machine/Binary64.lean ====
section
/-! DEFINITION. Binary64 cells and the rounding primitives of spec/00_scope.md rule R11: the exact value of a cell,
finiteness, the exact conversion of an integer, round half away from zero, and the saturating clamp. The value of a
cell is an exact rational: no operation here rounds, except `rhaz`, which is meant to. -/

namespace Sys2Proof.Machine

/-- The sign bit, bit 63 (R42). -/
def F64.negative (c : F64) : Bool := c.getLsbD 63

/-- The biased exponent field, bits [62:52] (R42). -/
def F64.exponent (c : F64) : BitVec 11 := c.extractLsb' 52 11

/-- The fraction field, bits [51:0] (R42). -/
def F64.fraction (c : F64) : BitVec 52 := c.extractLsb' 0 52

/-- A cell is finite when its exponent field is not 0x7FF; zeros and subnormals are finite (R81). -/
def F64.finite (c : F64) : Bool := F64.exponent c != 0x7FF

/-- The magnitude of a finite cell in units of 2^-1074, the least subnormal: the fraction itself for exponent field
0 (zeros and subnormals), and the fraction with its hidden bit, scaled, for every other one (IEEE 754). -/
def F64.magnitude (c : F64) : Nat :=
  if F64.exponent c = 0 then (F64.fraction c).toNat
  else (2 ^ 52 + (F64.fraction c).toNat) * 2 ^ ((F64.exponent c).toNat - 1)

/-- `val(c)` of rule R11: the exact value of a finite binary64 cell. No rule takes the value of a cell that is not
finite: the numeric check stands before every use (R81). PRESUMED from IEEE 754, log entries 11
and 12. -/
def F64.val (c : F64) : ℚ :=
  if F64.negative c then -((F64.magnitude c : ℚ) / 2 ^ 1074) else (F64.magnitude c : ℚ) / 2 ^ 1074

/-- A binary64 pattern from its three fields (R42). -/
def F64.pack (neg : Bool) (exponent : BitVec 11) (fraction : BitVec 52) : F64 :=
  BitVec.ofBool neg ++ exponent ++ fraction

/-- `real(i)` of rule R11: the binary64 value equal to the integer `i`, exact for |i| <= 2^53, with `real(0)` the
positive zero (spec/92_eei_decisions.md D27). -/
def F64.ofInt (i : Int) : F64 :=
  if i = 0 then 0
  else
    F64.pack (i < 0) (BitVec.ofNat 11 (1023 + i.natAbs.log2))
      (BitVec.ofNat 52 (i.natAbs * 2 ^ 52 / 2 ^ i.natAbs.log2 - 2 ^ 52))

/-- `XMAX` of rule R9: the largest magnitude a transform command accepts in a source cell. -/
def xmax : ℚ := 2 ^ 31

/-- The numeric check of `FDCT` and `IDCT` on one cell: finite, and of magnitude at most `XMAX` (R81). -/
def F64.transformable (c : F64) : Bool := F64.finite c && decide (|F64.val c| ≤ xmax)

/-- `rhaz(r)` of rule R11: round to the nearest integer, ties away from zero, `sign(r) * floor(|r| + 1/2)`. -/
def rhaz (r : ℚ) : Int := if r < 0 then -⌊-r + 1 / 2⌋ else ⌊r + 1 / 2⌋

/-- `sat(i, lo, hi)` of rule R11: the saturating clamp. -/
def sat (i lo hi : Int) : Int := if i < lo then lo else if i > hi then hi else i

end Sys2Proof.Machine
end

