-- ==== Sys2Proof/Machine/Formulas.lean ====
section
/-! DEFINITION. The exact transforms over the reals (spec/41_transform.md rules R78 and R85). They say what FDCT and
IDCT approximate; no step computes them. -/

namespace Sys2Proof.Machine

/-- `C(i)` of rule R11: `1/√2` for index 0, `1` for every other index. -/
noncomputable def scale (i : Nat) : ℝ := if i = 0 then 1 / √2 else 1

/-- `cos((2x+1)uπ / 2N)`, the fraction read as rule R78 reads it. -/
noncomputable def wave (n x u : Nat) : ℝ := Real.cos (((2 * x + 1) * u * Real.pi) / (2 * n))

/-- The exact forward transform `F*(u,v)` of an N×N real matrix `s` (R78). -/
noncomputable def forwardExact (n : Nat) (s : Nat → Nat → ℝ) (u v : Nat) : ℝ :=
  (2 / n) * scale u * scale v *
    ∑ x ∈ Finset.range n, ∑ y ∈ Finset.range n, s x y * wave n x u * wave n y v

/-- The exact inverse transform `f*(x,y)` of an N×N real matrix `c` (R85). -/
noncomputable def inverseExact (n : Nat) (c : Nat → Nat → ℝ) (x y : Nat) : ℝ :=
  (2 / n) *
    ∑ u ∈ Finset.range n, ∑ v ∈ Finset.range n, scale u * scale v * c u v * wave n x u * wave n y v

/-- `idx(a,b) = b*N + a`, the linear cell index of matrix position (a,b) (R22). -/
def idx (n a b : Nat) : Nat := b * n + a

/-- The real matrix that the cells of an extent hold: entry (a,b) is the value of cell `idx(a,b)` (R77, R84). -/
noncomputable def matrixOf (n : Nat) (cells : List F64) (a b : Nat) : ℝ :=
  (F64.val (cells.getD (idx n a b) 0) : ℝ)

/-- `M` of rules R80 and R87: the largest `|val(c)|` over the source extent. -/
def largest : List F64 → ℚ
  | [] => 0
  | c :: rest => max |F64.val c| (largest rest)

/-- Properties 2 and 3 of rule R80 (and of R87) for one result: every cell of the N×N result is finite and lies
within `tol * max(1, M)` of the exact matrix. -/
def Conforms (tol : ℚ) (n : Nat) (exact : Nat → Nat → ℝ) (m : ℚ) (result : Nat → F64) : Prop :=
  ∀ a < n, ∀ b < n, F64.finite (result (idx n a b)) = true ∧
    |(F64.val (result (idx n a b)) : ℝ) - exact a b| ≤ ((tol * max 1 m : ℚ) : ℝ)

end Sys2Proof.Machine
end

