-- ==== Sys2Proof/Laws/Transform.lean ====
section
/-! SUPPORT. Bounds of the exact transforms (spec/41_transform.md rule R83): the magnitude of every exact result is at
most 2N times the largest source magnitude. Config.lean cites them to show that the open transform functions it
declares can exist. -/

namespace Sys2Proof.Machine

theorem wave_abs_le_one (n x u : Nat) : |wave n x u| ≤ 1 := Real.abs_cos_le_one _

theorem scale_nonneg (i : Nat) : 0 ≤ scale i := by
  unfold scale; split <;> positivity

theorem scale_le_one (i : Nat) : scale i ≤ 1 := by
  unfold scale
  split
  · rw [div_le_one (by positivity)]
    exact Real.one_le_sqrt.mpr (by norm_num)
  · exact le_refl 1

theorem largest_nonneg (cells : List F64) : 0 ≤ largest cells := by
  induction cells with
  | nil => exact le_refl 0
  | cons c rest ih => exact le_max_of_le_right ih

theorem abs_val_le_largest {cells : List F64} {c : F64} (h : c ∈ cells) : |F64.val c| ≤ largest cells := by
  induction cells with
  | nil => cases h
  | cons d rest ih =>
    rcases List.mem_cons.mp h with rfl | h
    · exact le_max_left _ _
    · exact le_max_of_le_right (ih h)

@[simp] theorem val_zero : F64.val 0#64 = 0 := by
  have h : F64.magnitude 0#64 = 0 := by decide
  simp [F64.val, h]

theorem abs_matrixOf_le (n : Nat) (cells : List F64) (a b : Nat) :
    |matrixOf n cells a b| ≤ (largest cells : ℝ) := by
  unfold matrixOf
  rw [← Rat.cast_abs, Rat.cast_le, List.getD_eq_getElem?_getD]
  rcases h : cells[idx n a b]? with _ | c
  · simpa [val_zero] using largest_nonneg cells
  · exact abs_val_le_largest (List.mem_of_getElem? h)

/-- A double sum of N² terms, each of magnitude at most `m`. -/
theorem abs_sum_sum_le (n : Nat) (t : Nat → Nat → ℝ) (m : ℝ) (h : ∀ a b, |t a b| ≤ m) :
    |∑ a ∈ Finset.range n, ∑ b ∈ Finset.range n, t a b| ≤ n * (n * m) := by
  have inner : ∀ a, |∑ b ∈ Finset.range n, t a b| ≤ n * m := fun a => by
    calc _ ≤ ∑ b ∈ Finset.range n, |t a b| := Finset.abs_sum_le_sum_abs _ _
      _ ≤ ∑ _b ∈ Finset.range n, m := Finset.sum_le_sum fun b _ => h a b
      _ = n * m := by simp
  calc _ ≤ ∑ a ∈ Finset.range n, |∑ b ∈ Finset.range n, t a b| := Finset.abs_sum_le_sum_abs _ _
    _ ≤ ∑ _a ∈ Finset.range n, (n * m : ℝ) := Finset.sum_le_sum fun a _ => inner a
    _ = n * (n * m) := by simp

theorem abs_mul_wave_wave_le {r m : ℝ} (h : |r| ≤ m) (n a b c d : Nat) :
    |r * wave n a b * wave n c d| ≤ m := by
  rw [abs_mul, abs_mul]
  calc |r| * |wave n a b| * |wave n c d| ≤ |r| * 1 * 1 := by
        gcongr <;> exact wave_abs_le_one _ _ _
    _ ≤ m := by simpa using h

theorem abs_scale_mul_le {r m : ℝ} (h : |r| ≤ m) (u v : Nat) : |scale u * scale v * r| ≤ m := by
  rw [abs_mul, abs_mul, abs_of_nonneg (scale_nonneg u), abs_of_nonneg (scale_nonneg v)]
  calc scale u * scale v * |r| ≤ 1 * 1 * |r| := by
        gcongr
        · exact scale_nonneg v
        · exact scale_le_one u
        · exact scale_le_one v
    _ ≤ m := by simpa using h

theorem two_div_mul_le {n : Nat} (hn : 1 ≤ n) {r m : ℝ} (h : |r| ≤ n * (n * m)) :
    |(2 / n : ℝ) * r| ≤ 2 * n * m := by
  have hpos : (0 : ℝ) < n := by exact_mod_cast hn
  rw [abs_mul, abs_of_pos (by positivity : (0 : ℝ) < 2 / n)]
  calc (2 / n : ℝ) * |r| ≤ 2 / n * (n * (n * m)) := by gcongr
    _ = 2 * n * m := by field_simp

/-- `|F*(u,v)| <= 2N·M` (R83). -/
theorem abs_forwardExact_le {n : Nat} (hn : 1 ≤ n) {s : Nat → Nat → ℝ} {m : ℝ} (h : ∀ a b, |s a b| ≤ m)
    (u v : Nat) : |forwardExact n s u v| ≤ 2 * n * m := by
  have hs := abs_sum_sum_le n (fun x y => s x y * wave n x u * wave n y v) m
    fun x y => abs_mul_wave_wave_le (h x y) n x u y v
  have := two_div_mul_le hn (abs_scale_mul_le hs u v)
  simpa [forwardExact, mul_assoc] using this

/-- `|f*(x,y)| <= 2N·M` (R83). -/
theorem abs_inverseExact_le {n : Nat} (hn : 1 ≤ n) {c : Nat → Nat → ℝ} {m : ℝ} (h : ∀ a b, |c a b| ≤ m)
    (x y : Nat) : |inverseExact n c x y| ≤ 2 * n * m := by
  refine two_div_mul_le hn (abs_sum_sum_le n
    (fun u v => scale u * scale v * c u v * wave n x u * wave n y v) m fun u v => ?_)
  exact abs_mul_wave_wave_le (abs_scale_mul_le (h u v) u v) n x u y v

/-- Where the exact matrix is bounded by 2N·M, a result of zeros lies within 32·max(1, M) of it. -/
theorem conforms_zero {n : Nat} (hn : n ≤ 16) {exact : Nat → Nat → ℝ} {m : ℚ} (hm : 0 ≤ m)
    (h : ∀ a b, |exact a b| ≤ 2 * n * (m : ℝ)) : Conforms 32 n exact m fun _ => 0 := by
  intro a _ b _
  refine ⟨show F64.finite 0#64 = true by decide, ?_⟩
  show |((F64.val 0#64 : ℚ) : ℝ) - exact a b| ≤ _
  rw [val_zero, Rat.cast_zero, zero_sub, abs_neg]
  refine (h a b).trans ?_
  have hn' : (n : ℝ) ≤ 16 := by exact_mod_cast hn
  have hm' : (0 : ℝ) ≤ m := by exact_mod_cast hm
  have : (m : ℝ) ≤ ((max 1 m : ℚ) : ℝ) := by exact_mod_cast le_max_right 1 m
  push_cast at this ⊢
  nlinarith [le_max_left (1 : ℝ) (m : ℝ)]

end Sys2Proof.Machine
end

