-- ==== Sys2Proof/Config.lean ====
section
/-! DEFINITION. What an implementation of DCTENG fixes (spec/00_scope.md rule R9). The values that rule R9 gives are
constants; the transform functions and their tolerance, which it leaves OPEN, are one constant with no body, of
which nothing is known but the three properties of rules R80 and R87. -/

namespace Sys2Proof

open Sys2Proof.Machine

/-- `NMAX`, the largest block size (R9). -/
def Config.nmax : Nat := 16

/-- `NCELL`, the cells of a buffer (R9). -/
def Config.ncell : Nat := 256

/-- What the spec leaves open of the transform unit: `DCT_TOL` and the functions `fdct_N`, `idct_N` (R80, R87). A
function takes N and the N² source cells in cell order and gives the cell at each linear index of its result; being
a function of these alone is property 1, *pure*. -/
structure Dct where
  /-- `DCT_TOL`, the accuracy bound. -/
  tol : ℚ
  /-- `fdct_N`. -/
  fdct : Nat → List F64 → Nat → F64
  /-- `idct_N`. -/
  idct : Nat → List F64 → Nat → F64
  /-- The tolerance is not negative. -/
  tol_nonneg : 0 ≤ tol
  /-- Properties 2 and 3 of rule R80: *finite* and *accurate*. -/
  fdct_conforms : ∀ n cells, 1 ≤ n → n ≤ Config.nmax → cells.length = n * n →
    cells.all F64.transformable = true →
    Conforms tol n (forwardExact n (matrixOf n cells)) (largest cells) (fdct n cells)
  /-- The same properties of the inverse (R87). -/
  idct_conforms : ∀ n cells, 1 ≤ n → n ≤ Config.nmax → cells.length = n * n →
    cells.all F64.transformable = true →
    Conforms tol n (inverseExact n (matrixOf n cells)) (largest cells) (idct n cells)

/-- Some transform unit exists: the coarsest one, all zeros within a tolerance of 32. Only its existence is used. -/
def Dct.coarsest : Dct where
  tol := 32
  fdct := fun _ _ _ => 0
  idct := fun _ _ _ => 0
  tol_nonneg := by norm_num
  fdct_conforms := fun n cells h1 h16 _ _ =>
    conforms_zero h16 (largest_nonneg cells) (abs_forwardExact_le h1 (abs_matrixOf_le n cells))
  idct_conforms := fun n cells h1 h16 _ _ =>
    conforms_zero h16 (largest_nonneg cells) (abs_inverseExact_le h1 (abs_matrixOf_le n cells))

/-- The open transform unit: a constant with no body, declared wherever some transform unit exists. -/
opaque Config.openDct [Inhabited Dct] : Dct

/-- The transform unit of this machine. Nothing is provable of it but what `Dct` states, so a claim about it holds for
every conforming `fdct_N`, `idct_N` and `DCT_TOL` (spec/92_eei_decisions.md D25). DESIGN CHOICE, log entry 1. -/
def Config.dct : Dct := @Config.openDct ⟨Dct.coarsest⟩

end Sys2Proof
end

