-- ==== Sys2Proof/Machine/State.lean ====
section
/-! DEFINITION. The state of DCTENG (spec/10_state.md), the host port's events and answers (spec/20_memory.md section
2), and the state after reset. State holds the seven cell arrays and the four registers of rule R13, and two fields of
the model's own: what the host has still to do at the port, and what the engine has answered. -/

namespace Sys2Proof.Machine

/-- A cell array: the list of its non-empty cells, each an index and a value, indices strictly rising. A cell that is
not listed is `empty` (R15): it holds no value (R163). DESIGN CHOICE, log entry 4. -/
abbrev Buffer (width : Nat) := List (Nat × BitVec width)

/-- The canonical form of a cell array whose non-empty cells all lie below `limit`. -/
abbrev Buffer.wf {width : Nat} (b : Buffer width) (limit : Nat) : Prop :=
  (b.map Prod.fst).Pairwise (· < ·) ∧ ∀ c ∈ b, c.1 < limit

/-- The command errors (R143), which are also the values that `STATUS.ERR` can latch. -/
inductive CmdError where
  /-- `E_ILLCMD`, code 1: the word is not one of the ten. -/
  | illCmd
  /-- `E_EMPTY`, code 2: a cell of the source extent is empty. -/
  | empty
  /-- `E_NUM`, code 3: a real source cell is not finite, or too large for a transform. -/
  | num
  /-- `E_RLESUM`, code 4: the counts do not sum to N². -/
  | rleSum
deriving DecidableEq, Repr

/-- The response codes (R44). -/
inductive Response where
  /-- `OK`, code 0. -/
  | ok
  /-- A command error, codes 1 to 4. -/
  | error (e : CmdError)
  /-- `E_LOCKED`, code 8: a command was written while `ERR != 0`. -/
  | locked
  /-- `A_UNMAPPED`, code 9: the address holds nothing, or the cell is outside the extent. -/
  | unmapped
  /-- `A_ACCESS`, code 10: read of a write-only or write of a read-only register. -/
  | access
  /-- `A_INVALID`, code 11: read of an empty cell. -/
  | invalid
  /-- `A_RANGE`, code 12: the write data is not a value of the target's type or legal range. -/
  | range
deriving DecidableEq, Repr

/-- What the outside world does to the engine: the two transactions of rule R43 and the reset line of rule R161. -/
inductive HostEvent where
  /-- `HostRead(a)`. -/
  | read (a : Addr)
  /-- `HostWrite(a, d)`; a command is `HostWrite(0x000, w)`. -/
  | write (a : Addr) (d : Data)
  /-- The hard reset line is asserted and released between two transactions; it has no response. -/
  | hardReset
deriving DecidableEq, Repr

/-- What the engine answers to one transaction (R43): a response code, and data when a read is `OK`. No data stands
beside any other code (R49). -/
structure Answer where
  code : Response
  data : Option Data
deriving DecidableEq, Repr

/-- The state of the machine. -/
structure State where
  /-- `P[0..255]`, unsigned 8-bit samples (R16). -/
  p : Buffer 8
  /-- `X[0..255]`, binary64: the Block (R17). -/
  x : Buffer 64
  /-- `F[0..255]`, binary64: the Coefficient Matrix (R18). -/
  f : Buffer 64
  /-- `Q[0..255]`, signed 16-bit: the Quantized Matrix (R19). -/
  q : Buffer 16
  /-- `Z[0..255]`, signed 16-bit: the Zigzag Sequence (R20). -/
  z : Buffer 16
  /-- `RV[0..255]`, signed 16-bit: the values of the Run-Length Stream (R21). -/
  rv : Buffer 16
  /-- `RC[0..255]`, unsigned 16-bit: its counts (R21). -/
  rc : Buffer 16
  /-- `BSIZE`, bits [4:0]: the block size N (R29). -/
  bsize : BitVec 5
  /-- `RLEN`, bits [8:0]: the number of pairs in the stream (R30). -/
  rlen : BitVec 9
  /-- `ERR`, read in `STATUS` bits [3:0]: the latched command error; `none` is the spec's code 0, no error (R27). -/
  err : Option CmdError
  /-- `ECMD`: the command word that latched the error, 0 when there is none (R31). -/
  ecmd : CmdWord
  /-- The model's own (DESIGN CHOICE, log entry 2): what the host has still to do at the port, next first. The step
  takes the first (R57). -/
  pending : List HostEvent
  /-- The model's own (DESIGN CHOICE, log entry 2): what the engine has answered so far, newest first. -/
  answers : List Answer
deriving DecidableEq, Repr

/-- The block size N, the value of `BSIZE` (R9). -/
def State.n (s : State) : Nat := s.bsize.toNat

/-- The extent of `P`, `X`, `F`, `Q` and `Z`: their cells 0 to N²-1 (R22). -/
def State.extent (s : State) : Nat := s.n * s.n

/-- Every cell array is in canonical form: the five matrix buffers have no cell at or beyond N² (R23), the stream
buffers none at or beyond 256 (R21). -/
abbrev Memory.wf (s : State) : Prop :=
  s.p.wf s.extent ∧ s.x.wf s.extent ∧ s.f.wf s.extent ∧ s.q.wf s.extent ∧ s.z.wf s.extent ∧
    s.rv.wf Config.ncell ∧ s.rc.wf Config.ncell

/-- The faults of the machine: there is none. Every transaction is answered (R8, R176), and what the spec lists as a
fault (spec/93_implementation_defined.md section 1) is a response code with the state change its rule gives, so a
next state. -/
inductive Fault where
deriving DecidableEq, Repr

/-- The refusals of the machine. -/
inductive Refusal where
  /-- An arm of `exec` whose instruction has no meaning yet; no arm raises it. Safe: a run stops there. -/
  | notModelled (mnemonic : String)
deriving DecidableEq, Repr

/-- The state after a hard reset (R36): every cell empty, `BSIZE` = 8, `RLEN` = 0, `ERR` = 0, `ECMD` = 0. The host
has nothing to do and nothing has been answered. -/
def State.reset : State where
  p := []
  x := []
  f := []
  q := []
  z := []
  rv := []
  rc := []
  bsize := 8
  rlen := 0
  err := none
  ecmd := 0
  pending := []
  answers := []

end Sys2Proof.Machine
end

