-- ==== Sys2Proof/Machine/Ops.lean ====
section
/-! DEFINITION. The named operations over cell arrays and registers, and the common execution template of a command:
the lock, the checks, error entry and its clearing (spec/10_state.md sections 2 and 3, spec/30_encoding.md rule R75,
spec/60_exceptions.md rules R145 to R150). -/

namespace Sys2Proof.Machine

/-- The outcome of one step or one command. -/
abbrev Result := Host.Outcome State Fault Refusal

/-! ### Cells -/

/-- `B[k]`: the value of cell `k`, or none when it is `empty` (R11). -/
def Buffer.get {width : Nat} : Buffer width → Nat → Option (BitVec width)
  | [], _ => none
  | (j, v) :: rest, k => if j = k then some v else Buffer.get rest k

/-- `B[k] <- v`: cell `k` holds `v` and is non-empty (R11, R51). -/
def Buffer.set {width : Nat} : Buffer width → Nat → BitVec width → Buffer width
  | [], k, v => [(k, v)]
  | (j, u) :: rest, k, v =>
    if k < j then (k, v) :: (j, u) :: rest
    else if k = j then (k, v) :: rest
    else (j, u) :: Buffer.set rest k v

/-- A run of cell writes, in order. -/
def Buffer.writes {width : Nat} (b : Buffer width) (cells : List (Nat × BitVec width)) : Buffer width :=
  cells.foldl (fun acc c => acc.set c.1 c.2) b

/-- Writes the values of a list to cells 0, 1, 2, ... -/
def Buffer.fill {width : Nat} (b : Buffer width) (values : List (BitVec width)) : Buffer width :=
  b.writes ((List.range values.length).zip values)

/-- All the values of a list, when every one is there. -/
def collect {α : Type} : List (Option α) → Option (List α)
  | [] => some []
  | none :: _ => none
  | some a :: rest => (collect rest).map (a :: ·)

/-- The values of cells 0 to `count`-1, when all of them are non-empty. -/
def Buffer.cells {width : Nat} (b : Buffer width) (count : Nat) : Option (List (BitVec width)) :=
  collect ((List.range count).map b.get)

/-- `full(B, n)`: cells 0 to n-1 are all non-empty (R11). -/
def Buffer.full {width : Nat} (b : Buffer width) (count : Nat) : Bool :=
  (List.range count).all fun k => (b.get k).isSome

/-! ### Updates of the state -/

def State.setP (s : State) (b : Buffer 8) : State := { s with p := b }
def State.setX (s : State) (b : Buffer 64) : State := { s with x := b }
def State.setF (s : State) (b : Buffer 64) : State := { s with f := b }
def State.setQ (s : State) (b : Buffer 16) : State := { s with q := b }
def State.setZ (s : State) (b : Buffer 16) : State := { s with z := b }
def State.setRv (s : State) (b : Buffer 16) : State := { s with rv := b }
def State.setRc (s : State) (b : Buffer 16) : State := { s with rc := b }
def State.setRlen (s : State) (len : BitVec 9) : State := { s with rlen := len }

/-- The effect of an accepted write of `BSIZE` (R29): the new N, every cell of every buffer empty, `RLEN` 0; `ERR` and
`ECMD` are not touched. -/
def State.setBsize (s : State) (size : BitVec 5) : State :=
  { s with bsize := size, p := [], x := [], f := [], q := [], z := [], rv := [], rc := [], rlen := 0 }

/-- The reset state of the engine, rule R36, for the hard and the soft reset alike (R161, R162). What the host has
still to do and what has been answered is no state of the engine and stays. -/
def State.resetEngine (s : State) : State :=
  { State.reset with pending := s.pending, answers := s.answers }

/-- The engine answers a transaction with a response code alone. -/
def State.respond (s : State) (r : Response) : State :=
  { s with answers := { code := r, data := none } :: s.answers }

/-- The engine answers a read with `OK` and data (R43). -/
def State.respondData (s : State) (d : Data) : State :=
  { s with answers := { code := .ok, data := some d } :: s.answers }

/-! ### Errors -/

/-- The error latch, taken: `ERR <- code(E)`, `ECMD <- w` (R145). -/
def State.latch (s : State) (e : CmdError) (w : CmdWord) : State := { s with err := some e, ecmd := w }

/-- Error entry, `raise E(w)` (R145): the latch and the response `E`, nothing else. -/
def State.raise (s : State) (e : CmdError) (w : CmdWord) : State := (s.latch e w).respond (.error e)

/-- Clearing the error (R150): `ERR <- 0`, `ECMD <- 0`, nothing else. -/
def State.clearError (s : State) : State := { s with err := none, ecmd := 0 }

/-! ### The common execution template (R75) -/

/-- The lock (R147): while `ERR != 0` a command write is refused with `E_LOCKED` and changes nothing else; otherwise
the command goes on. -/
def unlessLocked (s : State) (go : Result) : Result :=
  if s.err = none then go else .next (s.respond .locked)

/-- What a write of a word that is no command does (R69): `E_ILLCMD`, unless locked. -/
def illegalWord (w : CmdWord) (s : State) : Result :=
  unlessLocked s (.next (s.raise .illCmd w))

/-- A command from its lock check to its response (R75): `body` makes the command's own checks and, when all pass,
its writes; a failed check raises the error with the command's word and writes nothing (R146). -/
def command (i : Instr) (s : State) (body : Except CmdError State) : Result :=
  unlessLocked s <|
    match body with
    | .error e => .next (s.raise e (encode i))
    | .ok t => .next (t.respond .ok)

/-- The empty check of a source extent: its values, or `E_EMPTY` (R75, R143). -/
def source {width : Nat} (b : Buffer width) (count : Nat) : Except CmdError (List (BitVec width)) :=
  match b.cells count with
  | some values => .ok values
  | none => .error .empty

/-- The numeric check over the whole source extent: `E_NUM` when some cell fails `accepts` (R81). -/
def numeric (accepts : F64 → Bool) (cells : List F64) : Except CmdError Unit :=
  if cells.all accepts then .ok () else .error .num

end Sys2Proof.Machine
end

