-- ==== Sys2Proof/Machine/Operands.lean ====
section
/-! DEFINITION. Addresses and port images: what each word address of the window names, and how a register's or a
cell's value travels in the 64 bits of the port (spec/20_memory.md rules R41, R42, R50). A command has no operand of
its own (R68); these are the operand forms of the host's transactions. -/

namespace Sys2Proof.Machine

/-- The six registers of the window (R25). -/
inductive Reg where
  | cmd
  | status
  | ctrl
  | bsize
  | rlen
  | ecmd
deriving DecidableEq, Repr

/-- The seven cell arrays (R13). -/
inductive BufId where
  | p
  | x
  | f
  | q
  | z
  | rv
  | rc
deriving DecidableEq, Repr

/-- What a word address names: a register, a cell, or nothing. -/
inductive Place where
  | reg (r : Reg)
  | cell (b : BufId) (k : Nat)
  | unmapped
deriving DecidableEq, Repr

/-- The width of a buffer's cell type (R14). -/
def BufId.width : BufId → Nat
  | .p => 8
  | .x => 64
  | .f => 64
  | .q => 16
  | .z => 16
  | .rv => 16
  | .rc => 16

/-- Whether the cell type is a signed integer (R14). -/
def BufId.signed : BufId → Bool
  | .p => false
  | .x => false
  | .f => false
  | .q => true
  | .z => true
  | .rv => true
  | .rc => false

/-- The stream buffers `RV` and `RC` are mapped for every k, the others only for k < N² (R41). -/
def BufId.stream : BufId → Bool
  | .p => false
  | .x => false
  | .f => false
  | .q => false
  | .z => false
  | .rv => true
  | .rc => true

/-- The cells of a buffer that the port maps in a state: `k < N²`, or all 256 of a stream buffer (R41, R47). -/
def State.limit (s : State) (b : BufId) : Nat := if b.stream then Config.ncell else s.extent

/-- A buffer of the state by its name. -/
def State.buffer (s : State) (b : BufId) : Buffer b.width :=
  match b with
  | .p => s.p
  | .x => s.x
  | .f => s.f
  | .q => s.q
  | .z => s.z
  | .rv => s.rv
  | .rc => s.rc

/-- Replaces a buffer of the state by its name. -/
def State.setBuffer (s : State) (b : BufId) (cells : Buffer b.width) : State :=
  match b, cells with
  | .p, cells => s.setP cells
  | .x, cells => s.setX cells
  | .f, cells => s.setF cells
  | .q, cells => s.setQ cells
  | .z, cells => s.setZ cells
  | .rv, cells => s.setRv cells
  | .rc, cells => s.setRc cells

/-- The register at an offset of page 0 of the window (R41); 0x006 to 0x0FF hold nothing. -/
def regAt (offset : Nat) : Place :=
  match offset with
  | 0 => .reg .cmd
  | 1 => .reg .status
  | 2 => .reg .ctrl
  | 3 => .reg .bsize
  | 4 => .reg .rlen
  | 5 => .reg .ecmd
  | _ => .unmapped

/-- The address map (R41): page 0 holds the registers, pages 1 to 7 one buffer each, pages 8 to 15 nothing. -/
def place (a : Addr) : Place :=
  let k := (a.extractLsb' 0 8).toNat
  match (a.extractLsb' 8 4).toNat with
  | 0 => regAt k
  | 1 => .cell .p k
  | 2 => .cell .x k
  | 3 => .cell .f k
  | 4 => .cell .q k
  | 5 => .cell .z k
  | 6 => .cell .rv k
  | 7 => .cell .rc k
  | _ => .unmapped

/-- The port image of a cell value (R42): zero-extended, or sign-extended for a signed 16-bit cell; a binary64 cell
is its own pattern. -/
def portImage (b : BufId) (v : BitVec b.width) : Data :=
  if b.signed then v.signExtend 64 else v.setWidth 64

/-- The value whose port image is `d`, if `d` is the port image of a value of the cell type (R50); no truncation. -/
def ofPort (b : BufId) (d : Data) : Option (BitVec b.width) :=
  let v := d.setWidth b.width
  if portImage b v = d then some v else none

end Sys2Proof.Machine
end

