-- ==== Sys2Proof/Machine/Flags.lean ====
section
/-! DEFINITION. The computed bits of `STATUS` (spec/10_state.md rule R27). The engine has no arithmetic condition codes
and no command leaves a flag (rule R32); the only flag-like state is the empty marking of the cells, the latched
error, and these bits computed from both when `STATUS` is read. -/

namespace Sys2Proof.Machine

/-- The code of a command error (R143). -/
def CmdError.code : CmdError → BitVec 4
  | .illCmd => 1
  | .empty => 2
  | .num => 3
  | .rleSum => 4

/-- The response codes as the port carries them (R44). -/
def Response.code : Response → BitVec 4
  | .ok => 0
  | .error e => e.code
  | .locked => 8
  | .unmapped => 9
  | .access => 10
  | .invalid => 11
  | .range => 12

/-- The field `ERR`, `STATUS` bits [3:0]: 0 none, else the latched code (R27). -/
def errField (s : State) : BitVec 4 :=
  match s.err with
  | none => 0
  | some e => e.code

/-- `LOCK`: 1 when `ERR != 0` (R27). -/
def lockBit (s : State) : Bool := errField s != 0

/-- `RF`: every pair `k < RLEN` is non-empty; 1 when `RLEN` = 0 (R27). -/
def streamFull (s : State) : Bool := s.rv.full s.rlen.toNat && s.rc.full s.rlen.toNat

/-- `STATUS` as read (R27): `ERR` in [3:0], `LOCK` in [4], [7:5] zero, `PF`, `XF`, `FF`, `QF`, `ZF`, `RF` in [8] to
[13], [63:14] zero. -/
def statusWord (s : State) : Data :=
  (0 : BitVec 50)
    ++ BitVec.ofBool (streamFull s)
    ++ BitVec.ofBool (s.z.full s.extent)
    ++ BitVec.ofBool (s.q.full s.extent)
    ++ BitVec.ofBool (s.f.full s.extent)
    ++ BitVec.ofBool (s.x.full s.extent)
    ++ BitVec.ofBool (s.p.full s.extent)
    ++ (0 : BitVec 3)
    ++ BitVec.ofBool (lockBit s)
    ++ errField s

end Sys2Proof.Machine
end

