-- ==== Sys2Proof/Machine/Quantizer.lean ====
section
/-! DEFINITION. The quantizer commands QNT and DQT (spec/42_quantizer.md). -/

namespace Sys2Proof.Machine

/-- The quantized value of the coefficient at linear index k: rounded half away from zero (R92), then pinned into the
16-bit signed range for entry (0,0), which is cell 0 (R94), and into the 8-bit signed range for every other (R93). -/
def quantizeCell (k : Nat) (c : F64) : BitVec 16 :=
  let r := rhaz (F64.val c)
  BitVec.ofInt 16 (if k = 0 then sat r (-32768) 32767 else sat r (-128) 127)

/-- `real(Q[k])`: the exact conversion of a signed 16-bit integer (R96). -/
def dequantizeCell (v : BitVec 16) : F64 := F64.ofInt v.toInt

/-- `QNT` (R91): every cell `Q[k]`, k < N², becomes the quantized value of `F[k]`; a cell that is not finite is
`E_NUM`. -/
def execQnt (s : State) : Result :=
  command .qnt s do
    let coefficients ← source s.f s.extent
    numeric F64.finite coefficients
    .ok (s.setQ (s.q.fill (coefficients.mapIdx quantizeCell)))

/-- `DQT` (R96): every cell `F[k]`, k < N², becomes `real(Q[k])`; no range check. -/
def execDqt (s : State) : Result :=
  command .dqt s do
    let integers ← source s.q s.extent
    .ok (s.setF (s.f.fill (integers.map dequantizeCell)))

end Sys2Proof.Machine
end

