-- ==== Sys2Proof/Machine/RunLength.lean ====
section
/-! DEFINITION. The run-length code and the coder commands RLE and RLD (spec/44_rle.md). -/

namespace Sys2Proof.Machine

/-- The loop of `rle_encode` with the running pair (val, cnt) (R109). -/
def rleLoop {α : Type} [DecidableEq α] (val : α) (cnt : Nat) : List α → List (α × Nat)
  | [] => [(val, cnt)]
  | x :: rest => if x = val then rleLoop val (cnt + 1) rest else (val, cnt) :: rleLoop x 1 rest

/-- `rle_encode` of a sequence of any length (R109); the empty sequence has the empty stream (R117). -/
def rleEncode {α : Type} [DecidableEq α] : List α → List (α × Nat)
  | [] => []
  | x :: rest => rleLoop x 1 rest

/-- `rle_decode`: each value repeated its count of times, in stream order (R113). -/
def rleDecode {α : Type} : List (α × Nat) → List α
  | [] => []
  | (v, c) :: rest => List.replicate c v ++ rleDecode rest

/-- The sum of the counts of a stream, an unbounded integer (R114). -/
def countSum {α : Type} (pairs : List (α × Nat)) : Nat := (pairs.map Prod.snd).sum

/-- A stream in the buffers: its pairs in `RV` and `RC`, every pair beyond them empty, its length in `RLEN` (R108,
R111). -/
def State.setStream (s : State) (pairs : List (BitVec 16 × Nat)) : State :=
  ((s.setRv (Buffer.fill [] (pairs.map Prod.fst))).setRc
    (Buffer.fill [] (pairs.map fun c => BitVec.ofNat 16 c.2))).setRlen (BitVec.ofNat 9 pairs.length)

/-- The empty check of `RLD`: the pairs below `RLEN`, or `E_EMPTY` when a value or a count is empty (R112). -/
def streamSource (s : State) : Except CmdError (List (BitVec 16 × Nat)) := do
  let values ← source s.rv s.rlen.toNat
  let counts ← source s.rc s.rlen.toNat
  .ok (values.zip (counts.map BitVec.toNat))

/-- The corruption check: `E_RLESUM` when the counts do not sum to N² (R114). -/
def sumCheck (pairs : List (BitVec 16 × Nat)) (extent : Nat) : Except CmdError Unit :=
  if countSum pairs = extent then .ok () else .error .rleSum

/-- `RLE` (R108): the stream becomes the run-length code of `Z[0..N²-1]`. -/
def execRle (s : State) : Result :=
  command .rle s do
    let sequence ← source s.z s.extent
    .ok (s.setStream (rleEncode sequence))

/-- `RLD` (R112): every cell `Z[k]`, k < N², becomes element k of the decoded stream. -/
def execRld (s : State) : Result :=
  command .rld s do
    let pairs ← streamSource s
    sumCheck pairs s.extent
    .ok (s.setZ (s.z.fill (rleDecode pairs)))

end Sys2Proof.Machine
end

