-- ==== Sys2Proof/Machine/SampleIO.lean ====
section
/-! DEFINITION. The sample conversion commands LDPX and STPX (spec/45_sample_io.md). -/

namespace Sys2Proof.Machine

/-- A sample as a real cell, `real(P[k])`: exact, unsigned, no level shift (R118). -/
def sampleToReal (sample : BitVec 8) : F64 := F64.ofInt sample.toNat

/-- A real cell as a sample: `sat(rhaz(val(X[k])), 0, 255)` (R120, R121). -/
def realToSample (c : F64) : BitVec 8 := BitVec.ofInt 8 (sat (rhaz (F64.val c)) 0 255)

/-- `LDPX` (R118): every cell `X[k]`, k < N², becomes `real(P[k])`. -/
def execLdpx (s : State) : Result :=
  command .ldpx s do
    let samples ← source s.p s.extent
    .ok (s.setX (s.x.fill (samples.map sampleToReal)))

/-- `STPX` (R120): every cell `P[k]`, k < N², becomes the sample of `X[k]`; a cell that is not finite is `E_NUM`. -/
def execStpx (s : State) : Result :=
  command .stpx s do
    let reals ← source s.x s.extent
    numeric F64.finite reals
    .ok (s.setP (s.p.fill (reals.map realToSample)))

end Sys2Proof.Machine
end

