-- ==== Sys2Proof/Machine/Transform.lean ====
section
/-! DEFINITION. The transform commands FDCT and IDCT (spec/41_transform.md). The transform functions are the open
constant `Config.dct`; each command is written over any transform unit, so that a claim can be made of all of them. -/

namespace Sys2Proof.Machine

/-- The N² result cells of a transform function in cell order. -/
def resultCells (count : Nat) (result : Nat → F64) : List F64 := (List.range count).map result

/-- `FDCT` with a given transform unit (R77): `F[idx(u,v)]` becomes `G(u,v)` with G = `fdct_N` of the N² cells of
`X`; a cell that is not finite or exceeds `XMAX` is `E_NUM`. -/
def fdctWith (unit : Dct) (s : State) : Result :=
  command .fdct s do
    let cells ← source s.x s.extent
    numeric F64.transformable cells
    .ok (s.setF (s.f.fill (resultCells s.extent (unit.fdct s.n cells))))

/-- `IDCT` with a given transform unit (R84): `X[idx(x,y)]` becomes `H(x,y)` with H = `idct_N` of the N² cells of
`F`; a cell that is not finite or exceeds `XMAX` is `E_NUM`. -/
def idctWith (unit : Dct) (s : State) : Result :=
  command .idct s do
    let cells ← source s.f s.extent
    numeric F64.transformable cells
    .ok (s.setX (s.x.fill (resultCells s.extent (unit.idct s.n cells))))

/-- `FDCT` (R77). -/
def execFdct (s : State) : Result := fdctWith Config.dct s

/-- `IDCT` (R84). -/
def execIdct (s : State) : Result := idctWith Config.dct s

end Sys2Proof.Machine
end

