-- ==== Sys2Proof/Machine/Zigzag.lean ====
section
/-! DEFINITION. The zigzag scan and the scanner commands ZZF and ZZU (spec/43_zigzag.md). The scan order is a constant
of n, a pure function (R106). -/

namespace Sys2Proof.Machine

/-- The first index u along diagonal i, ascending from `lo(i) = max(0, i-n+1)` to `hi(i) = min(i, n-1)` (R100). -/
def diagonalAscending (n i : Nat) : List Nat :=
  let lo := i + 1 - n
  let hi := min i (n - 1)
  (List.range (hi + 1 - lo)).map (lo + ·)

/-- The positions (u, v) of diagonal i in scan order: u ascending on an even diagonal, descending on an odd one
(R101, the decision `ZZ_DIR`). -/
def diagonal (n i : Nat) : List (Nat × Nat) :=
  let us := if i % 2 = 0 then diagonalAscending n i else (diagonalAscending n i).reverse
  us.map fun u => (u, i - u)

/-- The scan order `(ZU_n[k], ZV_n[k])`: the diagonals 0 to 2n-2, ascending (R100). -/
def scanOrder (n : Nat) : List (Nat × Nat) := (List.range (2 * n - 1)).flatMap (diagonal n)

/-- `ZIDX_n[k] = idx(ZU_n[k], ZV_n[k])`, the scan order as linear cell indices (R102). -/
def zidx (n : Nat) : List Nat := (scanOrder n).map fun c => idx n c.1 c.2

/-- `ZZF` (R99): every cell `Z[k]`, k < N², becomes `Q[ZIDX_N[k]]`. All indices of the scan lie inside the extent. -/
def execZzf (s : State) : Result :=
  command .zzf s do
    let matrix ← source s.q s.extent
    .ok (s.setZ (s.z.fill ((zidx s.n).map fun j => matrix.getD j 0)))

/-- `ZZU` (R104): every cell `Q[ZIDX_N[k]]`, k < N², becomes `Z[k]`. -/
def execZzu (s : State) : Result :=
  command .zzu s do
    let sequence ← source s.z s.extent
    .ok (s.setQ (s.q.writes ((zidx s.n).zip sequence)))

end Sys2Proof.Machine
end

