-- ==== Sys2Proof/Machine/Dispatch.lean ====
section
/-! DEFINITION. One arm per command: the performance of a command, from its lock check to its response
(spec/30_encoding.md rule R75). -/

namespace Sys2Proof.Machine

/-- Performs a command in a state. -/
def exec (i : Instr) (s : State) : Host.Outcome State Fault Refusal :=
  match i with
  | .ldpx => Sys2Proof.Machine.execLdpx s
  | .fdct => Sys2Proof.Machine.execFdct s
  | .qnt => Sys2Proof.Machine.execQnt s
  | .zzf => Sys2Proof.Machine.execZzf s
  | .rle => Sys2Proof.Machine.execRle s
  | .stpx => Sys2Proof.Machine.execStpx s
  | .idct => Sys2Proof.Machine.execIdct s
  | .dqt => Sys2Proof.Machine.execDqt s
  | .zzu => Sys2Proof.Machine.execZzu s
  | .rld => Sys2Proof.Machine.execRld s

end Sys2Proof.Machine
end

