-- ==== Sys2Proof/Machine/Port.lean ====
section
/-! DEFINITION. The host port: what the engine does at each transaction and what it answers (spec/20_memory.md
sections 2 and 4, spec/10_state.md section 3). The checks of a transaction stand in the order of rule R45, and the
first that fails gives the response; an access error changes no state (R46). -/

namespace Sys2Proof.Machine

/-- A command write that passed the access checks (R75): the word is decoded and performed, or is illegal. A locked
engine refuses both alike (R147). -/
def performWord (w : CmdWord) (s : State) : Result :=
  match decode w with
  | .ok i => exec i s
  | .error _ => illegalWord w s

/-- A write of `CMD` (R26): bits [63:32] must be zero (R50), then the word is a command. -/
def writeCmd (d : Data) (s : State) : Result :=
  if commandData d then performWord (d.extractLsb' 0 32) s else .next (s.respond .range)

/-- A write of `CTRL` (R28): bits [63:2] must be zero; bit 0 is the soft reset and wins over bit 1, which clears the
error; 0 does nothing. -/
def writeCtrl (d : Data) (s : State) : State :=
  if d.extractLsb' 2 62 != 0 then s.respond .range
  else if d.getLsbD 0 then s.resetEngine.respond .ok
  else if d.getLsbD 1 then s.clearError.respond .ok
  else s.respond .ok

/-- A write of `BSIZE` (R29): accepted for 1 to 16. -/
def writeBsize (d : Data) (s : State) : State :=
  if 1 ≤ d.toNat ∧ d.toNat ≤ Config.nmax then (s.setBsize (d.setWidth 5)).respond .ok
  else s.respond .range

/-- A write of `RLEN` (R30): accepted for 0 to 256; no cell changes. -/
def writeRlen (d : Data) (s : State) : State :=
  if d.toNat ≤ Config.ncell then (s.setRlen (d.setWidth 9)).respond .ok else s.respond .range

/-- A write of a register (R48, R51): `STATUS` and `ECMD` are read-only. -/
def writeReg (r : Reg) (d : Data) (s : State) : Result :=
  match r with
  | .cmd => writeCmd d s
  | .status => .next (s.respond .access)
  | .ctrl => .next (writeCtrl d s)
  | .bsize => .next (writeBsize d s)
  | .rlen => .next (writeRlen d s)
  | .ecmd => .next (s.respond .access)

/-- A write of a cell (R47, R50, R51): the cell must be mapped and the data representable. -/
def writeCell (b : BufId) (k : Nat) (d : Data) (s : State) : State :=
  if k < s.limit b then
    match ofPort b d with
    | some v => (s.setBuffer b ((s.buffer b).set k v)).respond .ok
    | none => s.respond .range
  else s.respond .unmapped

/-- `HostWrite(a, d)` (R43). -/
def hostWrite (a : Addr) (d : Data) (s : State) : Result :=
  match place a with
  | .reg r => writeReg r d s
  | .cell b k => .next (writeCell b k d s)
  | .unmapped => .next (s.respond .unmapped)

/-- A read of a register (R48, R52): `CMD` and `CTRL` are write-only; the value is zero-extended (R42). -/
def readReg (r : Reg) (s : State) : State :=
  match r with
  | .cmd => s.respond .access
  | .status => s.respondData (statusWord s)
  | .ctrl => s.respond .access
  | .bsize => s.respondData (s.bsize.setWidth 64)
  | .rlen => s.respondData (s.rlen.setWidth 64)
  | .ecmd => s.respondData (s.ecmd.setWidth 64)

/-- A read of a cell (R47, R49, R52): the cell must be mapped and non-empty. -/
def readCell (b : BufId) (k : Nat) (s : State) : State :=
  if k < s.limit b then
    match (s.buffer b).get k with
    | some v => s.respondData (portImage b v)
    | none => s.respond .invalid
  else s.respond .unmapped

/-- `HostRead(a)` (R43): it changes nothing but what has been answered (R52, R53). -/
def hostRead (a : Addr) (s : State) : State :=
  match place a with
  | .reg r => readReg r s
  | .cell b k => readCell b k s
  | .unmapped => s.respond .unmapped

/-- What one event of the outside world does to the engine, as one atomic step (R57); a hard reset has no response
(R161). -/
def perform (e : HostEvent) (s : State) : Result :=
  match e with
  | .read a => .next (hostRead a s)
  | .write a d => hostWrite a d s
  | .hardReset => .next s.resetEngine

/-- The next event leaves the host's list. -/
def State.taken (s : State) (rest : List HostEvent) : State := { s with pending := rest }

/-- The engine takes the host's next event and performs it (R57); with none it is idle and everything survives
idleness (R33, R160). -/
def nextEvent (s : State) : Result :=
  match s.pending with
  | [] => .next s
  | e :: rest => perform e (s.taken rest)

/-- The host's next transaction becomes the command write of the word `w` of `nbits` bits. -/
def State.withCommand (s : State) (nbits w : Nat) : State :=
  { s with pending := .write 0x000 (BitVec.ofNat 64 (w % 2 ^ nbits)) :: s.pending }

end Sys2Proof.Machine
end

