-- ==== Sys2Proof/Machine/Step.lean ====
section
/-! DEFINITION. One step of the machine is one transaction of the host port (spec/20_memory.md rule R57). The engine
never fetches: it performs what the host writes (spec/10_state.md rule R33), so the place where a step finds its next
instruction is the host's list of pending transactions. -/

namespace Sys2Proof.Machine

/-- One step: the host's next event, performed to completion; idle when there is none. -/
def step (s : State) : Host.Outcome State Fault Refusal := nextEvent s

/-- The state `s` in which the host's very next transaction is the command write of the instruction `w` of `nbits`
bits; the bits above `nbits` are zero. Nothing else changes. -/
def State.withFetchWord (s : State) (nbits w : Nat) : State := s.withCommand nbits w

end Sys2Proof.Machine
end

