-- ==== Sys2Proof/Machine/Script.lean ====
section
/-! DEFINITION. The script notation for host transactions (spec/30_encoding.md rules R72 to R74): targets and their
addresses, the transaction of a script line, the block shorthands and the pseudo-instructions. The host issues them;
none is a command word of its own. What a line whose value or cell index does not fit the transaction stands for is the
model's choice (DESIGN CHOICE, log entry 21). -/

namespace Sys2Proof.Machine

/-- The word address of a register (R41). -/
def Reg.address : Reg → Addr
  | .cmd => 0x000
  | .status => 0x001
  | .ctrl => 0x002
  | .bsize => 0x003
  | .rlen => 0x004
  | .ecmd => 0x005

/-- The page of a buffer: its cell k has word address `page * 0x100 + k` (R41). -/
def BufId.page : BufId → BitVec 4
  | .p => 1
  | .x => 2
  | .f => 3
  | .q => 4
  | .z => 5
  | .rv => 6
  | .rc => 7

/-- The word address of cell `k` of a buffer (R41); k is 0 to 255. -/
def BufId.address (b : BufId) (k : BitVec 8) : Addr := b.page ++ k

/-- The script line `<MNEMONIC>`: `HostWrite(0x000, word)` (R72). -/
def commandEvent (i : Instr) : HostEvent := .write Reg.cmd.address ((encode i).setWidth 64)

/-- `WR <register>, <value>` (R72). Registers are unsigned (R42): for a negative integer the data is its 64-bit two's
complement pattern, and one that 64 bits do not hold is taken modulo 2^64 (DESIGN CHOICE, log entries 21 and 22); the
passes issue no such write. -/
def wrReg (r : Reg) (value : Int) : HostEvent := .write r.address (BitVec.ofInt 64 value)

/-- `WR B[k], <integer>` (R72). The port image of a value of the cell's type is its zero extension, or for a signed
cell its sign extension (R42), and for either that is the 64-bit two's complement pattern of the integer; for `X` and
`F` an integer is the binary64 pattern itself (vector V6 of spec/95_test_vectors.md). The same
pattern is the data for an integer outside the cell's type, a negative one for the unsigned cells `P` and `RC` among
them, which rules R42 and R50 give no port image (DESIGN CHOICE, log entry 22); an integer that 64 bits do not hold is
taken modulo 2^64 and a cell index of 256 or more modulo 256 (DESIGN CHOICE, log entry 21). -/
def wrCell (b : BufId) (k : Nat) (value : Int) : HostEvent :=
  .write (b.address (BitVec.ofNat 8 k)) (BitVec.ofInt 64 value)

/-- `WR B[k], <real>` for `X` and `F`: the pattern itself (R42). A cell index of 256 or more is taken modulo 256 (DESIGN
CHOICE, log entry 21). -/
def wrReal (b : BufId) (k : Nat) (value : F64) : HostEvent := .write (b.address (BitVec.ofNat 8 k)) value

/-- `RD <register>` (R72). -/
def rdReg (r : Reg) : HostEvent := .read r.address

/-- `RD B[k]` (R72). A cell index of 256 or more is taken modulo 256 (DESIGN CHOICE, log entry 21); the passes issue no
such read from a state that meets `EngineInv`. -/
def rdCell (b : BufId) (k : Nat) : HostEvent := .read (b.address (BitVec.ofNat 8 k))

/-- `WR B[0..n-1] = v0 v1 ...` in ascending cell order (R73). -/
def wrCells (b : BufId) (values : List Int) : List HostEvent := values.mapIdx (wrCell b)

/-- `RD B[0..n-1]` (R73). -/
def rdCells (b : BufId) (count : Nat) : List HostEvent := (List.range count).map (rdCell b)

/-- `WR R = (v0,c0) (v1,c1) ...`: the pairs in order, then `WR RLEN` with their number (R73). -/
def wrStream (pairs : List (Int × Int)) : List HostEvent :=
  (pairs.mapIdx fun j c => [wrCell .rv j c.1, wrCell .rc j c.2]).flatten ++ [wrReg .rlen pairs.length]

/-- The reads of the pairs 0 to count-1, value before count (R73). -/
def rdPairs (count : Nat) : List HostEvent :=
  (List.range count).flatMap fun j => [rdCell .rv j, rdCell .rc j]

/-- `ENCB`: the five commands of the encode chain (R74). -/
def encb : List Instr := [.ldpx, .fdct, .qnt, .zzf, .rle]

/-- `DECB`: the five commands of the decode chain (R74). -/
def decb : List Instr := [.rld, .zzu, .dqt, .idct, .stpx]

/-- `SETN n` (R74). -/
def setN (n : Int) : HostEvent := wrReg .bsize n

/-- `CLRERR` (R74). -/
def clrErr : HostEvent := wrReg .ctrl 2

/-- `SRST` (R74). -/
def srst : HostEvent := wrReg .ctrl 1

end Sys2Proof.Machine
end

