-- ==== Sys2Proof/Machine/Partitioner.lean ====
section
/-! DEFINITION. The host's data and the Block Partitioner (spec/46_pipeline_host.md sections 1 and 2): the Raster, the
shape check, the tile order, the extraction of a tile, and the Encoded Image. They are the host's (rule R35), not the
engine's, and no step reads them. -/

namespace Sys2Proof.Machine

/-- A Raster of W columns and H rows, row-major: sample (x, y) at offset `y*W + x` (R124). -/
structure Raster where
  width : Nat
  height : Nat
  samples : List (BitVec 8)
deriving DecidableEq, Repr

/-- `raster(x, y)` (R124), for a position inside the raster. -/
def Raster.sample (r : Raster) (x y : Nat) : BitVec 8 := r.samples.getD (y * r.width + x) 0

/-- The raster holds all its samples, H rows of W (R124). -/
def Raster.Whole (r : Raster) : Prop := r.samples.length = r.width * r.height

/-- A new raster of the declared dimensions, every sample 0 (R133). -/
def Raster.blank (w h : Nat) : Raster := { width := w, height := h, samples := List.replicate (w * h) 0 }

/-- The raster with one sample replaced. -/
def Raster.put (r : Raster) (x y : Nat) (v : BitVec 8) : Raster :=
  { r with samples := r.samples.set (y * r.width + x) v }

/-- The shape check (R127): 1 <= N <= 16, N divides W and N divides H. No raster has a negative dimension, so the
declared dimensions of an Encoded Image must not be negative either (DESIGN CHOICE, log entry 20). -/
def shapeOk (n w h : Int) : Bool :=
  1 ≤ n && n ≤ Config.nmax && w % n == 0 && h % n == 0 && 0 ≤ w && 0 ≤ h

/-- The tile order (R125): x outer, y inner, both ascending by N. -/
def tiles (n w h : Nat) : List (Nat × Nat) :=
  (List.range (w / n)).flatMap fun i => (List.range (h / n)).map fun j => (i * n, j * n)

/-- The positions (i, j) of a tile in cell order: j outer, i inner, so that cell `idx(i,j)` is the next one (R22). -/
def tilePositions (n : Nat) : List (Nat × Nat) :=
  (List.range n).flatMap fun j => (List.range n).map fun i => (i, j)

/-- Extraction (R126): `P[idx(i, j)] <- raster(x0 + i, y0 + j)`, one write per sample. -/
def extractTile (r : Raster) (n x0 y0 : Nat) : List HostEvent :=
  (tilePositions n).map fun c => wrCell .p (idx n c.1 c.2) (r.sample (x0 + c.1) (y0 + c.2)).toNat

/-- An Encoded Block: the tile's offset and its stream (R129), all integers. -/
structure EncodedBlock where
  x : Int
  y : Int
  pairs : List (Int × Int)
deriving DecidableEq, Repr

/-- An Encoded Image, the fields in the order of rule R129, all integers. -/
structure EncodedImage where
  n : Int
  w : Int
  h : Int
  blocks : List EncodedBlock
deriving DecidableEq, Repr

/-- The sum of the counts of a block (R131). -/
def EncodedBlock.total (b : EncodedBlock) : Int := (b.pairs.map Prod.snd).sum

/-- A pair whose value and count 64 bits hold, so that the port can carry them. Rule R129 says that they fit 16 bits; of
a pair beyond 64 bits no rule says what the host does (DESIGN CHOICE, log entry 19). -/
def portable (c : Int × Int) : Bool := -2 ^ 63 ≤ c.1 && c.1 < 2 ^ 63 && -2 ^ 63 ≤ c.2 && c.2 < 2 ^ 64

/-- The offset check on decode: the four tests of rule R134, a multiple of N and the tile not beyond the raster's right
and lower edge, and not left of or above it, since out-of-raster offsets are rejected too (D30 in
spec/92_eei_decisions.md, spec/93_implementation_defined.md section 4; DEDUCED, log entry 20). -/
def offsetOk (image : EncodedImage) (block : EncodedBlock) : Bool :=
  block.x % image.n == 0 && block.y % image.n == 0 && block.x + image.n ≤ image.w && block.y + image.n ≤ image.h &&
    0 ≤ block.x && 0 ≤ block.y

end Sys2Proof.Machine
end

