-- ==== Sys2Proof/Machine/Orchestrator.lean ====
section
/-! DEFINITION. The Pipeline Orchestrator (spec/46_pipeline_host.md sections 3 to 5): the host's encode and decode
passes over an engine, transaction by transaction. A pass ends at the first response other than `OK` (R136). -/

namespace Sys2Proof.Machine

/-- Why a pass ended without its result. -/
inductive PassError where
  /-- The configuration error of the shape check; no transaction was made (R127). -/
  | shape
  /-- An Encoded Block whose offset is misaligned or outside the raster (R134). -/
  | offset
  /-- An Encoded Block with more than 256 pairs, which cannot be loaded (R132). -/
  | tooManyPairs
  /-- An Encoded Block with a value or a count beyond 64 bits, which no transaction can carry: a corruption error
  (DESIGN CHOICE, log entry 19). -/
  | unwritable
  /-- A response other than `OK` (R136). -/
  | response (r : Response)
  /-- The engine gave no answer; it never happens (R8). -/
  | noAnswer
deriving DecidableEq, Repr

/-- How a part of a pass ends: with a value, or early; the engine's state is known either way. -/
inductive Driven (α : Type) where
  | done (value : α) (s : State)
  | failed (why : PassError) (s : State)
deriving DecidableEq, Repr

/-- One part of a pass after another. -/
def Driven.andThen {α β : Type} (first : Driven α) (next : α → State → Driven β) : Driven β :=
  match first with
  | .done value s => next value s
  | .failed why s => .failed why s

/-- One transaction of a pass: it must respond `OK` (R136). The value is the data of a read. -/
def transact (e : HostEvent) (s : State) : Driven (List Data) :=
  match perform e s with
  | .next t =>
    match t.answers with
    | a :: _ => if a.code = .ok then .done a.data.toList t else .failed (.response a.code) t
    | [] => .failed .noAnswer t
  | .fault _ => .failed .noAnswer s
  | .refused _ => .failed .noAnswer s

/-- A run of transactions, each `OK`; the value is the data of its reads in order. -/
def transactAll : List HostEvent → State → Driven (List Data)
  | [], s => .done [] s
  | e :: rest, s =>
    (transact e s).andThen fun data t =>
      (transactAll rest t).andThen fun more u => .done (data ++ more) u

/-- A chain of commands, stopping at the first response other than `OK` (R74). -/
def runChain (chain : List Instr) (s : State) : Driven (List Data) := transactAll (chain.map commandEvent) s

/-- The pairs of a stream from the read data, value then count. -/
def pairsOf : List Data → List (Int × Int)
  | v :: c :: rest => (v.toInt, (c.toNat : Int)) :: pairsOf rest
  | _ => []

/-- The encode chain of one tile (R130): load the tile, `ENCB`, read `RLEN` and the pairs. -/
def encodeTile (r : Raster) (n x0 y0 : Nat) (s : State) : Driven EncodedBlock :=
  (transactAll (extractTile r n x0 y0) s).andThen fun _ s1 =>
  (runChain encb s1).andThen fun _ s2 =>
  (transact (rdReg .rlen) s2).andThen fun len s3 =>
  (transactAll (rdPairs ((len.map BitVec.toNat).sum)) s3).andThen fun data s4 =>
  .done { x := x0, y := y0, pairs := pairsOf data } s4

/-- The tiles of a pass in order, their blocks appended in traversal order (R130, R131). -/
def encodeTiles (r : Raster) (n : Nat) : List (Nat × Nat) → State → Driven (List EncodedBlock)
  | [], s => .done [] s
  | (x0, y0) :: rest, s =>
    (encodeTile r n x0 y0 s).andThen fun block s1 =>
    (encodeTiles r n rest s1).andThen fun blocks s2 =>
    .done (block :: blocks) s2

/-- The encode pass of a raster (R130): the shape check, one `WR BSIZE, N`, then every tile. -/
def encodePass (r : Raster) (n : Int) (s : State) : Driven EncodedImage :=
  if shapeOk n r.width r.height then
    (transact (setN n) s).andThen fun _ s1 =>
    (encodeTiles r n.toNat (tiles n.toNat r.width r.height) s1).andThen fun blocks s2 =>
    .done { n := n, w := r.width, h := r.height, blocks := blocks } s2
  else .failed .shape s

/-- The samples of a decoded tile go to the output raster at the block's offset, `out(x + i, y + j) = P[idx(i, j)]`
(R132). -/
def Raster.putTile (out : Raster) (n x0 y0 : Nat) (data : List Data) : Raster :=
  ((tilePositions n).zip data).foldl
    (fun r c => r.put (x0 + c.1.1) (y0 + c.1.2) (c.2.setWidth 8)) out

/-- The decode chain of one block (R132, R134); a block that cannot be loaded is rejected before it is loaded. -/
def decodeBlock (image : EncodedImage) (out : Raster) (block : EncodedBlock) (s : State) : Driven Raster :=
  if !offsetOk image block then .failed .offset s
  else if Config.ncell < block.pairs.length then .failed .tooManyPairs s
  else if !block.pairs.all portable then .failed .unwritable s
  else
    (transactAll (wrStream block.pairs) s).andThen fun _ s1 =>
    (runChain decb s1).andThen fun _ s2 =>
    (transactAll (rdCells .p (image.n.toNat * image.n.toNat)) s2).andThen fun data s3 =>
    .done (out.putTile image.n.toNat block.x.toNat block.y.toNat data) s3

/-- The blocks of an image in stream order, whatever order that is (R135). -/
def decodeBlocks (image : EncodedImage) : List EncodedBlock → Raster → State → Driven Raster
  | [], out, s => .done out s
  | block :: rest, out, s => (decodeBlock image out block s).andThen (decodeBlocks image rest)

/-- The decode pass of an Encoded Image (R132): the shape check on its declared dimensions, one `WR BSIZE, N`, a new
raster, then every block. -/
def decodePass (image : EncodedImage) (s : State) : Driven Raster :=
  if shapeOk image.n image.w image.h then
    (transact (setN image.n) s).andThen fun _ s1 =>
    decodeBlocks image image.blocks (Raster.blank image.w.toNat image.h.toNat) s1
  else .failed .shape s

end Sys2Proof.Machine
end

