-- ==== Sys2Proof/Safety.lean ====
section
/-! DEFINITION. What counts as a good state and a good run: the invariants of every reachable state
(spec/10_state.md rule R37), how a pass ends, and when it has succeeded (spec/46_pipeline_host.md rules R136 and
R139). -/

namespace Sys2Proof.Machine

/-- The invariants of rule R37: 1 <= `BSIZE` <= 16; 0 <= `RLEN` <= 256; `ECMD` = 0 whenever `ERR` = 0; the cells
outside the extent empty, and every buffer in the form `Memory.wf`. That `ERR` is one of 0 to 4 and that every cell
holds a value of its type is in the types. -/
def EngineInv (s : State) : Prop :=
  1 ≤ s.n ∧ s.n ≤ Config.nmax ∧ s.rlen.toNat ≤ Config.ncell ∧ (s.err = none → s.ecmd = 0) ∧ Memory.wf s

/-- Every answer given between `s` and `t` is `OK`: the answers of a pass, whatever was answered before it (R139). -/
def OkSince (s t : State) : Prop :=
  ∃ answers : List Answer, t.answers = answers ++ s.answers ∧ ∀ a ∈ answers, a.code = .ok

/-- How every pass from `s` ends (R136): done, or ended by the host's own check, with every response `OK`; or at the
first other response, which is the last thing answered and the one reported. Of the host's own checks the spec gives
`shape` (R127), `offset` (R134) and `tooManyPairs` (R132); `unwritable` is log entry 19. -/
def EndsAtFirstError {α : Type} (s : State) : Driven α → Prop
  | .done _ t => OkSince s t
  | .failed (.response c) t => c ≠ .ok ∧ ∃ u : State, OkSince s u ∧ t.answers = { code := c, data := none } :: u.answers
  | .failed .shape t => OkSince s t
  | .failed .offset t => OkSince s t
  | .failed .tooManyPairs t => OkSince s t
  | .failed .unwritable t => OkSince s t
  | .failed .noAnswer _ => False

/-- The host holds the complete Encoded Image of a raster: its dimensions, and one block for every tile in tile order
(R130, R131). -/
def EncodedImage.CompleteFor (image : EncodedImage) (r : Raster) (n : Int) : Prop :=
  image.n = n ∧ image.w = r.width ∧ image.h = r.height ∧
    image.blocks.map (fun b => (b.x, b.y)) =
      (tiles n.toNat r.width r.height).map fun c => ((c.1 : Int), (c.2 : Int))

/-- The raster position (x, y) lies in the tile at the block's offset. -/
def EncodedBlock.Covers (n : Int) (b : EncodedBlock) (x y : Int) : Prop :=
  b.x ≤ x ∧ x < b.x + n ∧ b.y ≤ y ∧ y < b.y + n

/-- Every block of the image is in the output raster (R132, R134): for each block, the sample at (i, j) of its tile is
what `P[idx(i, j)]` holds when the pass has decoded the blocks up to it, unless a later block covers the position. -/
def BlocksWritten (image : EncodedImage) (s : State) (out : Raster) : Prop :=
  ∀ (before : List EncodedBlock) (block : EncodedBlock) (after : List EncodedBlock),
    image.blocks = before ++ block :: after →
    ∃ (partialOut : Raster) (u : State),
      decodePass { image with blocks := before ++ [block] } s = .done partialOut u ∧
      ∀ i j : Nat, i < image.n → j < image.n →
        (∀ b ∈ after, ¬ b.Covers image.n (block.x + i) (block.y + j)) →
        u.p.get (idx image.n.toNat i j) = some (out.sample (block.x + i).toNat (block.y + j).toNat)

/-- An encode pass has succeeded (R139): every response of the pass was `OK`, `STATUS.ERR` reads 0 after it, and the
host holds the complete Encoded Image. -/
def EncodeSucceeded (r : Raster) (n : Int) (s : State) (image : EncodedImage) (t : State) : Prop :=
  encodePass r n s = .done image t ∧ OkSince s t ∧ errField t = 0 ∧ image.CompleteFor r n

/-- A decode pass has succeeded (R139): every response of the pass was `OK`, `STATUS.ERR` reads 0 after it, and every
block is written into the output raster. -/
def DecodeSucceeded (image : EncodedImage) (s : State) (out : Raster) (t : State) : Prop :=
  decodePass image s = .done out t ∧ OkSince s t ∧ errField t = 0 ∧ BlocksWritten image s out

end Sys2Proof.Machine
end

