-- ==== Sys2Proof/Certificates/Slice0/Obligations.lean ====
section
/-! DEFINITION. The statements for the provers. Each says which rule of spec/ it formalises. The helper predicates
stand first, under Sys2Proof.Claims. -/

namespace Sys2Proof.Claims

open Sys2Proof.Machine

/-- An answer that is a response code alone. -/
def code (r : Response) : Answer := { code := r, data := none }

/-- The command ends with the command error `e` (R145): the latch, the response, nothing else. -/
def Raises (i : Instr) (s : State) (e : CmdError) : Prop :=
  exec i s = .next { s with err := some e, ecmd := encode i, answers := code (.error e) :: s.answers }

/-- The command completes: a next state, the response `OK`. -/
def Completes (i : Instr) (s : State) : Prop :=
  ∃ t : State, exec i s = .next t ∧ t.answers = code .ok :: s.answers

/-- The "Empty check" line of each command's rule: its whole source extent is non-empty (R149). -/
def sourceFull (i : Instr) (s : State) : Bool :=
  match i with
  | .ldpx => s.p.full s.extent
  | .fdct => s.x.full s.extent
  | .qnt => s.f.full s.extent
  | .zzf => s.q.full s.extent
  | .rle => s.z.full s.extent
  | .stpx => s.x.full s.extent
  | .idct => s.f.full s.extent
  | .dqt => s.q.full s.extent
  | .zzu => s.z.full s.extent
  | .rld => s.rv.full s.rlen.toNat && s.rc.full s.rlen.toNat

/-- Some cell below `count` is not finite. -/
def HasNonFinite (b : Buffer 64) (count : Nat) : Prop :=
  ∃ k < count, ∃ c, b.get k = some c ∧ F64.exponent c = 0x7FF

/-- Some cell below `count` is not finite or has a magnitude above 2^31. -/
def HasUnfit (b : Buffer 64) (count : Nat) : Prop :=
  ∃ k < count, ∃ c, b.get k = some c ∧ (F64.exponent c = 0x7FF ∨ 2 ^ 31 < |F64.val c|)

/-- The "Numeric check" line of each command's rule fails (R81); a command without that line never fails it. -/
def NumericFails (i : Instr) (s : State) : Prop :=
  match i with
  | .ldpx => False
  | .fdct => HasUnfit s.x s.extent
  | .qnt => HasNonFinite s.f s.extent
  | .zzf => False
  | .rle => False
  | .stpx => HasNonFinite s.x s.extent
  | .idct => HasUnfit s.f s.extent
  | .dqt => False
  | .zzu => False
  | .rld => False

/-- The sum of the counts `RC[0..RLEN-1]` (R114); an empty cell, which the empty check refuses first, adds nothing. -/
def streamSum (s : State) : Nat :=
  ((List.range s.rlen.toNat).map fun k => ((s.rc.get k).getD 0).toNat).sum

/-- The "Corruption check" line of `RLD` fails; no other command has one (R112). -/
def SumFails (i : Instr) (s : State) : Prop := i = .rld ∧ streamSum s ≠ s.n * s.n

/-- The buffers a command may write (R66, column `writes`). -/
def destinations : Instr → List BufId
  | .ldpx => [.x]
  | .fdct => [.f]
  | .qnt => [.q]
  | .zzf => [.z]
  | .rle => [.rv, .rc]
  | .stpx => [.p]
  | .idct => [.x]
  | .dqt => [.f]
  | .zzu => [.q]
  | .rld => [.z]

/-- A command performed with a given transform unit; with the machine's own it is `exec`. -/
def execWith (unit : Dct) (i : Instr) (s : State) : Result :=
  match i with
  | .ldpx => exec .ldpx s
  | .fdct => fdctWith unit s
  | .qnt => exec .qnt s
  | .zzf => exec .zzf s
  | .rle => exec .rle s
  | .stpx => exec .stpx s
  | .idct => idctWith unit s
  | .dqt => exec .dqt s
  | .zzu => exec .zzu s
  | .rld => exec .rld s

/-- A chain of commands, each answered `OK`, leads from `s` to `t`. -/
def ChainOk (unit : Dct) : List Instr → State → State → Prop
  | [], s, t => t = s
  | i :: rest, s, t =>
    ∃ u : State, execWith unit i s = .next u ∧ u.answers = code .ok :: s.answers ∧ ChainOk unit rest u t

/-- A stream in canonical form: no zero counts, no equal neighbours (R116). -/
def Canonical {α β : Type} [LE β] [OfNat β 1] (pairs : List (α × β)) : Prop :=
  (∀ c ∈ pairs, 1 ≤ c.2) ∧ List.IsChain (fun c d => c.1 ≠ d.1) pairs

/-- Two states whose buffers read alike at every cell. -/
def SameCells (s t : State) : Prop := ∀ (b : BufId) (k : Nat), (t.buffer b).get k = (s.buffer b).get k

end Sys2Proof.Claims

open Sys2Proof Sys2Proof.Machine Sys2Proof.Claims

/-! ### Encoding -/

/-- R66: the ten command words, encoded and decoded. -/
def Obligations.OpcodeMapWords : Prop :=
  (encode .ldpx = 0x00000001 ∧ encode .fdct = 0x00000002 ∧ encode .qnt = 0x00000003 ∧
    encode .zzf = 0x00000004 ∧ encode .rle = 0x00000005 ∧ encode .stpx = 0x00000009 ∧
    encode .idct = 0x0000000A ∧ encode .dqt = 0x0000000B ∧ encode .zzu = 0x0000000C ∧
    encode .rld = 0x0000000D) ∧
  decode 0x00000001 = .ok .ldpx ∧ decode 0x00000002 = .ok .fdct ∧ decode 0x00000003 = .ok .qnt ∧
    decode 0x00000004 = .ok .zzf ∧ decode 0x00000005 = .ok .rle ∧ decode 0x00000009 = .ok .stpx ∧
    decode 0x0000000A = .ok .idct ∧ decode 0x0000000B = .ok .dqt ∧ decode 0x0000000C = .ok .zzu ∧
    decode 0x0000000D = .ok .rld

/-- R67: a word is a command exactly when it equals that command's word, all 32 bits compared; equivalently
`w[31:4] = 0` and `w[2:0]` in 1..5, the row chosen by (`w[3]`, `w[2:0]`); every other word is illegal. -/
def Obligations.DecodeReadsExactlyTheOpcodeMap : Prop :=
  (∀ (w : CmdWord) (i : Instr), decode w = .ok i ↔ w = encode i) ∧
  (∀ w : CmdWord, (∃ i, decode w = .ok i) ↔
    w.extractLsb' 4 28 = 0 ∧ 1 ≤ (w.extractLsb' 0 3).toNat ∧ (w.extractLsb' 0 3).toNat ≤ 5) ∧
  (∀ (w : CmdWord) (i : Instr), decode w = .ok i → i.dir = w.getLsbD 3 ∧ i.stage = w.extractLsb' 0 3) ∧
  (∀ w : CmdWord, (∃ r, decode w = .error r) ↔ ∀ i, w ≠ encode i)

/-- R69: a word with `w[31:4] != 0` or `w[2:0]` 0, 6 or 7 is illegal, which is every word but the ten; writing it to
`CMD` while not locked raises `E_ILLCMD` and changes no buffer. -/
def Obligations.IllegalWordsRaiseIllcmd : Prop :=
  (∀ (s : State) (w : CmdWord), s.err = none →
    (w.extractLsb' 4 28 ≠ 0 ∨ (w.extractLsb' 0 3).toNat ∈ [0, 6, 7]) →
    hostWrite 0x000 (w.setWidth 64) s =
      .next { s with err := some .illCmd, ecmd := w, answers := code (.error .illCmd) :: s.answers }) ∧
  ∀ w : CmdWord, (w.extractLsb' 4 28 ≠ 0 ∨ (w.extractLsb' 0 3).toNat ∈ [0, 6, 7]) ↔ ∀ i, w ≠ encode i

/-! ### The step, reset and the invariants -/

/-- A write of a command's word to `CMD` performs that command (R26, R75); the engine performs what the host writes and
never fetches (R33), and survives idleness (R160). That the host's transactions are the list `pending`, of which a step
takes the first, is the model's choice (log entry 2); that `withFetchWord`, the write of a zero-extended word put before
that list, stands for a fetch, and that a step with nothing on the list is idle, is the model's reading of those rules
(DEDUCED, log entry 3). -/
def Obligations.StepRunsTheDecodedCommand : Prop :=
  (∀ (s : State) (d : Data) (rest : List HostEvent) (i : Instr), s.pending = .write 0x000 d :: rest →
    d.extractLsb' 32 32 = 0 → decode (d.extractLsb' 0 32) = .ok i →
    step s = exec i { s with pending := rest }) ∧
  (∀ s : State, s.pending = [] → step s = .next s) ∧
  ∀ (s : State) (nbits w : Nat) (i : Instr), decodeTableWord nbits w = some i →
    step (s.withFetchWord nbits w) = exec i s

/-- Every transaction is answered (R176): the step takes one event off the host's list and answers it once. That the
events are a list whose rest stays is the model's choice (log entry 2); that a hard reset is one event between two
transactions, with no answer, is the model's reading of R161 (DEDUCED, log entry 6). -/
def Obligations.EveryTransactionIsAnswered : Prop :=
  ∀ (s : State) (e : HostEvent) (rest : List HostEvent), s.pending = e :: rest →
    ∃ t : State, step s = .next t ∧ t.pending = rest ∧
      (e ≠ .hardReset → ∃ a : Answer, t.answers = a :: s.answers) ∧
      (e = .hardReset → t.answers = s.answers)

/-- R36, R161 and R162: a hard reset, and a soft reset whether or not the engine is locked, put the engine into the
state `State.reset`, the soft reset answering `OK`; in it every cell is empty, `BSIZE` is 8, `RLEN`, `ERR` and `ECMD` are
0, and `STATUS` reads 0x2000. That the host's list and the answers stay at a reset is the model's choice (log entry 2). -/
def Obligations.ResetValues : Prop :=
  (∀ s : State,
    perform .hardReset s = .next { State.reset with pending := s.pending, answers := s.answers } ∧
    ∀ d : Data, d.extractLsb' 2 62 = 0 → d.getLsbD 0 = true →
      hostWrite 0x002 d s =
        .next { State.reset with pending := s.pending, answers := code .ok :: s.answers }) ∧
  (∀ (b : BufId) (k : Nat), (State.reset.buffer b).get k = none) ∧ State.reset.bsize = 8 ∧
    State.reset.rlen = 0 ∧ State.reset.err = none ∧ State.reset.ecmd = 0 ∧
    hostRead 0x001 State.reset =
      { State.reset with answers := { code := .ok, data := some 0x2000 } :: State.reset.answers }

/-- The invariants hold after reset (R36, R37). -/
def Obligations.ResetSatisfiesTheInvariants : Prop := EngineInv State.reset

/-- R37: every step keeps the invariants, from every state that meets them.
The spec marks the rule as an inference of its own (derived). -/
def Obligations.StepKeepsTheInvariants : Prop :=
  ∀ s t : State, EngineInv s → step s = .next t → EngineInv t

/-- R37 and R23: whatever the host does after a reset, every state reached meets the invariants; `ERR` reads 0 to 4,
and every cell of a matrix buffer at or beyond N² is empty.
The spec marks the rule as an inference of its own (derived). -/
def Obligations.ReachableStatesMeetTheInvariants : Prop :=
  ∀ (events : List HostEvent) (steps : Nat) (t : State),
    Host.Core.run Sys2Proof.core steps { State.reset with pending := events } = .next t →
    EngineInv t ∧ (errField t).toNat ≤ 4 ∧
      ∀ b : BufId, b.stream = false → ∀ k, t.n * t.n ≤ k → (t.buffer b).get k = none

/-! ### Errors -/

/-- R147: while `ERR != 0` every command write is refused with `E_LOCKED`, legal and illegal words alike; nothing is
performed and `ERR` and `ECMD` keep their values. -/
def Obligations.LockedEngineRefusesEveryCommand : Prop :=
  ∀ s : State, s.err ≠ none →
    (∀ w : CmdWord,
      hostWrite 0x000 (w.setWidth 64) s = .next { s with answers := code .locked :: s.answers }) ∧
    ∀ i : Instr, exec i s = .next { s with answers := code .locked :: s.answers }

/-- R145: when a command write changes `ERR`, it was 0 before, the error and the word are latched, the response is the
error, nothing else changes, and `STATUS.LOCK` reads 1 from then on. -/
def Obligations.ErrorEntryLatchesAndChangesNothingElse : Prop :=
  ∀ (s t : State) (w : CmdWord), hostWrite 0x000 (w.setWidth 64) s = .next t → t.err ≠ s.err →
    ∃ e : CmdError, s.err = none ∧
      t = { s with err := some e, ecmd := w, answers := code (.error e) :: s.answers } ∧
      (statusWord t).getLsbD 4 = true

/-- R149, in the order of R148: a locked engine answers every command with `E_LOCKED`; otherwise the command raises
`E_EMPTY`, `E_NUM` or `E_RLESUM` exactly as its row says, in that order, and with none of the three it completes with
`OK`; `E_ILLCMD` belongs to no command.
The spec marks the rule as an inference of its own (derived). -/
def Obligations.CommandErrorsInPriorityOrder : Prop :=
  ∀ (i : Instr) (s : State),
    (s.err ≠ none → exec i s = .next { s with answers := code .locked :: s.answers }) ∧
    (s.err = none →
    (sourceFull i s = false → Raises i s .empty) ∧
    (sourceFull i s = true → NumericFails i s → Raises i s .num) ∧
    (sourceFull i s = true → ¬ NumericFails i s → SumFails i s → Raises i s .rleSum) ∧
    (sourceFull i s = true → ¬ NumericFails i s → ¬ SumFails i s →
      ∃ t : State, exec i s = .next t ∧ t.answers = code .ok :: s.answers ∧ t.err = none))

/-- R27 and R31: `ERR` and `ECMD` are written by nothing but the error latch of a command write (together, and only
from `ERR` = 0), a write of `CTRL` and a reset. -/
def Obligations.OnlyThreeEventsWriteTheLatch : Prop :=
  ∀ (e : HostEvent) (s t : State), perform e s = .next t → ¬ (t.err = s.err ∧ t.ecmd = s.ecmd) →
    (t.err = none ∧ t.ecmd = 0 ∧ (e = .hardReset ∨ ∃ d, e = .write 0x002 d ∧ d.toNat ∈ [1, 2, 3])) ∨
    ∃ d, e = .write 0x000 d ∧ s.err = none ∧ t.err ≠ none ∧ t.ecmd.toNat = d.toNat

/-- R81: of the four commands that read reals, each with a full source extent is refused with `E_NUM` when some cell of
the extent is not finite (exponent field 0x7FF) or, for the transforms, of magnitude above 2^31, and otherwise
completes: every other cell is finite, zeros and subnormals too. -/
def Obligations.UnfitRealsRaiseNum : Prop :=
  ∀ s : State, s.err = none →
    (s.x.full s.extent = true → (HasUnfit s.x s.extent → Raises .fdct s .num) ∧
      (¬ HasUnfit s.x s.extent → Completes .fdct s)) ∧
    (s.f.full s.extent = true → (HasUnfit s.f s.extent → Raises .idct s .num) ∧
      (¬ HasUnfit s.f s.extent → Completes .idct s)) ∧
    (s.f.full s.extent = true → (HasNonFinite s.f s.extent → Raises .qnt s .num) ∧
      (¬ HasNonFinite s.f s.extent → Completes .qnt s)) ∧
    (s.x.full s.extent = true → (HasNonFinite s.x s.extent → Raises .stpx s .num) ∧
      (¬ HasNonFinite s.x s.extent → Completes .stpx s))

/-- The frame of every command (R24, R66): `BSIZE` and the host's list never change, `RLEN` only by `RLE`, every cell
of every buffer that is no destination reads as before, and so does every cell beyond the extent except for `RLE`; one
answer is given; with an answer other than `OK` no buffer and no `RLEN` changes, with `OK` neither `ERR` nor `ECMD`. -/
def Obligations.CommandsWriteOnlyTheirDestination : Prop :=
  ∀ (i : Instr) (s t : State), exec i s = .next t →
    t.bsize = s.bsize ∧ t.pending = s.pending ∧ (i ≠ .rle → t.rlen = s.rlen) ∧
    (∀ b : BufId, b ∉ destinations i → ∀ k, (t.buffer b).get k = (s.buffer b).get k) ∧
    (i ≠ .rle → ∀ (b : BufId) (k : Nat), s.extent ≤ k → (t.buffer b).get k = (s.buffer b).get k) ∧
    ∃ a : Answer, t.answers = a :: s.answers ∧ a.data = none ∧
      (a.code = .ok → t.err = s.err ∧ t.ecmd = s.ecmd) ∧
      (a.code ≠ .ok → SameCells s t ∧ t.rlen = s.rlen)

/-! ### Sample conversion -/

/-- R118: `LDPX` makes `X[k]` the real equal to the unsigned sample `P[k]`, for every k < N², and writes nothing else;
an empty source cell is `E_EMPTY`. -/
def Obligations.LdpxConvertsEverySample : Prop :=
  encode .ldpx = 0x00000001 ∧ ∀ s : State, s.err = none →
    (s.p.full s.extent = false → Raises .ldpx s .empty) ∧
    (s.p.full s.extent = true → ∃ t : State, exec .ldpx s = .next t ∧
      t = { s with x := t.x, answers := code .ok :: s.answers } ∧
      (∀ k < s.extent, ∃ v c, s.p.get k = some v ∧ t.x.get k = some c ∧ F64.finite c = true ∧
        F64.val c = v.toNat ∧ (v = 0 → c = 0)) ∧
      ∀ k, s.extent ≤ k → t.x.get k = s.x.get k)

/-- R120 and R121: `STPX` makes `P[k]` the value of `X[k]`, rounded to nearest with ties away from zero and saturated
to [0, 255], for every k < N², and writes nothing else; `E_EMPTY`, then `E_NUM` for a cell that is not finite. -/
def Obligations.StpxRoundsAndSaturates : Prop :=
  encode .stpx = 0x00000009 ∧ ∀ s : State, s.err = none →
    (s.x.full s.extent = false → Raises .stpx s .empty) ∧
    (s.x.full s.extent = true → HasNonFinite s.x s.extent → Raises .stpx s .num) ∧
    (s.x.full s.extent = true → ¬ HasNonFinite s.x s.extent → ∃ t : State, exec .stpx s = .next t ∧
      t = { s with p := t.p, answers := code .ok :: s.answers } ∧
      (∀ k < s.extent, ∃ c v, s.x.get k = some c ∧ t.p.get k = some v ∧
        (v.toNat : Int) = sat (rhaz (F64.val c)) 0 255) ∧
      ∀ k, s.extent ≤ k → t.p.get k = s.p.get k)

/-- R123: `LDPX` followed by `STPX` leaves `P` as it was, for every content of `P`; `STPX` followed by `LDPX` replaces
every `X` cell by the nearest sample value.
The spec marks the rule as an inference of its own (derived). -/
def Obligations.SamplesSurviveLdpxThenStpx : Prop :=
  (∀ s : State, s.err = none → s.p.full s.extent = true → ∃ t u : State,
    exec .ldpx s = .next t ∧ exec .stpx t = .next u ∧
    u.answers = code .ok :: code .ok :: s.answers ∧ ∀ k, u.p.get k = s.p.get k) ∧
  ∀ s : State, s.err = none → s.x.full s.extent = true → ¬ HasNonFinite s.x s.extent → ∃ t u : State,
    exec .stpx s = .next t ∧ exec .ldpx t = .next u ∧
    u.answers = code .ok :: code .ok :: s.answers ∧
    ∀ k < s.extent, ∃ c d, s.x.get k = some c ∧ u.x.get k = some d ∧
      F64.val d = sat (rhaz (F64.val c)) 0 255

/-! ### Rounding, quantizer -/

/-- R92: `rhaz` gives the nearest integer, and an exact tie goes away from zero. -/
def Obligations.RoundingIsNearestTiesAway : Prop :=
  (∀ r : ℚ, |(rhaz r : ℚ) - r| ≤ 1 / 2) ∧
  (∀ r : ℚ, |(rhaz r : ℚ) - r| = 1 / 2 → |r| < |(rhaz r : ℚ)|) ∧
  rhaz (5 / 2) = 3 ∧ rhaz (-5 / 2) = -3 ∧ rhaz (1 / 2) = 1 ∧ rhaz (-1 / 2) = -1 ∧ rhaz (49999 / 100000) = 0

/-- R91, R93 and R94: `QNT` rounds the value of every `F[k]`, k < N², and pins it into [-32768, 32767] for cell 0 and
into [-128, 127] for every other cell; it writes nothing else; `E_EMPTY`, then `E_NUM` for a cell that is not finite. -/
def Obligations.QntRoundsThenPins : Prop :=
  encode .qnt = 0x00000003 ∧ ∀ s : State, s.err = none →
    (s.f.full s.extent = false → Raises .qnt s .empty) ∧
    (s.f.full s.extent = true → HasNonFinite s.f s.extent → Raises .qnt s .num) ∧
    (s.f.full s.extent = true → ¬ HasNonFinite s.f s.extent → ∃ t : State, exec .qnt s = .next t ∧
      t = { s with q := t.q, answers := code .ok :: s.answers } ∧
      (∀ k < s.extent, ∃ c v, s.f.get k = some c ∧ t.q.get k = some v ∧
        v.toInt = (if k = 0 then sat (rhaz (F64.val c)) (-32768) 32767 else sat (rhaz (F64.val c)) (-128) 127)) ∧
      ∀ k, s.extent ≤ k → t.q.get k = s.q.get k)

/-- R96: `DQT` makes `F[k]` the real equal to the integer `Q[k]`, +0.0 for 0, for every k < N² and every 16-bit value,
and writes nothing else; an empty source cell is `E_EMPTY`. -/
def Obligations.DqtConvertsEveryInteger : Prop :=
  encode .dqt = 0x0000000B ∧ ∀ s : State, s.err = none →
    (s.q.full s.extent = false → Raises .dqt s .empty) ∧
    (s.q.full s.extent = true → ∃ t : State, exec .dqt s = .next t ∧
      t = { s with f := t.f, answers := code .ok :: s.answers } ∧
      (∀ k < s.extent, ∃ v c, s.q.get k = some v ∧ t.f.get k = some c ∧ F64.finite c = true ∧
        F64.val c = v.toInt ∧ (v = 0 → c = 0)) ∧
      ∀ k, s.extent ≤ k → t.f.get k = s.f.get k)

/-- R97: after `QNT; DQT` every coefficient is its rounded and pinned value, so within 1/2 of what it was when the
rounded value lies inside the bounds and at the bound otherwise; `DQT; QNT` leaves `Q` as it was exactly when every
cell but cell 0 lies in [-128, 127].
The spec marks the rule as an inference of its own (derived). -/
def Obligations.QuantizerRoundTrips : Prop :=
  (∀ s : State, s.err = none → s.f.full s.extent = true → ¬ HasNonFinite s.f s.extent → ∃ t u : State,
    exec .qnt s = .next t ∧ exec .dqt t = .next u ∧ u.answers = code .ok :: code .ok :: s.answers ∧
    ∀ k < s.extent, ∃ c d lo hi, s.f.get k = some c ∧ u.f.get k = some d ∧
      lo = (if k = 0 then (-32768 : Int) else -128) ∧ hi = (if k = 0 then (32767 : Int) else 127) ∧
      F64.val d = sat (rhaz (F64.val c)) lo hi ∧
      (lo ≤ rhaz (F64.val c) → rhaz (F64.val c) ≤ hi → |F64.val d - F64.val c| ≤ 1 / 2) ∧
      (rhaz (F64.val c) < lo → F64.val d = lo) ∧ (hi < rhaz (F64.val c) → F64.val d = hi)) ∧
  ∀ s : State, s.err = none → s.q.full s.extent = true → ∃ t u : State,
    exec .dqt s = .next t ∧ exec .qnt t = .next u ∧ u.answers = code .ok :: code .ok :: s.answers ∧
    ((∀ k, u.q.get k = s.q.get k) ↔
      ∀ k v, 0 < k → k < s.extent → s.q.get k = some v → -128 ≤ v.toInt ∧ v.toInt ≤ 127)

/-! ### Transform -/

/-- R77, R78 and R80: `FDCT` writes to every `F[idx(u,v)]`, u, v < N, the result of the open function `fdct_N` of the
N² source cells, which is finite and within `DCT_TOL * max(1, M)` of the exact `F*(u,v)`; it writes nothing else;
`E_EMPTY`, then `E_NUM`. -/
def Obligations.FdctApproximatesTheForwardTransform : Prop :=
  encode .fdct = 0x00000002 ∧ ∀ s : State, s.err = none → 1 ≤ s.n → s.n ≤ 16 →
    (s.x.full s.extent = false → Raises .fdct s .empty) ∧
    (s.x.full s.extent = true → HasUnfit s.x s.extent → Raises .fdct s .num) ∧
    (∀ cells, s.x.cells s.extent = some cells → ¬ HasUnfit s.x s.extent → ∃ t : State, exec .fdct s = .next t ∧
      t = { s with f := t.f, answers := code .ok :: s.answers } ∧
      (∀ u < s.n, ∀ v < s.n, ∃ g, t.f.get (idx s.n u v) = some g ∧
        g = Config.dct.fdct s.n cells (idx s.n u v) ∧ F64.finite g = true ∧
        |(F64.val g : ℝ) - forwardExact s.n (matrixOf s.n cells) u v| ≤
          ((Config.dct.tol * max 1 (largest cells) : ℚ) : ℝ)) ∧
      ∀ k, s.extent ≤ k → t.f.get k = s.f.get k)

/-- R84, R85 and R87: `IDCT` writes to every `X[idx(x,y)]`, x, y < N, the result of the open function `idct_N` of the
N² source cells, finite and within `DCT_TOL * max(1, M)` of the exact `f*(x,y)`, neither rounded nor clamped; it
writes nothing else; `E_EMPTY`, then `E_NUM`. -/
def Obligations.IdctApproximatesTheInverseTransform : Prop :=
  encode .idct = 0x0000000A ∧ ∀ s : State, s.err = none → 1 ≤ s.n → s.n ≤ 16 →
    (s.f.full s.extent = false → Raises .idct s .empty) ∧
    (s.f.full s.extent = true → HasUnfit s.f s.extent → Raises .idct s .num) ∧
    (∀ cells, s.f.cells s.extent = some cells → ¬ HasUnfit s.f s.extent → ∃ t : State, exec .idct s = .next t ∧
      t = { s with x := t.x, answers := code .ok :: s.answers } ∧
      (∀ x < s.n, ∀ y < s.n, ∃ g, t.x.get (idx s.n x y) = some g ∧
        g = Config.dct.idct s.n cells (idx s.n x y) ∧ F64.finite g = true ∧
        |(F64.val g : ℝ) - inverseExact s.n (matrixOf s.n cells) x y| ≤
          ((Config.dct.tol * max 1 (largest cells) : ℚ) : ℝ)) ∧
      ∀ k, s.extent ≤ k → t.x.get k = s.x.get k)

/-- R82: the exact forward transform for N = 1 and N = 2, of a constant block of any size, and its linearity.
The spec marks the rule as an inference of its own (derived). -/
def Obligations.ForwardTransformExactValues : Prop :=
  (∀ s : Nat → Nat → ℝ, forwardExact 1 s 0 0 = s 0 0) ∧
  (∀ s : Nat → Nat → ℝ,
    forwardExact 2 s 0 0 = (s 0 0 + s 1 0 + s 0 1 + s 1 1) / 2 ∧
    forwardExact 2 s 1 0 = (s 0 0 - s 1 0 + s 0 1 - s 1 1) / 2 ∧
    forwardExact 2 s 0 1 = (s 0 0 + s 1 0 - s 0 1 - s 1 1) / 2 ∧
    forwardExact 2 s 1 1 = (s 0 0 - s 1 0 - s 0 1 + s 1 1) / 2) ∧
  (∀ (n : Nat) (k : ℝ), 1 ≤ n → forwardExact n (fun _ _ => k) 0 0 = n * k ∧
    ∀ u < n, ∀ v < n, (u, v) ≠ (0, 0) → forwardExact n (fun _ _ => k) u v = 0) ∧
  ∀ (n : Nat) (s t : Nat → Nat → ℝ) (α β : ℝ) (u v : Nat),
    forwardExact n (fun x y => α * s x y + β * t x y) u v = α * forwardExact n s u v + β * forwardExact n t u v

/-- R89: the exact inverse transform for N = 1 and N = 2, and of a matrix whose only non-zero entry is (0,0).
The spec marks the rule as an inference of its own (derived). -/
def Obligations.InverseTransformExactValues : Prop :=
  (∀ c : Nat → Nat → ℝ, inverseExact 1 c 0 0 = c 0 0) ∧
  (∀ c : Nat → Nat → ℝ,
    inverseExact 2 c 0 0 = (c 0 0 + c 1 0 + c 0 1 + c 1 1) / 2 ∧
    inverseExact 2 c 1 0 = (c 0 0 - c 1 0 + c 0 1 - c 1 1) / 2 ∧
    inverseExact 2 c 0 1 = (c 0 0 + c 1 0 - c 0 1 - c 1 1) / 2 ∧
    inverseExact 2 c 1 1 = (c 0 0 - c 1 0 - c 0 1 + c 1 1) / 2) ∧
  ∀ (n : Nat) (d : ℝ) (x y : Nat), 1 ≤ n →
    inverseExact n (fun u v => if u = 0 ∧ v = 0 then d else 0) x y = d / n

/-- R86: over the reals the pair is an exact inverse pair, for every N, and the forward transform preserves the sum of
squares.
The spec marks the energy identity as general knowledge of its own, not the source's. -/
def Obligations.TransformsAreExactInverses : Prop :=
  ∀ (n : Nat) (s : Nat → Nat → ℝ), 1 ≤ n →
    (∀ x < n, ∀ y < n, inverseExact n (forwardExact n s) x y = s x y) ∧
    (∀ u < n, ∀ v < n, forwardExact n (inverseExact n s) u v = s u v) ∧
    ∑ u ∈ Finset.range n, ∑ v ∈ Finset.range n, forwardExact n s u v ^ 2 =
      ∑ x ∈ Finset.range n, ∑ y ∈ Finset.range n, s x y ^ 2

/-- R88: for every transform unit, with every `|val(X[k])| <= M` and 2N·M + 1 <= 2^31, `FDCT` then `IDCT` bring every
cell back within `2N·T·max(1,M) + T·max(1, 2N·M + T·max(1,M))` when both respond `OK`, and both do when
`T·max(1,M) <= 1`.
The spec marks the rule as an inference of its own (derived). -/
def Obligations.TransformRoundTripBound : Prop :=
  ∀ (unit : Dct) (s : State) (cells : List F64) (m : ℚ), s.err = none → 1 ≤ s.n → s.n ≤ 16 →
    s.x.cells s.extent = some cells → (∀ c ∈ cells, F64.finite c = true ∧ |F64.val c| ≤ m) →
    2 * s.n * m + 1 ≤ 2 ^ 31 →
    (∀ t u : State, fdctWith unit s = .next t → idctWith unit t = .next u →
      u.answers = code .ok :: code .ok :: s.answers →
      ∀ k < s.extent, ∃ c d, s.x.get k = some c ∧ u.x.get k = some d ∧
        |F64.val d - F64.val c| ≤ 2 * s.n * unit.tol * max 1 m +
          unit.tol * max 1 (2 * s.n * m + unit.tol * max 1 m)) ∧
    (unit.tol * max 1 m ≤ 1 → ∃ t u : State, fdctWith unit s = .next t ∧ idctWith unit t = .next u ∧
      u.answers = code .ok :: code .ok :: s.answers)

/-- R138: the bound on a reconstructed tile in which no entry saturates, over the exact transforms. When every
coefficient is off by at most 1/2 (which R97 gives where `QNT` saturates nothing; R138 gives no bound otherwise), the reconstructed block has mean squared error at most 1/4 and is off
by at most N/2 at any sample, and the 8-bit sample that `STPX` makes of it by at most N/2 + 1/2.
The spec marks the rule as an inference of its own (derived), with the transform tolerances neglected. -/
def Obligations.ReconstructionErrorBound : Prop :=
  ∀ (n : Nat) (s c : Nat → Nat → ℝ), 1 ≤ n → (∀ u < n, ∀ v < n, |c u v - forwardExact n s u v| ≤ 1 / 2) →
    ∑ x ∈ Finset.range n, ∑ y ∈ Finset.range n, (inverseExact n c x y - s x y) ^ 2 ≤ (n : ℝ) ^ 2 * (1 / 4) ∧
    ∀ x < n, ∀ y < n, |inverseExact n c x y - s x y| ≤ n / 2 ∧
      ∀ (p : BitVec 8) (g : F64), s x y = p.toNat → (F64.val g : ℝ) = inverseExact n c x y →
        |((realToSample g).toNat : ℝ) - p.toNat| ≤ n / 2 + 1 / 2

/-! ### Zigzag scanner -/

/-- R102: the scan order as linear cell indices for n = 1, 2, 3, 4, 5, 8 and 16, and the inverse table for n = 8.
The spec marks the rule as an inference of its own (derived). -/
def Obligations.ScanOrderTables : Prop :=
  zidx 1 = [0] ∧ zidx 2 = [0, 1, 2, 3] ∧ zidx 3 = [0, 1, 3, 6, 4, 2, 5, 7, 8] ∧
  zidx 4 = [0, 1, 4, 8, 5, 2, 3, 6, 9, 12, 13, 10, 7, 11, 14, 15] ∧
  zidx 5 = [0, 1, 5, 10, 6, 2, 3, 7, 11, 15, 20, 16, 12, 8, 4, 9, 13, 17, 21, 22, 18, 14, 19, 23, 24] ∧
  zidx 8 = [0, 1, 8, 16, 9, 2, 3, 10, 17, 24, 32, 25, 18, 11, 4, 5] ++
    [12, 19, 26, 33, 40, 48, 41, 34, 27, 20, 13, 6, 7, 14, 21, 28] ++
    [35, 42, 49, 56, 57, 50, 43, 36, 29, 22, 15, 23, 30, 37, 44, 51] ++
    [58, 59, 52, 45, 38, 31, 39, 46, 53, 60, 61, 54, 47, 55, 62, 63] ∧
  zidx 16 = [0, 1, 16, 32, 17, 2, 3, 18, 33, 48, 64, 49, 34, 19, 4, 5] ++
    [20, 35, 50, 65, 80, 96, 81, 66, 51, 36, 21, 6, 7, 22, 37, 52] ++
    [67, 82, 97, 112, 128, 113, 98, 83, 68, 53, 38, 23, 8, 9, 24, 39] ++
    [54, 69, 84, 99, 114, 129, 144, 160, 145, 130, 115, 100, 85, 70, 55, 40] ++
    [25, 10, 11, 26, 41, 56, 71, 86, 101, 116, 131, 146, 161, 176, 192, 177] ++
    [162, 147, 132, 117, 102, 87, 72, 57, 42, 27, 12, 13, 28, 43, 58, 73] ++
    [88, 103, 118, 133, 148, 163, 178, 193, 208, 224, 209, 194, 179, 164, 149, 134] ++
    [119, 104, 89, 74, 59, 44, 29, 14, 15, 30, 45, 60, 75, 90, 105, 120] ++
    [135, 150, 165, 180, 195, 210, 225, 240, 241, 226, 211, 196, 181, 166, 151, 136] ++
    [121, 106, 91, 76, 61, 46, 31, 47, 62, 77, 92, 107, 122, 137, 152, 167] ++
    [182, 197, 212, 227, 242, 243, 228, 213, 198, 183, 168, 153, 138, 123, 108, 93] ++
    [78, 63, 79, 94, 109, 124, 139, 154, 169, 184, 199, 214, 229, 244, 245, 230] ++
    [215, 200, 185, 170, 155, 140, 125, 110, 95, 111, 126, 141, 156, 171, 186, 201] ++
    [216, 231, 246, 247, 232, 217, 202, 187, 172, 157, 142, 127, 143, 158, 173, 188] ++
    [203, 218, 233, 248, 249, 234, 219, 204, 189, 174, 159, 175, 190, 205, 220, 235] ++
    [250, 251, 236, 221, 206, 191, 207, 222, 237, 252, 253, 238, 223, 239, 254, 255] ∧
  (List.range 64).map (fun j => (zidx 8).idxOf j) = [0, 1, 5, 6, 14, 15, 27, 28] ++
    [2, 4, 7, 13, 16, 26, 29, 42] ++
    [3, 8, 12, 17, 25, 30, 41, 43] ++
    [9, 11, 18, 24, 31, 40, 44, 53] ++
    [10, 19, 23, 32, 39, 45, 52, 54] ++
    [20, 22, 33, 38, 46, 51, 55, 60] ++
    [21, 34, 37, 47, 50, 56, 59, 61] ++
    [35, 36, 48, 49, 57, 58, 62, 63]

/-- R103, for every n >= 1: (a) the scan visits each of the n² positions exactly once; (b) `u + v` never falls along
it; (c) it starts at cell 0 and ends at cell n²-1; (d) consecutive positions are neighbours along a diagonal, or in u
or in v at a turn.
The spec marks the rule as an inference of its own (derived). -/
def Obligations.ScanOrderProperties : Prop :=
  ∀ n : Nat, 1 ≤ n →
    ((scanOrder n).length = n * n ∧ (scanOrder n).Nodup ∧ (∀ c, c ∈ scanOrder n ↔ c.1 < n ∧ c.2 < n) ∧
      (zidx n).Nodup ∧ ∀ j, j ∈ zidx n ↔ j < n * n) ∧
    (scanOrder n).Pairwise (fun c d => c.1 + c.2 ≤ d.1 + d.2) ∧
    ((zidx n).head? = some 0 ∧ (zidx n).getLast? = some (n * n - 1)) ∧
    List.IsChain (fun c d => (d.1 = c.1 + 1 ∧ d.2 + 1 = c.2) ∨ (d.1 + 1 = c.1 ∧ d.2 = c.2 + 1) ∨
      (d.1 = c.1 + 1 ∧ d.2 = c.2) ∨ (d.1 = c.1 ∧ d.2 = c.2 + 1)) (scanOrder n)

/-- R99: `ZZF` makes `Z[k]` the value of `Q[ZIDX_N[k]]`, for every k < N², and writes nothing else; an empty source
cell is `E_EMPTY`. -/
def Obligations.ZzfReadsInScanOrder : Prop :=
  encode .zzf = 0x00000004 ∧ ∀ s : State, s.err = none →
    (s.q.full s.extent = false → Raises .zzf s .empty) ∧
    (s.q.full s.extent = true → ∃ t : State, exec .zzf s = .next t ∧
      t = { s with z := t.z, answers := code .ok :: s.answers } ∧
      (∀ k < s.extent, ∃ j v, (zidx s.n)[k]? = some j ∧ s.q.get j = some v ∧ t.z.get k = some v) ∧
      ∀ k, s.extent ≤ k → t.z.get k = s.z.get k)

/-- R104: `ZZU` makes `Q[ZIDX_N[k]]` the value of `Z[k]`, for every k < N², so that every cell of `Q` below N² is
written, and writes nothing else; an empty source cell is `E_EMPTY`. -/
def Obligations.ZzuWritesInScanOrder : Prop :=
  encode .zzu = 0x0000000C ∧ ∀ s : State, s.err = none →
    (s.z.full s.extent = false → Raises .zzu s .empty) ∧
    (s.z.full s.extent = true → ∃ t : State, exec .zzu s = .next t ∧
      t = { s with q := t.q, answers := code .ok :: s.answers } ∧
      (∀ k < s.extent, ∃ j v, (zidx s.n)[k]? = some j ∧ s.z.get k = some v ∧ t.q.get j = some v) ∧
      (∀ j < s.extent, ∃ k < s.extent, (zidx s.n)[k]? = some j) ∧
      ∀ k, s.extent ≤ k → t.q.get k = s.q.get k)

/-- R105: `ZZF; ZZU` leave `Q` as it was, and `ZZU; ZZF` leave `Z` as it was, from every state with a full source.
The spec marks the rule as an inference of its own (derived). -/
def Obligations.ZigzagRoundTrips : Prop :=
  (∀ s : State, s.err = none → s.q.full s.extent = true → ∃ t u : State,
    exec .zzf s = .next t ∧ exec .zzu t = .next u ∧ u.answers = code .ok :: code .ok :: s.answers ∧
    ∀ k, u.q.get k = s.q.get k) ∧
  ∀ s : State, s.err = none → s.z.full s.extent = true → ∃ t u : State,
    exec .zzu s = .next t ∧ exec .zzf t = .next u ∧ u.answers = code .ok :: code .ok :: s.answers ∧
    ∀ k, u.z.get k = s.z.get k

/-! ### Run-length coder -/

/-- R110, for every sequence of length at least 1: every count is at least 1 and at most the length, the counts sum to
the length, neighbours differ, there are between 1 and as many pairs as elements, and the pairs spell the sequence.
The spec marks the rule as an inference of its own (derived). -/
def Obligations.RleEncodeProperties : Prop :=
  ∀ sequence : List Int, 1 ≤ sequence.length →
    (∀ c ∈ rleEncode sequence, 1 ≤ c.2 ∧ c.2 ≤ sequence.length) ∧
    countSum (rleEncode sequence) = sequence.length ∧
    List.IsChain (fun c d => c.1 ≠ d.1) (rleEncode sequence) ∧
    1 ≤ (rleEncode sequence).length ∧ (rleEncode sequence).length ≤ sequence.length ∧
    rleDecode (rleEncode sequence) = sequence

/-- R117: the empty sequence encodes to the empty stream and back, and a single element to the one pair (S[0], 1). -/
def Obligations.RleOfEmptyAndSingle : Prop :=
  rleEncode ([] : List Int) = [] ∧ rleDecode ([] : List (Int × Nat)) = [] ∧
    ∀ v : Int, rleEncode [v] = [(v, 1)]

/-- R108 and R111: `RLE` writes the run-length code of `Z[0..N²-1]`: its length to `RLEN`, pair j to `RV[j]` and
`RC[j]`, every pair beyond it empty; nothing else is written; an empty source cell is `E_EMPTY`. -/
def Obligations.RleWritesTheStream : Prop :=
  encode .rle = 0x00000005 ∧ ∀ s : State, s.err = none → 1 ≤ s.n → s.n ≤ 16 →
    (s.z.full s.extent = false → Raises .rle s .empty) ∧
    (∀ sequence, s.z.cells s.extent = some sequence → ∃ t : State, exec .rle s = .next t ∧
      t = { s with rv := t.rv, rc := t.rc, rlen := t.rlen, answers := code .ok :: s.answers } ∧
      t.rlen.toNat = (rleEncode sequence).length ∧ 1 ≤ t.rlen.toNat ∧ t.rlen.toNat ≤ s.extent ∧
      (∀ j v c, (rleEncode sequence)[j]? = some (v, c) →
        t.rv.get j = some v ∧ ∃ count, t.rc.get j = some count ∧ count.toNat = c) ∧
      ∀ j, t.rlen.toNat ≤ j → t.rv.get j = none ∧ t.rc.get j = none)

/-- R112, R113 and R114: `RLD` raises `E_EMPTY` for an empty pair below `RLEN`, then `E_RLESUM` when the counts,
summed without wrapping, are not N²; otherwise `Z[0..N²-1]` becomes each value repeated its count of times, in order;
nothing else is written. -/
def Obligations.RldReplaysTheStream : Prop :=
  encode .rld = 0x0000000D ∧ ∀ s : State, s.err = none →
    ((s.rv.full s.rlen.toNat = false ∨ s.rc.full s.rlen.toNat = false) → Raises .rld s .empty) ∧
    (∀ values counts, s.rv.cells s.rlen.toNat = some values → s.rc.cells s.rlen.toNat = some counts →
      ((counts.map BitVec.toNat).sum ≠ s.n * s.n → Raises .rld s .rleSum) ∧
      ((counts.map BitVec.toNat).sum = s.n * s.n → ∃ t : State, exec .rld s = .next t ∧
        t = { s with z := t.z, answers := code .ok :: s.answers } ∧
        t.z.cells s.extent =
          some ((values.zip counts).flatMap fun c => List.replicate c.2.toNat c.1) ∧
        ∀ k, s.extent ≤ k → t.z.get k = s.z.get k))

/-- R116: decoding undoes encoding for every sequence; encoding undoes decoding exactly for canonical streams; in the
engine `RLE; RLD` both respond `OK` and leave `Z` as it was, and `RLD; RLE` reproduce the pairs and `RLEN` exactly when
the stream was canonical.
The spec marks the rule as an inference of its own (derived). -/
def Obligations.RunLengthCodeIsLossless : Prop :=
  (∀ sequence : List Int, rleDecode (rleEncode sequence) = sequence ∧
    countSum (rleEncode sequence) = sequence.length) ∧
  (∀ pairs : List (Int × Nat), rleEncode (rleDecode pairs) = pairs ↔ Canonical pairs) ∧
  (∀ s : State, s.err = none → 1 ≤ s.n → s.n ≤ 16 → s.z.full s.extent = true → ∃ t u : State,
    exec .rle s = .next t ∧ exec .rld t = .next u ∧ u.answers = code .ok :: code .ok :: s.answers ∧
    ∀ k, u.z.get k = s.z.get k) ∧
  ∀ (s : State) (values counts : List (BitVec 16)), s.err = none → 1 ≤ s.n → s.n ≤ 16 →
    s.rv.cells s.rlen.toNat = some values → s.rc.cells s.rlen.toNat = some counts →
    (counts.map BitVec.toNat).sum = s.n * s.n → ∃ t u : State,
    exec .rld s = .next t ∧ exec .rle t = .next u ∧ u.answers = code .ok :: code .ok :: s.answers ∧
    ((u.rlen = s.rlen ∧ ∀ j < s.rlen.toNat, u.rv.get j = s.rv.get j ∧ u.rc.get j = s.rc.get j) ↔
      Canonical (values.zip (counts.map BitVec.toNat)))

/-! ### The host port -/

/-- R47: word addresses 0x006 to 0x0FF and 0x800 to 0xFFF, and the cells of the five matrix buffers at or beyond N²,
answer `A_UNMAPPED` to a read and to a write; the engine is unchanged. With N = 16 every k is inside the extent. -/
def Obligations.UnmappedAccessesAnswerUnmapped : Prop :=
  (∀ (a : Addr) (d : Data) (s : State), (6 ≤ a.toNat ∧ a.toNat ≤ 0xFF) ∨ 0x800 ≤ a.toNat →
    hostRead a s = { s with answers := code .unmapped :: s.answers } ∧
    hostWrite a d s = .next { s with answers := code .unmapped :: s.answers }) ∧
  (∀ (b : BufId) (k : BitVec 8) (d : Data) (s : State), b.stream = false → s.n * s.n ≤ k.toNat →
    hostRead (b.address k) s = { s with answers := code .unmapped :: s.answers } ∧
    hostWrite (b.address k) d s = .next { s with answers := code .unmapped :: s.answers }) ∧
  ∀ (k : BitVec 8) (s : State), s.n = 16 → k.toNat < s.n * s.n

/-- R48: a read of `CMD` or `CTRL` and a write of `STATUS` or `ECMD` answer `A_ACCESS`. -/
def Obligations.WrongDirectionAnswersAccess : Prop :=
  ∀ (d : Data) (s : State),
    hostRead 0x000 s = { s with answers := code .access :: s.answers } ∧
    hostRead 0x002 s = { s with answers := code .access :: s.answers } ∧
    hostWrite 0x001 d s = .next { s with answers := code .access :: s.answers } ∧
    hostWrite 0x005 d s = .next { s with answers := code .access :: s.answers }

/-- R49, R42 and R52: a read of a mapped cell answers `A_INVALID` with no data when the cell is empty, and otherwise
`OK` with the cell's value: zero-extended, sign-extended for `Q`, `Z` and `RV`, the pattern itself for `X` and `F`. -/
def Obligations.CellReads : Prop :=
  ∀ (b : BufId) (k : BitVec 8) (s : State), (b.stream = true ∨ k.toNat < s.n * s.n) →
    ((s.buffer b).get k.toNat = none →
      hostRead (b.address k) s = { s with answers := code .invalid :: s.answers }) ∧
    ∀ v, (s.buffer b).get k.toNat = some v →
      ∃ d : Data, hostRead (b.address k) s = { s with answers := { code := .ok, data := some d } :: s.answers } ∧
        (b.signed = true → d.toInt = v.toInt) ∧ (b.signed = false → d.toNat = v.toNat)

/-- R50 and R51: a write of a mapped cell is accepted exactly when the data is the port image of a value of the cell's
type; it then stores that value and changes no other cell, and the cell reads back the data; otherwise it answers
`A_RANGE` and changes nothing. -/
def Obligations.CellWrites : Prop :=
  ∀ (b : BufId) (k : BitVec 8) (d : Data) (s : State), (b.stream = true ∨ k.toNat < s.n * s.n) →
    ((b.signed = false ∧ 2 ^ b.width ≤ d.toNat ∨
        b.signed = true ∧ ¬ (-2 ^ 15 ≤ d.toInt ∧ d.toInt < 2 ^ 15)) →
      hostWrite (b.address k) d s = .next { s with answers := code .range :: s.answers }) ∧
    ((b.signed = false ∧ d.toNat < 2 ^ b.width ∨ b.signed = true ∧ -2 ^ 15 ≤ d.toInt ∧ d.toInt < 2 ^ 15) →
      ∃ t : State, hostWrite (b.address k) d s = .next t ∧ t.answers = code .ok :: s.answers ∧
        hostRead (b.address k) t = { t with answers := { code := .ok, data := some d } :: t.answers } ∧
        (∀ (c : BufId) (j : Nat), (c, j) ≠ (b, k.toNat) → (t.buffer c).get j = (s.buffer c).get j) ∧
        t.bsize = s.bsize ∧ t.rlen = s.rlen ∧ t.err = s.err ∧ t.ecmd = s.ecmd ∧ t.pending = s.pending)

/-- R53: a read, at every address, answers and changes nothing. -/
def Obligations.ReadsHaveNoSideEffects : Prop :=
  ∀ (a : Addr) (s : State), ∃ r : Answer, hostRead a s = { s with answers := r :: s.answers }

/-- R46: an access error and the refusal `E_LOCKED` change no state at all. -/
def Obligations.RefusedAccessesChangeNothing : Prop :=
  ∀ (e : HostEvent) (s t : State) (r : Answer), perform e s = .next t → e ≠ .hardReset →
    t.answers = r :: s.answers → r.code ∈ [.unmapped, .access, .invalid, .range, .locked] →
    r.data = none ∧ t = { s with answers := r :: s.answers }

/-- R27: every field of `STATUS` as a read of it answers. -/
def Obligations.StatusFields : Prop :=
  ∀ s : State, ∃ d : Data,
    hostRead 0x001 s = { s with answers := { code := .ok, data := some d } :: s.answers } ∧
    (d.extractLsb' 0 4).toNat =
      (match s.err with
        | none => 0
        | some .illCmd => 1
        | some .empty => 2
        | some .num => 3
        | some .rleSum => 4) ∧
    (d.getLsbD 4 = true ↔ s.err ≠ none) ∧ d.extractLsb' 5 3 = 0 ∧
    (d.getLsbD 8 = true ↔ ∀ k < s.n * s.n, s.p.get k ≠ none) ∧
    (d.getLsbD 9 = true ↔ ∀ k < s.n * s.n, s.x.get k ≠ none) ∧
    (d.getLsbD 10 = true ↔ ∀ k < s.n * s.n, s.f.get k ≠ none) ∧
    (d.getLsbD 11 = true ↔ ∀ k < s.n * s.n, s.q.get k ≠ none) ∧
    (d.getLsbD 12 = true ↔ ∀ k < s.n * s.n, s.z.get k ≠ none) ∧
    (d.getLsbD 13 = true ↔ ∀ k < s.rlen.toNat, s.rv.get k ≠ none ∧ s.rc.get k ≠ none) ∧
    d.extractLsb' 14 50 = 0

/-- R28 and R150: a write of `CTRL` with a bit of [63:2] set is refused with `A_RANGE`; 0 does nothing and answers
`OK`; bit 1 alone zeroes `ERR` and `ECMD` and changes nothing else, error or no error; bit 0, with or without bit 1,
performs the soft reset; a read is refused with `A_ACCESS`. That a reset keeps
the host's list and the earlier answers is the model's choice (log entry 2). -/
def Obligations.CtrlWrites : Prop :=
  ∀ (s : State) (d : Data),
    hostRead 0x002 s = { s with answers := code .access :: s.answers } ∧
    (d.extractLsb' 2 62 ≠ 0 → hostWrite 0x002 d s = .next { s with answers := code .range :: s.answers }) ∧
    (d = 0 → hostWrite 0x002 d s = .next { s with answers := code .ok :: s.answers }) ∧
    (d = 1 ∨ d = 3 → hostWrite 0x002 d s =
      .next { State.reset with pending := s.pending, answers := code .ok :: s.answers }) ∧
    (d = 2 → hostWrite 0x002 d s =
      .next { s with err := none, ecmd := 0, answers := code .ok :: s.answers })

/-- R29: a write of `BSIZE` with 1 to 16 sets N, empties every buffer, zeroes `RLEN` and leaves `ERR` and `ECMD`, even
when it writes the old value; any other value is refused with `A_RANGE`; a read gives N zero-extended. -/
def Obligations.BsizeAccess : Prop :=
  ∀ s : State,
    (∀ d : Data, 1 ≤ d.toNat → d.toNat ≤ 16 → ∃ t : State, hostWrite 0x003 d s = .next t ∧ t.n = d.toNat ∧
      (∀ (b : BufId) (k : Nat), (t.buffer b).get k = none) ∧ t.rlen = 0 ∧ t.err = s.err ∧ t.ecmd = s.ecmd ∧
      t.pending = s.pending ∧ t.answers = code .ok :: s.answers) ∧
    (∀ d : Data, d.toNat = 0 ∨ 16 < d.toNat →
      hostWrite 0x003 d s = .next { s with answers := code .range :: s.answers }) ∧
    ∃ v : Data, v.toNat = s.n ∧
      hostRead 0x003 s = { s with answers := { code := .ok, data := some v } :: s.answers }

/-- R30: a write of `RLEN` with 0 to 256 stores it and changes no cell; a value above 256 is refused with `A_RANGE`; a
read gives it zero-extended. -/
def Obligations.RlenAccess : Prop :=
  ∀ s : State,
    (∀ d : Data, d.toNat ≤ 256 → ∃ t : State, hostWrite 0x004 d s = .next t ∧ t.rlen.toNat = d.toNat ∧
      t = { s with rlen := t.rlen, answers := code .ok :: s.answers }) ∧
    (∀ d : Data, 256 < d.toNat → hostWrite 0x004 d s = .next { s with answers := code .range :: s.answers }) ∧
    ∃ v : Data, v.toNat = s.rlen.toNat ∧
      hostRead 0x004 s = { s with answers := { code := .ok, data := some v } :: s.answers }

/-- R50, R31 and R148: write data of `CMD` with a bit above 31 set is refused with `A_RANGE`, locked or not, and is not
decoded; a read of `ECMD` gives the latched word. -/
def Obligations.WideCommandDataIsRefused : Prop :=
  ∀ (s : State) (d : Data),
    (d.extractLsb' 32 32 ≠ 0 → hostWrite 0x000 d s = .next { s with answers := code .range :: s.answers }) ∧
    ∃ v : Data, v.toNat = s.ecmd.toNat ∧
      hostRead 0x005 s = { s with answers := { code := .ok, data := some v } :: s.answers }

/-- R61: the latch reaches no other access: a read of any address but `STATUS` and `ECMD` gives the same answer locked
and unlocked, and a write of any address but `CMD` and `CTRL` does the same to the engine and leaves the latch. -/
def Obligations.LockReachesOnlyCommandWrites : Prop :=
  (∀ (a : Addr) (s : State) (e : CmdError) (w : CmdWord), a ≠ 0x001 → a ≠ 0x005 →
    hostRead a { s with err := some e, ecmd := w } = { hostRead a s with err := some e, ecmd := w }) ∧
  ∀ (a : Addr) (d : Data) (s : State) (e : CmdError) (w : CmdWord), a ≠ 0x000 → a ≠ 0x002 →
    ∃ t : State, hostWrite a d s = .next t ∧
      hostWrite a d { s with err := some e, ecmd := w } = .next { t with err := some e, ecmd := w }

/-- R63: a command that completed and is repeated at once completes again and leaves every cell and every register as
it was. -/
def Obligations.RepeatedCommandsChangeNothing : Prop :=
  ∀ (i : Instr) (s t : State), exec i s = .next t → t.answers = code .ok :: s.answers →
    ∃ u : State, exec i t = .next u ∧ u.answers = code .ok :: t.answers ∧ SameCells t u ∧
      u.bsize = t.bsize ∧ u.rlen = t.rlen ∧ u.err = t.err ∧ u.ecmd = t.ecmd ∧ u.pending = t.pending

/-! ### The host's passes -/

/-- R125: the tiles of a raster, x outer and y inner, both ascending by N: each offset once, `(W/N)·(H/N)` of them, and
the source's example in its order. -/
def Obligations.TileOrder : Prop :=
  (∀ n w h : Nat, 1 ≤ n → n ∣ w → n ∣ h →
    (tiles n w h).length = (w / n) * (h / n) ∧
    (∀ x y, (x, y) ∈ tiles n w h ↔ n ∣ x ∧ n ∣ y ∧ x < w ∧ y < h) ∧
    (tiles n w h).Pairwise fun c d => c.1 < d.1 ∨ c.1 = d.1 ∧ c.2 < d.2) ∧
  tiles 8 16 16 = [(0, 0), (0, 8), (8, 0), (8, 8)]

/-- R127: unless 1 <= N <= 16 and N divides W and H, a pass is a configuration error and touches nothing of the
engine; the same check is made on the declared dimensions of an Encoded Image. -/
def Obligations.ShapeErrorsTouchNothing : Prop :=
  (∀ (r : Raster) (n : Int) (s : State), ¬ (1 ≤ n ∧ n ≤ 16 ∧ n ∣ r.width ∧ n ∣ r.height) →
    encodePass r n s = .failed .shape s) ∧
  ∀ (image : EncodedImage) (s : State),
    ¬ (1 ≤ image.n ∧ image.n ≤ 16 ∧ image.n ∣ image.w ∧ image.n ∣ image.h) →
    decodePass image s = .failed .shape s

/-- R126: after the writes of an extraction, each answered `OK`, `P[idx(i,j)]` holds `raster(x0 + i, y0 + j)`, and
nothing else of the engine has changed, the cells of `P` at or beyond N² among it. -/
def Obligations.ExtractionLoadsTheTile : Prop :=
  ∀ (r : Raster) (x0 y0 : Nat) (s : State), 1 ≤ s.n → s.n ≤ 16 →
    ∃ t : State, transactAll (extractTile r s.n x0 y0) s = .done [] t ∧
      (∀ i < s.n, ∀ j < s.n, t.p.get (idx s.n i j) = some (r.sample (x0 + i) (y0 + j))) ∧
      (∀ k, s.extent ≤ k → t.p.get k = s.p.get k) ∧ t = { s with p := t.p, answers := t.answers }

/-- The four tests of R134: a block whose offset is no multiple of N, or whose tile reaches beyond the right or the lower
edge of the raster, is rejected before it is loaded. That an offset left of or above the raster is rejected too, which
those tests do not say of a negative multiple of N, is the model's reading of D30 in spec/92_eei_decisions.md and of
spec/93_implementation_defined.md section 4, which reject out-of-raster offsets (DEDUCED, log entry 20). -/
def Obligations.BadOffsetsAreRejected : Prop :=
  ∀ (image : EncodedImage) (out : Raster) (block : EncodedBlock) (s : State),
    (block.x % image.n ≠ 0 ∨ block.y % image.n ≠ 0 ∨ image.w < block.x + image.n ∨ image.h < block.y + image.n ∨
      block.x < 0 ∨ block.y < 0) →
    decodeBlock image out block s = .failed .offset s

/-- R136: any response other than `OK` ends an encode pass and a decode pass: it is the last thing answered and is
reported, every response before it was `OK`, and the pass has no result; so a pass with a result had every response
`OK`. The same for any run of transactions: at the first other response it ends, and nothing after that is issued. Of
the host's own checks that `EndsAtFirstError` lists, `unwritable` is the model's choice (log entry 19). -/
def Obligations.PassesEndAtTheFirstError : Prop :=
  (∀ (before after : List HostEvent) (e : HostEvent) (s t u : State) (data : List Data) (r : Response),
    transactAll before s = .done data t → perform e t = .next u → u.answers = code r :: t.answers → r ≠ .ok →
    transactAll (before ++ e :: after) s = .failed (.response r) u) ∧
  (∀ (r : Raster) (n : Int) (s : State), EndsAtFirstError s (encodePass r n s)) ∧
  ∀ (image : EncodedImage) (s : State), EndsAtFirstError s (decodePass image s)

/-- R130, R131 and R139: with a raster that passes the shape check the encode pass succeeds from every engine state
that is not locked: no transaction fails, `ERR` reads 0, and the image is complete, one block per tile in tile order;
the counts of each block sum to N².
The spec marks the rule as an inference of its own (derived). -/
def Obligations.EncodePassAlwaysSucceeds : Prop :=
  ∀ (r : Raster) (n : Int) (s : State), s.err = none → 1 ≤ n → n ≤ 16 → n ∣ r.width → n ∣ r.height →
    ∃ (image : EncodedImage) (t : State), EncodeSucceeded r n s image t ∧
      ∀ b ∈ image.blocks, b.total = n * n ∧ Canonical b.pairs ∧
        ∀ c ∈ b.pairs, -32768 ≤ c.1 ∧ c.1 ≤ 32767 ∧ c.2 ≤ 256

/-- R132 to R136 and R139: an Encoded Image that passes the shape check, whose blocks lie inside the raster at multiples
of N, have at most 256 pairs of 16-bit values and counts, and counts that sum to N², decodes with success from every
engine state that is not locked (R112, R81 and R87: no command of the chain can fail). The raster has the declared
dimensions; the samples of each block's tile are at its offset, `out(x + i, y + j) = P[idx(i, j)]`, a later block over
an earlier one; a sample that no block covers is 0. That W and H are not negative is in the premises, because the spec is
silent on an image that says otherwise (log entry 20). -/
def Obligations.DecodePassOfWellFormedImageSucceeds : Prop :=
  ∀ (image : EncodedImage) (s : State), s.err = none → 1 ≤ image.n → image.n ≤ 16 → image.n ∣ image.w →
    image.n ∣ image.h → 0 ≤ image.w → 0 ≤ image.h →
    (∀ b ∈ image.blocks, image.n ∣ b.x ∧ image.n ∣ b.y ∧ 0 ≤ b.x ∧ 0 ≤ b.y ∧ b.x + image.n ≤ image.w ∧
      b.y + image.n ≤ image.h ∧ b.pairs.length ≤ 256 ∧ b.total = image.n * image.n ∧
      ∀ c ∈ b.pairs, -32768 ≤ c.1 ∧ c.1 ≤ 32767 ∧ 0 ≤ c.2 ∧ c.2 < 65536) →
    ∃ (out : Raster) (t : State), DecodeSucceeded image s out t ∧
      out.width = image.w ∧ out.height = image.h ∧ out.samples.length = image.w * image.h ∧
      ∀ x y : Nat, x < image.w → y < image.h → (∀ b ∈ image.blocks, ¬ b.Covers image.n x y) → out.sample x y = 0

/-- R123 and the source's end-to-end property, for every block size and every sample value: a flat block of value v
goes through the encode and the decode chain with error 0 on every transform unit with `T·max(1, N·v) < 1/2`, its
quantized DC term being N·v and every other quantized term 0.
The spec marks R123, R82 and R89, on which it rests, as inferences of its own (derived). -/
def Obligations.FlatBlocksSurviveBothChains : Prop :=
  ∀ (unit : Dct) (s : State) (v : BitVec 8), s.err = none → 1 ≤ s.n → s.n ≤ 16 →
    (∀ k < s.extent, s.p.get k = some v) → unit.tol * max 1 (s.n * v.toNat) < 1 / 2 →
    ∃ t u : State, ChainOk unit encb s t ∧ ChainOk unit decb t u ∧
      (∀ k < s.extent, ∃ w, t.q.get k = some w ∧ w.toInt = if k = 0 then (s.n * v.toNat : Int) else 0) ∧
      ∀ k < s.extent, u.p.get k = some v
end

