-- ==== Sys2Proof/Laws/Binary64.lean ====
section
/-! SUPPORT. The laws of binary64 cells and of the rounding primitives (spec/00_scope.md rule R11): the fields of a
packed cell, the exactness of `real(i)`, and what `rhaz` and `sat` do to integers. -/

namespace Sys2Proof.Machine

/-! ### Fields -/

@[simp] theorem F64.negative_pack (neg : Bool) (e : BitVec 11) (f : BitVec 52) :
    F64.negative (F64.pack neg e f) = neg := by
  unfold F64.negative F64.pack
  rw [BitVec.getLsbD_append, BitVec.getLsbD_append]
  simp

@[simp] theorem F64.exponent_pack (neg : Bool) (e : BitVec 11) (f : BitVec 52) :
    F64.exponent (F64.pack neg e f) = e := by
  unfold F64.exponent F64.pack
  apply BitVec.eq_of_getLsbD_eq
  intro i hi
  rw [BitVec.getLsbD_extractLsb', BitVec.getLsbD_append, BitVec.getLsbD_append]
  simp [hi]

@[simp] theorem F64.fraction_pack (neg : Bool) (e : BitVec 11) (f : BitVec 52) :
    F64.fraction (F64.pack neg e f) = f := by
  unfold F64.fraction F64.pack
  apply BitVec.eq_of_getLsbD_eq
  intro i hi
  rw [BitVec.getLsbD_extractLsb', BitVec.getLsbD_append]
  simp [hi]

/-! ### The exact conversion of an integer -/

/-- A positive integer lies between the powers of two of its binary logarithm. -/
theorem log2_bounds {m : Nat} (hm : m ≠ 0) : 2 ^ m.log2 ≤ m ∧ m < 2 ^ (m.log2 + 1) :=
  ⟨Nat.log2_self_le hm, Nat.lt_log2_self⟩

/-- The significand of `real(m)`: between 2^52 and 2^53, and m exactly when scaled back, for m <= 2^53. -/
theorem significand {m : Nat} (hm : m ≠ 0) (hle : m ≤ 2 ^ 53) :
    2 ^ 52 ≤ m * 2 ^ 52 / 2 ^ m.log2 ∧ m * 2 ^ 52 / 2 ^ m.log2 < 2 ^ 53 ∧
      m * 2 ^ 52 / 2 ^ m.log2 * 2 ^ m.log2 = m * 2 ^ 52 ∧ m.log2 ≤ 53 := by
  obtain ⟨h1, h2⟩ := log2_bounds hm
  have hlog : m.log2 ≤ 53 := by
    by_contra h
    have : 2 ^ 54 ≤ 2 ^ m.log2 := Nat.pow_le_pow_right (by norm_num) (by omega)
    omega
  have hpos : 0 < 2 ^ m.log2 := by positivity
  refine ⟨?_, ?_, ?_, hlog⟩
  · rw [Nat.le_div_iff_mul_le hpos, Nat.mul_comm]
    exact Nat.mul_le_mul_right _ h1
  · rw [Nat.div_lt_iff_lt_mul hpos]
    calc m * 2 ^ 52 < 2 ^ (m.log2 + 1) * 2 ^ 52 := Nat.mul_lt_mul_of_pos_right h2 (by positivity)
      _ = 2 ^ 53 * 2 ^ m.log2 := by rw [pow_succ]; ring
  · refine Nat.div_mul_cancel ?_
    rcases Nat.lt_or_ge m.log2 53 with h | h
    · exact Dvd.dvd.mul_left (Nat.pow_dvd_pow 2 (by omega)) m
    · have h53 : m.log2 = 53 := by omega
      have : m = 2 ^ 53 := by rw [h53] at h1; omega
      rw [h53, this]
      exact Nat.dvd_mul_right _ _

theorem F64.exponent_ofInt {i : Int} (h0 : i ≠ 0) (h : i.natAbs ≤ 2 ^ 53) :
    (F64.exponent (F64.ofInt i)).toNat = 1023 + i.natAbs.log2 := by
  have hlog := (significand (Int.natAbs_ne_zero.mpr h0) h).2.2.2
  rw [F64.ofInt, if_neg h0, F64.exponent_pack, BitVec.toNat_ofNat, Nat.mod_eq_of_lt (by omega)]

theorem F64.fraction_ofInt {i : Int} (h0 : i ≠ 0) (h : i.natAbs ≤ 2 ^ 53) :
    2 ^ 52 + (F64.fraction (F64.ofInt i)).toNat = i.natAbs * 2 ^ 52 / 2 ^ i.natAbs.log2 := by
  have hs := significand (Int.natAbs_ne_zero.mpr h0) h
  rw [F64.ofInt, if_neg h0, F64.fraction_pack, BitVec.toNat_ofNat, Nat.mod_eq_of_lt (by omega)]
  omega

/-- The magnitude of `real(i)` is |i| in units of 2^-1074. -/
theorem F64.magnitude_ofInt {i : Int} (h : i.natAbs ≤ 2 ^ 53) :
    F64.magnitude (F64.ofInt i) = i.natAbs * 2 ^ 1074 := by
  by_cases h0 : i = 0
  · subst h0
    rw [show F64.magnitude (F64.ofInt 0) = 0 by decide, Int.natAbs_zero, Nat.zero_mul]
  · have he := F64.exponent_ofInt h0 h
    have hs := significand (Int.natAbs_ne_zero.mpr h0) h
    have hne : F64.exponent (F64.ofInt i) ≠ 0 := fun e => by simp only [e, BitVec.ofNat_eq_ofNat, BitVec.toNat_ofNat] at he; omega
    rw [F64.magnitude, if_neg hne, F64.fraction_ofInt h0 h, he,
      show 1023 + i.natAbs.log2 - 1 = i.natAbs.log2 + 1022 by omega, pow_add, ← mul_assoc, hs.2.2.1]
    rw [mul_assoc, ← pow_add]

theorem F64.negative_ofInt (i : Int) : F64.negative (F64.ofInt i) = decide (i < 0) := by
  unfold F64.ofInt
  split
  · rename_i h; subst h; decide
  · simp

/-- `real(i)` is exact for every |i| <= 2^53 (R11). -/
theorem F64.val_ofInt {i : Int} (h : i.natAbs ≤ 2 ^ 53) : F64.val (F64.ofInt i) = i := by
  have hp : ((2 : ℚ) ^ 1074) ≠ 0 := by positivity
  unfold F64.val
  rw [F64.negative_ofInt, F64.magnitude_ofInt h]
  by_cases hi : i < 0
  · have : ((i.natAbs : Nat) : ℚ) = -(i : ℚ) := by
      rw [← Int.cast_natCast, Int.ofNat_natAbs_of_nonpos hi.le]; simp
    simp only [hi, decide_true, if_true]
    rw [Nat.cast_mul, Nat.cast_pow, Nat.cast_ofNat, mul_div_assoc, div_self hp, this]; ring
  · have : ((i.natAbs : Nat) : ℚ) = (i : ℚ) := by
      rw [← Int.cast_natCast, Int.natAbs_of_nonneg (by omega)]
    simp only [hi, decide_false, Bool.false_eq_true, if_false]
    rw [Nat.cast_mul, Nat.cast_pow, Nat.cast_ofNat, mul_div_assoc, div_self hp, this]; ring

/-- `real(i)` is finite. -/
theorem F64.finite_ofInt {i : Int} (h : i.natAbs ≤ 2 ^ 53) : F64.finite (F64.ofInt i) = true := by
  by_cases h0 : i = 0
  · subst h0; decide
  · have he := F64.exponent_ofInt h0 h
    have hlog := (significand (Int.natAbs_ne_zero.mpr h0) h).2.2.2
    simp only [F64.finite, bne_iff_ne, ne_eq]
    intro e
    rw [e] at he
    simp at he
    omega

/-- An integer of magnitude at most 2^31 passes the numeric check of the transforms (R81). -/
theorem F64.transformable_ofInt {i : Int} (h : i.natAbs ≤ 2 ^ 31) : F64.transformable (F64.ofInt i) = true := by
  have h53 : i.natAbs ≤ 2 ^ 53 := h.trans (by norm_num)
  simp only [F64.transformable, F64.finite_ofInt h53, F64.val_ofInt h53, Bool.true_and, decide_eq_true_eq, xmax]
  rw [← Int.cast_abs, ← Int.natCast_natAbs]
  exact_mod_cast h

theorem F64.finite_of_transformable {c : F64} (h : F64.transformable c = true) : F64.finite c = true := by
  simp only [F64.transformable, Bool.and_eq_true] at h
  exact h.1

/-! ### Rounding and clamping -/

/-- `rhaz` of an integer is that integer. -/
@[simp] theorem rhaz_intCast (i : Int) : rhaz (i : ℚ) = i := by
  unfold rhaz
  split
  · have : ⌊-(i : ℚ) + 1 / 2⌋ = -i := by
      rw [Int.floor_eq_iff]; push_cast; constructor <;> linarith
    omega
  · rw [Int.floor_eq_iff]; constructor <;> linarith

/-- What the clamp does: it gives a value between its bounds. -/
theorem sat_mem {lo hi : Int} (h : lo ≤ hi) (i : Int) : lo ≤ sat i lo hi ∧ sat i lo hi ≤ hi := by
  unfold sat; split <;> [skip; split] <;> omega

/-- A value between the bounds is unchanged by the clamp. -/
theorem sat_of_mem {i lo hi : Int} (h1 : lo ≤ i) (h2 : i ≤ hi) : sat i lo hi = i := by
  unfold sat; split <;> [skip; split] <;> omega

end Sys2Proof.Machine
end

