-- ==== Sys2Proof/Laws/Buffer.lean ====
section
/-! SUPPORT. The laws of cell arrays: what a read gives after each operation, and that every operation keeps the
canonical form (spec/20_memory.md rules R51, R52; spec/10_state.md rules R15, R23). -/

namespace Sys2Proof.Machine

variable {width : Nat}

/-! ### Reads after writes -/

@[simp] theorem Buffer.get_nil (k : Nat) : Buffer.get ([] : Buffer width) k = none := rfl

theorem Buffer.get_set (b : Buffer width) (k j : Nat) (v : BitVec width) :
    (b.set k v).get j = if k = j then some v else b.get j := by
  induction b with
  | nil => rfl
  | cons c rest ih =>
    obtain ⟨i, u⟩ := c
    unfold Buffer.set
    split
    · rfl
    split
    · rename_i h; subst h
      by_cases hk : k = j <;> simp [Buffer.get, hk]
    · rename_i h1 h2
      by_cases hi : i = j
      · subst hi; simp [Buffer.get, h2]
      · simp [Buffer.get, hi, ih]

/-- A cell written is a cell read (R51, R52). -/
@[simp] theorem Buffer.get_set_self (b : Buffer width) (k : Nat) (v : BitVec width) :
    (b.set k v).get k = some v := by simp [Buffer.get_set]

/-- A write leaves every other cell alone (R51). -/
theorem Buffer.get_set_other (b : Buffer width) {k j : Nat} (v : BitVec width) (h : k ≠ j) :
    (b.set k v).get j = b.get j := by simp [Buffer.get_set, h]

@[simp] theorem Buffer.writes_nil (b : Buffer width) : b.writes [] = b := rfl

@[simp] theorem Buffer.writes_cons (b : Buffer width) (c : Nat × BitVec width) (cells : List (Nat × BitVec width)) :
    b.writes (c :: cells) = (b.set c.1 c.2).writes cells := rfl

/-- A run of writes leaves every cell it does not name alone. -/
theorem Buffer.get_writes_other {cells : List (Nat × BitVec width)} {j : Nat} :
    ∀ (b : Buffer width), j ∉ cells.map Prod.fst → (b.writes cells).get j = b.get j := by
  induction cells with
  | nil => intro b _; rfl
  | cons c rest ih =>
    intro b h
    simp only [List.map_cons, List.mem_cons, not_or] at h
    rw [Buffer.writes_cons, ih _ h.2, Buffer.get_set_other _ _ (Ne.symm h.1)]

/-- A run of writes to distinct cells gives each cell the value written to it. -/
theorem Buffer.get_writes_mem {cells : List (Nat × BitVec width)} {j : Nat} {v : BitVec width} :
    ∀ (b : Buffer width), (cells.map Prod.fst).Nodup → (j, v) ∈ cells → (b.writes cells).get j = some v := by
  induction cells with
  | nil => intro b _ h; cases h
  | cons c rest ih =>
    intro b hn h
    simp only [List.map_cons, List.nodup_cons] at hn
    rw [Buffer.writes_cons]
    rcases List.mem_cons.mp h with rfl | h
    · rw [Buffer.get_writes_other _ hn.1, Buffer.get_set_self]
    · exact ih _ hn.2 h

theorem map_fst_range_zip {α : Type} (values : List α) :
    ((List.range values.length).zip values).map Prod.fst = List.range values.length :=
  List.map_fst_zip (by simp)

/-- Everything a fill does: cell k holds value k of the list, every cell beyond the list is as before. -/
theorem Buffer.get_fill (b : Buffer width) (values : List (BitVec width)) (k : Nat) :
    (b.fill values).get k = if h : k < values.length then some values[k] else b.get k := by
  unfold Buffer.fill
  split
  · rename_i h
    refine Buffer.get_writes_mem b ?_ ?_
    · rw [map_fst_range_zip]; exact List.nodup_range
    · rw [List.mem_iff_getElem]
      exact ⟨k, by simpa using h, by simp⟩
  · rename_i h
    refine Buffer.get_writes_other b ?_
    rw [map_fst_range_zip]
    simpa using h

theorem Buffer.get_fill_lt (b : Buffer width) {values : List (BitVec width)} {k : Nat} (h : k < values.length) :
    (b.fill values).get k = some values[k] := by simp [Buffer.get_fill, h]

theorem Buffer.get_fill_ge (b : Buffer width) {values : List (BitVec width)} {k : Nat} (h : values.length ≤ k) :
    (b.fill values).get k = b.get k := by simp [Buffer.get_fill, Nat.not_lt.mpr h]

/-! ### Whole extents -/

/-- Everything `collect` does. -/
theorem collect_eq_some {α : Type} {l : List (Option α)} {values : List α} :
    collect l = some values ↔ l = values.map some := by
  induction l generalizing values with
  | nil => cases values <;> simp [collect]
  | cons o rest ih =>
    cases o with
    | none => cases values <;> simp [collect]
    | some a =>
      cases values with
      | nil => simp [collect]
      | cons b bs =>
        simp only [collect, Option.map_eq_some_iff, List.cons.injEq, List.map_cons, Option.some.injEq]
        constructor
        · rintro ⟨vs, h, rfl, rfl⟩; exact ⟨rfl, ih.mp h⟩
        · rintro ⟨rfl, h⟩; exact ⟨bs, ih.mpr h, rfl, rfl⟩

theorem collect_isSome {α : Type} (l : List (Option α)) : (collect l).isSome = l.all Option.isSome := by
  induction l with
  | nil => rfl
  | cons o rest ih => cases o <;> simp [collect, ih]

/-- The values of an extent: as many as its cells, each the value of its cell. -/
theorem Buffer.cells_eq_some {b : Buffer width} {count : Nat} {values : List (BitVec width)} :
    b.cells count = some values ↔
      values.length = count ∧ ∀ k (h : k < values.length), b.get k = some values[k] := by
  rw [Buffer.cells, collect_eq_some]
  constructor
  · intro h
    have hl : count = values.length := by simpa using congrArg List.length h
    refine ⟨hl.symm, fun k hk => ?_⟩
    have := congrArg (fun l => l[k]?) h
    simpa [hk, hl] using this
  · rintro ⟨rfl, h⟩
    apply List.ext_getElem (by simp)
    intro k h1 h2
    simpa using h k (by simpa using h2)

/-- An extent is full exactly when its values can be read (R11). -/
theorem Buffer.full_eq_isSome_cells (b : Buffer width) (count : Nat) :
    b.full count = (b.cells count).isSome := by
  rw [Buffer.cells, collect_isSome, Buffer.full, List.all_map]; rfl

theorem Buffer.full_iff {b : Buffer width} {count : Nat} :
    b.full count = true ↔ ∀ k < count, (b.get k).isSome = true := by
  simp [Buffer.full]

theorem Buffer.full_iff_cells {b : Buffer width} {count : Nat} :
    b.full count = true ↔ ∃ values, b.cells count = some values := by
  rw [Buffer.full_eq_isSome_cells, Option.isSome_iff_exists]

theorem Buffer.cells_length {b : Buffer width} {count : Nat} {values : List (BitVec width)}
    (h : b.cells count = some values) : values.length = count := (Buffer.cells_eq_some.mp h).1

theorem Buffer.get_of_cells {b : Buffer width} {count : Nat} {values : List (BitVec width)}
    (h : b.cells count = some values) {k : Nat} (hk : k < values.length) : b.get k = some values[k] :=
  (Buffer.cells_eq_some.mp h).2 k hk

/-- After a fill the extent of the list holds the list. -/
@[simp] theorem Buffer.cells_fill (b : Buffer width) (values : List (BitVec width)) :
    (b.fill values).cells values.length = some values :=
  Buffer.cells_eq_some.mpr ⟨rfl, fun _ hk => Buffer.get_fill_lt b hk⟩

/-- After a fill the extent of the list is full. -/
theorem Buffer.full_fill (b : Buffer width) (values : List (BitVec width)) :
    (b.fill values).full values.length = true :=
  Buffer.full_iff_cells.mpr ⟨values, Buffer.cells_fill b values⟩

/-- A buffer that agrees with another on an extent has the same values there. -/
theorem Buffer.cells_congr {b c : Buffer width} {count : Nat} (h : ∀ k < count, b.get k = c.get k) :
    b.cells count = c.cells count := by
  unfold Buffer.cells
  congr 1
  exact List.map_congr_left fun k hk => h k (by simpa using hk)

/-! ### The canonical form -/

theorem Buffer.wf_nil (limit : Nat) : Buffer.wf ([] : Buffer width) limit := by
  simp [Buffer.wf]

theorem Buffer.mem_set {b : Buffer width} {k : Nat} {v : BitVec width} {c : Nat × BitVec width}
    (h : c ∈ b.set k v) : c = (k, v) ∨ c ∈ b := by
  induction b with
  | nil => simpa [Buffer.set] using h
  | cons d rest ih =>
    obtain ⟨i, u⟩ := d
    unfold Buffer.set at h
    split at h
    · simpa using h
    split at h
    · rcases List.mem_cons.mp h with h | h
      · exact .inl h
      · exact .inr (List.mem_cons_of_mem _ h)
    · rcases List.mem_cons.mp h with h | h
      · exact .inr (h ▸ List.mem_cons_self)
      · exact (ih h).imp id (List.mem_cons_of_mem _)

/-- A write inside the limit keeps the canonical form. -/
theorem Buffer.wf_set {b : Buffer width} {limit k : Nat} (v : BitVec width) (hb : b.wf limit) (hk : k < limit) :
    (b.set k v).wf limit := by
  refine ⟨?_, fun c hc => ?_⟩
  · replace hb := hb.1
    induction b with
    | nil => simp [Buffer.set]
    | cons d rest ih =>
      obtain ⟨i, u⟩ := d
      simp only [List.map_cons, List.pairwise_cons] at hb
      unfold Buffer.set
      split
      · rename_i h
        simp only [List.map_cons, List.pairwise_cons, List.mem_cons]
        exact ⟨fun j hj => hj.elim (fun e => e ▸ h) fun hj => h.trans (hb.1 j hj), hb⟩
      split
      · rename_i h; subst h
        simpa using hb
      · rename_i h1 h2
        simp only [List.map_cons, List.pairwise_cons]
        refine ⟨fun j hj => ?_, ih hb.2⟩
        obtain ⟨c, hc, rfl⟩ := List.mem_map.mp hj
        rcases Buffer.mem_set hc with rfl | hc
        · show i < k; omega
        · exact hb.1 _ (List.mem_map_of_mem hc)
  · rcases Buffer.mem_set hc with rfl | hc
    · exact hk
    · exact hb.2 c hc

/-- A run of writes inside the limit keeps the canonical form. -/
theorem Buffer.wf_writes {cells : List (Nat × BitVec width)} {limit : Nat} (hc : ∀ c ∈ cells, c.1 < limit) :
    ∀ {b : Buffer width}, b.wf limit → (b.writes cells).wf limit := by
  induction cells with
  | nil => exact fun h => h
  | cons c rest ih =>
    intro b hb
    rw [Buffer.writes_cons]
    exact ih (fun d hd => hc d (List.mem_cons_of_mem _ hd)) (Buffer.wf_set _ hb (hc c List.mem_cons_self))

/-- A fill of at most `limit` cells keeps the canonical form. -/
theorem Buffer.wf_fill {b : Buffer width} {values : List (BitVec width)} {limit : Nat} (hb : b.wf limit)
    (h : values.length ≤ limit) : (b.fill values).wf limit := by
  refine Buffer.wf_writes (fun c hc => ?_) hb
  have := (List.of_mem_zip hc).1
  rw [List.mem_range] at this
  omega

/-- In canonical form a cell at or beyond the limit is empty. -/
theorem Buffer.get_of_wf {b : Buffer width} {limit k : Nat} (hb : b.wf limit) (hk : limit ≤ k) : b.get k = none := by
  replace hb := hb.2
  induction b with
  | nil => rfl
  | cons d rest ih =>
    have hd := hb d List.mem_cons_self
    rw [Buffer.get, if_neg (by omega)]
    exact ih fun c hc => hb c (List.mem_cons_of_mem _ hc)

/-- In canonical form a listed cell reads as its value. -/
theorem Buffer.get_of_mem {b : Buffer width} {k : Nat} {v : BitVec width}
    (hb : (b.map Prod.fst).Pairwise (· < ·)) (h : (k, v) ∈ b) : b.get k = some v := by
  induction b with
  | nil => cases h
  | cons d rest ih =>
    obtain ⟨i, u⟩ := d
    simp only [List.map_cons, List.pairwise_cons] at hb
    rcases List.mem_cons.mp h with e | h
    · cases e; simp [Buffer.get]
    · have : i < k := hb.1 k (List.mem_map_of_mem (f := Prod.fst) h)
      rw [Buffer.get, if_neg (by omega), ih hb.2 h]

theorem Buffer.mem_of_get {b : Buffer width} {k : Nat} {v : BitVec width} (h : b.get k = some v) : (k, v) ∈ b := by
  induction b with
  | nil => cases h
  | cons d rest ih =>
    obtain ⟨i, u⟩ := d
    rw [Buffer.get] at h
    split at h
    · rename_i e; cases h; subst e; exact List.mem_cons_self
    · exact List.mem_cons_of_mem _ (ih h)

/-- Buffers in canonical form that read alike are the same list. -/
theorem Buffer.ext_of_wf {b c : Buffer width} (hb : (b.map Prod.fst).Pairwise (· < ·))
    (hc : (c.map Prod.fst).Pairwise (· < ·)) (h : ∀ k, b.get k = c.get k) : b = c := by
  have sorted : ∀ {l : Buffer width}, (l.map Prod.fst).Pairwise (· < ·) → l.Pairwise fun p q => p.1 < q.1 :=
    fun h => List.pairwise_map.mp h
  have mem : ∀ p, p ∈ b ↔ p ∈ c := fun p =>
    ⟨fun hp => Buffer.mem_of_get (h p.1 ▸ Buffer.get_of_mem hb hp),
      fun hp => Buffer.mem_of_get (h p.1 ▸ Buffer.get_of_mem hc hp)⟩
  have nodup : ∀ {l : Buffer width}, l.Pairwise (fun p q => p.1 < q.1) → l.Nodup := fun hl =>
    hl.imp fun hpq e => absurd (e ▸ hpq) (Nat.lt_irrefl _)
  exact ((List.perm_ext_iff_of_nodup (nodup (sorted hb)) (nodup (sorted hc))).mpr mem).eq_of_pairwise
    (fun p q _ _ h1 h2 => absurd (h1.trans h2) (Nat.lt_irrefl _)) (sorted hb) (sorted hc)

end Sys2Proof.Machine
end

