-- ==== Sys2Proof/Laws/State.lean ====
section
/-! SUPPORT. What each update of the state does to each field: one lemma per field per update, true by definition, so
that no later proof unfolds a record update. -/

namespace Sys2Proof.Machine

/-! ### setP -/

@[simp] theorem State.setP_p (s : State) (b : Buffer 8) : (s.setP b).p = b := rfl
@[simp] theorem State.setP_x (s : State) (b : Buffer 8) : (s.setP b).x = s.x := rfl
@[simp] theorem State.setP_f (s : State) (b : Buffer 8) : (s.setP b).f = s.f := rfl
@[simp] theorem State.setP_q (s : State) (b : Buffer 8) : (s.setP b).q = s.q := rfl
@[simp] theorem State.setP_z (s : State) (b : Buffer 8) : (s.setP b).z = s.z := rfl
@[simp] theorem State.setP_rv (s : State) (b : Buffer 8) : (s.setP b).rv = s.rv := rfl
@[simp] theorem State.setP_rc (s : State) (b : Buffer 8) : (s.setP b).rc = s.rc := rfl
@[simp] theorem State.setP_bsize (s : State) (b : Buffer 8) : (s.setP b).bsize = s.bsize := rfl
@[simp] theorem State.setP_rlen (s : State) (b : Buffer 8) : (s.setP b).rlen = s.rlen := rfl
@[simp] theorem State.setP_err (s : State) (b : Buffer 8) : (s.setP b).err = s.err := rfl
@[simp] theorem State.setP_ecmd (s : State) (b : Buffer 8) : (s.setP b).ecmd = s.ecmd := rfl
@[simp] theorem State.setP_pending (s : State) (b : Buffer 8) : (s.setP b).pending = s.pending := rfl
@[simp] theorem State.setP_answers (s : State) (b : Buffer 8) : (s.setP b).answers = s.answers := rfl
@[simp] theorem State.setP_n (s : State) (b : Buffer 8) : (s.setP b).n = s.n := rfl
@[simp] theorem State.setP_extent (s : State) (b : Buffer 8) : (s.setP b).extent = s.extent := rfl

/-! ### setX -/

@[simp] theorem State.setX_p (s : State) (b : Buffer 64) : (s.setX b).p = s.p := rfl
@[simp] theorem State.setX_x (s : State) (b : Buffer 64) : (s.setX b).x = b := rfl
@[simp] theorem State.setX_f (s : State) (b : Buffer 64) : (s.setX b).f = s.f := rfl
@[simp] theorem State.setX_q (s : State) (b : Buffer 64) : (s.setX b).q = s.q := rfl
@[simp] theorem State.setX_z (s : State) (b : Buffer 64) : (s.setX b).z = s.z := rfl
@[simp] theorem State.setX_rv (s : State) (b : Buffer 64) : (s.setX b).rv = s.rv := rfl
@[simp] theorem State.setX_rc (s : State) (b : Buffer 64) : (s.setX b).rc = s.rc := rfl
@[simp] theorem State.setX_bsize (s : State) (b : Buffer 64) : (s.setX b).bsize = s.bsize := rfl
@[simp] theorem State.setX_rlen (s : State) (b : Buffer 64) : (s.setX b).rlen = s.rlen := rfl
@[simp] theorem State.setX_err (s : State) (b : Buffer 64) : (s.setX b).err = s.err := rfl
@[simp] theorem State.setX_ecmd (s : State) (b : Buffer 64) : (s.setX b).ecmd = s.ecmd := rfl
@[simp] theorem State.setX_pending (s : State) (b : Buffer 64) : (s.setX b).pending = s.pending := rfl
@[simp] theorem State.setX_answers (s : State) (b : Buffer 64) : (s.setX b).answers = s.answers := rfl
@[simp] theorem State.setX_n (s : State) (b : Buffer 64) : (s.setX b).n = s.n := rfl
@[simp] theorem State.setX_extent (s : State) (b : Buffer 64) : (s.setX b).extent = s.extent := rfl

/-! ### setF -/

@[simp] theorem State.setF_p (s : State) (b : Buffer 64) : (s.setF b).p = s.p := rfl
@[simp] theorem State.setF_x (s : State) (b : Buffer 64) : (s.setF b).x = s.x := rfl
@[simp] theorem State.setF_f (s : State) (b : Buffer 64) : (s.setF b).f = b := rfl
@[simp] theorem State.setF_q (s : State) (b : Buffer 64) : (s.setF b).q = s.q := rfl
@[simp] theorem State.setF_z (s : State) (b : Buffer 64) : (s.setF b).z = s.z := rfl
@[simp] theorem State.setF_rv (s : State) (b : Buffer 64) : (s.setF b).rv = s.rv := rfl
@[simp] theorem State.setF_rc (s : State) (b : Buffer 64) : (s.setF b).rc = s.rc := rfl
@[simp] theorem State.setF_bsize (s : State) (b : Buffer 64) : (s.setF b).bsize = s.bsize := rfl
@[simp] theorem State.setF_rlen (s : State) (b : Buffer 64) : (s.setF b).rlen = s.rlen := rfl
@[simp] theorem State.setF_err (s : State) (b : Buffer 64) : (s.setF b).err = s.err := rfl
@[simp] theorem State.setF_ecmd (s : State) (b : Buffer 64) : (s.setF b).ecmd = s.ecmd := rfl
@[simp] theorem State.setF_pending (s : State) (b : Buffer 64) : (s.setF b).pending = s.pending := rfl
@[simp] theorem State.setF_answers (s : State) (b : Buffer 64) : (s.setF b).answers = s.answers := rfl
@[simp] theorem State.setF_n (s : State) (b : Buffer 64) : (s.setF b).n = s.n := rfl
@[simp] theorem State.setF_extent (s : State) (b : Buffer 64) : (s.setF b).extent = s.extent := rfl

/-! ### setQ -/

@[simp] theorem State.setQ_p (s : State) (b : Buffer 16) : (s.setQ b).p = s.p := rfl
@[simp] theorem State.setQ_x (s : State) (b : Buffer 16) : (s.setQ b).x = s.x := rfl
@[simp] theorem State.setQ_f (s : State) (b : Buffer 16) : (s.setQ b).f = s.f := rfl
@[simp] theorem State.setQ_q (s : State) (b : Buffer 16) : (s.setQ b).q = b := rfl
@[simp] theorem State.setQ_z (s : State) (b : Buffer 16) : (s.setQ b).z = s.z := rfl
@[simp] theorem State.setQ_rv (s : State) (b : Buffer 16) : (s.setQ b).rv = s.rv := rfl
@[simp] theorem State.setQ_rc (s : State) (b : Buffer 16) : (s.setQ b).rc = s.rc := rfl
@[simp] theorem State.setQ_bsize (s : State) (b : Buffer 16) : (s.setQ b).bsize = s.bsize := rfl
@[simp] theorem State.setQ_rlen (s : State) (b : Buffer 16) : (s.setQ b).rlen = s.rlen := rfl
@[simp] theorem State.setQ_err (s : State) (b : Buffer 16) : (s.setQ b).err = s.err := rfl
@[simp] theorem State.setQ_ecmd (s : State) (b : Buffer 16) : (s.setQ b).ecmd = s.ecmd := rfl
@[simp] theorem State.setQ_pending (s : State) (b : Buffer 16) : (s.setQ b).pending = s.pending := rfl
@[simp] theorem State.setQ_answers (s : State) (b : Buffer 16) : (s.setQ b).answers = s.answers := rfl
@[simp] theorem State.setQ_n (s : State) (b : Buffer 16) : (s.setQ b).n = s.n := rfl
@[simp] theorem State.setQ_extent (s : State) (b : Buffer 16) : (s.setQ b).extent = s.extent := rfl

/-! ### setZ -/

@[simp] theorem State.setZ_p (s : State) (b : Buffer 16) : (s.setZ b).p = s.p := rfl
@[simp] theorem State.setZ_x (s : State) (b : Buffer 16) : (s.setZ b).x = s.x := rfl
@[simp] theorem State.setZ_f (s : State) (b : Buffer 16) : (s.setZ b).f = s.f := rfl
@[simp] theorem State.setZ_q (s : State) (b : Buffer 16) : (s.setZ b).q = s.q := rfl
@[simp] theorem State.setZ_z (s : State) (b : Buffer 16) : (s.setZ b).z = b := rfl
@[simp] theorem State.setZ_rv (s : State) (b : Buffer 16) : (s.setZ b).rv = s.rv := rfl
@[simp] theorem State.setZ_rc (s : State) (b : Buffer 16) : (s.setZ b).rc = s.rc := rfl
@[simp] theorem State.setZ_bsize (s : State) (b : Buffer 16) : (s.setZ b).bsize = s.bsize := rfl
@[simp] theorem State.setZ_rlen (s : State) (b : Buffer 16) : (s.setZ b).rlen = s.rlen := rfl
@[simp] theorem State.setZ_err (s : State) (b : Buffer 16) : (s.setZ b).err = s.err := rfl
@[simp] theorem State.setZ_ecmd (s : State) (b : Buffer 16) : (s.setZ b).ecmd = s.ecmd := rfl
@[simp] theorem State.setZ_pending (s : State) (b : Buffer 16) : (s.setZ b).pending = s.pending := rfl
@[simp] theorem State.setZ_answers (s : State) (b : Buffer 16) : (s.setZ b).answers = s.answers := rfl
@[simp] theorem State.setZ_n (s : State) (b : Buffer 16) : (s.setZ b).n = s.n := rfl
@[simp] theorem State.setZ_extent (s : State) (b : Buffer 16) : (s.setZ b).extent = s.extent := rfl

/-! ### setRv -/

@[simp] theorem State.setRv_p (s : State) (b : Buffer 16) : (s.setRv b).p = s.p := rfl
@[simp] theorem State.setRv_x (s : State) (b : Buffer 16) : (s.setRv b).x = s.x := rfl
@[simp] theorem State.setRv_f (s : State) (b : Buffer 16) : (s.setRv b).f = s.f := rfl
@[simp] theorem State.setRv_q (s : State) (b : Buffer 16) : (s.setRv b).q = s.q := rfl
@[simp] theorem State.setRv_z (s : State) (b : Buffer 16) : (s.setRv b).z = s.z := rfl
@[simp] theorem State.setRv_rv (s : State) (b : Buffer 16) : (s.setRv b).rv = b := rfl
@[simp] theorem State.setRv_rc (s : State) (b : Buffer 16) : (s.setRv b).rc = s.rc := rfl
@[simp] theorem State.setRv_bsize (s : State) (b : Buffer 16) : (s.setRv b).bsize = s.bsize := rfl
@[simp] theorem State.setRv_rlen (s : State) (b : Buffer 16) : (s.setRv b).rlen = s.rlen := rfl
@[simp] theorem State.setRv_err (s : State) (b : Buffer 16) : (s.setRv b).err = s.err := rfl
@[simp] theorem State.setRv_ecmd (s : State) (b : Buffer 16) : (s.setRv b).ecmd = s.ecmd := rfl
@[simp] theorem State.setRv_pending (s : State) (b : Buffer 16) : (s.setRv b).pending = s.pending := rfl
@[simp] theorem State.setRv_answers (s : State) (b : Buffer 16) : (s.setRv b).answers = s.answers := rfl
@[simp] theorem State.setRv_n (s : State) (b : Buffer 16) : (s.setRv b).n = s.n := rfl
@[simp] theorem State.setRv_extent (s : State) (b : Buffer 16) : (s.setRv b).extent = s.extent := rfl

/-! ### setRc -/

@[simp] theorem State.setRc_p (s : State) (b : Buffer 16) : (s.setRc b).p = s.p := rfl
@[simp] theorem State.setRc_x (s : State) (b : Buffer 16) : (s.setRc b).x = s.x := rfl
@[simp] theorem State.setRc_f (s : State) (b : Buffer 16) : (s.setRc b).f = s.f := rfl
@[simp] theorem State.setRc_q (s : State) (b : Buffer 16) : (s.setRc b).q = s.q := rfl
@[simp] theorem State.setRc_z (s : State) (b : Buffer 16) : (s.setRc b).z = s.z := rfl
@[simp] theorem State.setRc_rv (s : State) (b : Buffer 16) : (s.setRc b).rv = s.rv := rfl
@[simp] theorem State.setRc_rc (s : State) (b : Buffer 16) : (s.setRc b).rc = b := rfl
@[simp] theorem State.setRc_bsize (s : State) (b : Buffer 16) : (s.setRc b).bsize = s.bsize := rfl
@[simp] theorem State.setRc_rlen (s : State) (b : Buffer 16) : (s.setRc b).rlen = s.rlen := rfl
@[simp] theorem State.setRc_err (s : State) (b : Buffer 16) : (s.setRc b).err = s.err := rfl
@[simp] theorem State.setRc_ecmd (s : State) (b : Buffer 16) : (s.setRc b).ecmd = s.ecmd := rfl
@[simp] theorem State.setRc_pending (s : State) (b : Buffer 16) : (s.setRc b).pending = s.pending := rfl
@[simp] theorem State.setRc_answers (s : State) (b : Buffer 16) : (s.setRc b).answers = s.answers := rfl
@[simp] theorem State.setRc_n (s : State) (b : Buffer 16) : (s.setRc b).n = s.n := rfl
@[simp] theorem State.setRc_extent (s : State) (b : Buffer 16) : (s.setRc b).extent = s.extent := rfl

/-! ### setRlen -/

@[simp] theorem State.setRlen_p (s : State) (len : BitVec 9) : (s.setRlen len).p = s.p := rfl
@[simp] theorem State.setRlen_x (s : State) (len : BitVec 9) : (s.setRlen len).x = s.x := rfl
@[simp] theorem State.setRlen_f (s : State) (len : BitVec 9) : (s.setRlen len).f = s.f := rfl
@[simp] theorem State.setRlen_q (s : State) (len : BitVec 9) : (s.setRlen len).q = s.q := rfl
@[simp] theorem State.setRlen_z (s : State) (len : BitVec 9) : (s.setRlen len).z = s.z := rfl
@[simp] theorem State.setRlen_rv (s : State) (len : BitVec 9) : (s.setRlen len).rv = s.rv := rfl
@[simp] theorem State.setRlen_rc (s : State) (len : BitVec 9) : (s.setRlen len).rc = s.rc := rfl
@[simp] theorem State.setRlen_bsize (s : State) (len : BitVec 9) : (s.setRlen len).bsize = s.bsize := rfl
@[simp] theorem State.setRlen_rlen (s : State) (len : BitVec 9) : (s.setRlen len).rlen = len := rfl
@[simp] theorem State.setRlen_err (s : State) (len : BitVec 9) : (s.setRlen len).err = s.err := rfl
@[simp] theorem State.setRlen_ecmd (s : State) (len : BitVec 9) : (s.setRlen len).ecmd = s.ecmd := rfl
@[simp] theorem State.setRlen_pending (s : State) (len : BitVec 9) : (s.setRlen len).pending = s.pending := rfl
@[simp] theorem State.setRlen_answers (s : State) (len : BitVec 9) : (s.setRlen len).answers = s.answers := rfl
@[simp] theorem State.setRlen_n (s : State) (len : BitVec 9) : (s.setRlen len).n = s.n := rfl
@[simp] theorem State.setRlen_extent (s : State) (len : BitVec 9) : (s.setRlen len).extent = s.extent := rfl

/-! ### setBsize -/

@[simp] theorem State.setBsize_p (s : State) (size : BitVec 5) : (s.setBsize size).p = [] := rfl
@[simp] theorem State.setBsize_x (s : State) (size : BitVec 5) : (s.setBsize size).x = [] := rfl
@[simp] theorem State.setBsize_f (s : State) (size : BitVec 5) : (s.setBsize size).f = [] := rfl
@[simp] theorem State.setBsize_q (s : State) (size : BitVec 5) : (s.setBsize size).q = [] := rfl
@[simp] theorem State.setBsize_z (s : State) (size : BitVec 5) : (s.setBsize size).z = [] := rfl
@[simp] theorem State.setBsize_rv (s : State) (size : BitVec 5) : (s.setBsize size).rv = [] := rfl
@[simp] theorem State.setBsize_rc (s : State) (size : BitVec 5) : (s.setBsize size).rc = [] := rfl
@[simp] theorem State.setBsize_bsize (s : State) (size : BitVec 5) : (s.setBsize size).bsize = size := rfl
@[simp] theorem State.setBsize_rlen (s : State) (size : BitVec 5) : (s.setBsize size).rlen = 0 := rfl
@[simp] theorem State.setBsize_err (s : State) (size : BitVec 5) : (s.setBsize size).err = s.err := rfl
@[simp] theorem State.setBsize_ecmd (s : State) (size : BitVec 5) : (s.setBsize size).ecmd = s.ecmd := rfl
@[simp] theorem State.setBsize_pending (s : State) (size : BitVec 5) : (s.setBsize size).pending = s.pending := rfl
@[simp] theorem State.setBsize_answers (s : State) (size : BitVec 5) : (s.setBsize size).answers = s.answers := rfl

/-! ### resetEngine -/

@[simp] theorem State.resetEngine_p (s : State) : (s.resetEngine).p = [] := rfl
@[simp] theorem State.resetEngine_x (s : State) : (s.resetEngine).x = [] := rfl
@[simp] theorem State.resetEngine_f (s : State) : (s.resetEngine).f = [] := rfl
@[simp] theorem State.resetEngine_q (s : State) : (s.resetEngine).q = [] := rfl
@[simp] theorem State.resetEngine_z (s : State) : (s.resetEngine).z = [] := rfl
@[simp] theorem State.resetEngine_rv (s : State) : (s.resetEngine).rv = [] := rfl
@[simp] theorem State.resetEngine_rc (s : State) : (s.resetEngine).rc = [] := rfl
@[simp] theorem State.resetEngine_bsize (s : State) : (s.resetEngine).bsize = 8 := rfl
@[simp] theorem State.resetEngine_rlen (s : State) : (s.resetEngine).rlen = 0 := rfl
@[simp] theorem State.resetEngine_err (s : State) : (s.resetEngine).err = none := rfl
@[simp] theorem State.resetEngine_ecmd (s : State) : (s.resetEngine).ecmd = 0 := rfl
@[simp] theorem State.resetEngine_pending (s : State) : (s.resetEngine).pending = s.pending := rfl
@[simp] theorem State.resetEngine_answers (s : State) : (s.resetEngine).answers = s.answers := rfl

/-! ### respond -/

@[simp] theorem State.respond_p (s : State) (r : Response) : (s.respond r).p = s.p := rfl
@[simp] theorem State.respond_x (s : State) (r : Response) : (s.respond r).x = s.x := rfl
@[simp] theorem State.respond_f (s : State) (r : Response) : (s.respond r).f = s.f := rfl
@[simp] theorem State.respond_q (s : State) (r : Response) : (s.respond r).q = s.q := rfl
@[simp] theorem State.respond_z (s : State) (r : Response) : (s.respond r).z = s.z := rfl
@[simp] theorem State.respond_rv (s : State) (r : Response) : (s.respond r).rv = s.rv := rfl
@[simp] theorem State.respond_rc (s : State) (r : Response) : (s.respond r).rc = s.rc := rfl
@[simp] theorem State.respond_bsize (s : State) (r : Response) : (s.respond r).bsize = s.bsize := rfl
@[simp] theorem State.respond_rlen (s : State) (r : Response) : (s.respond r).rlen = s.rlen := rfl
@[simp] theorem State.respond_err (s : State) (r : Response) : (s.respond r).err = s.err := rfl
@[simp] theorem State.respond_ecmd (s : State) (r : Response) : (s.respond r).ecmd = s.ecmd := rfl
@[simp] theorem State.respond_pending (s : State) (r : Response) : (s.respond r).pending = s.pending := rfl
@[simp] theorem State.respond_answers (s : State) (r : Response) : (s.respond r).answers = { code := r, data := none } :: s.answers := rfl
@[simp] theorem State.respond_n (s : State) (r : Response) : (s.respond r).n = s.n := rfl
@[simp] theorem State.respond_extent (s : State) (r : Response) : (s.respond r).extent = s.extent := rfl

/-! ### respondData -/

@[simp] theorem State.respondData_p (s : State) (d : Data) : (s.respondData d).p = s.p := rfl
@[simp] theorem State.respondData_x (s : State) (d : Data) : (s.respondData d).x = s.x := rfl
@[simp] theorem State.respondData_f (s : State) (d : Data) : (s.respondData d).f = s.f := rfl
@[simp] theorem State.respondData_q (s : State) (d : Data) : (s.respondData d).q = s.q := rfl
@[simp] theorem State.respondData_z (s : State) (d : Data) : (s.respondData d).z = s.z := rfl
@[simp] theorem State.respondData_rv (s : State) (d : Data) : (s.respondData d).rv = s.rv := rfl
@[simp] theorem State.respondData_rc (s : State) (d : Data) : (s.respondData d).rc = s.rc := rfl
@[simp] theorem State.respondData_bsize (s : State) (d : Data) : (s.respondData d).bsize = s.bsize := rfl
@[simp] theorem State.respondData_rlen (s : State) (d : Data) : (s.respondData d).rlen = s.rlen := rfl
@[simp] theorem State.respondData_err (s : State) (d : Data) : (s.respondData d).err = s.err := rfl
@[simp] theorem State.respondData_ecmd (s : State) (d : Data) : (s.respondData d).ecmd = s.ecmd := rfl
@[simp] theorem State.respondData_pending (s : State) (d : Data) : (s.respondData d).pending = s.pending := rfl
@[simp] theorem State.respondData_answers (s : State) (d : Data) : (s.respondData d).answers = { code := .ok, data := some d } :: s.answers := rfl
@[simp] theorem State.respondData_n (s : State) (d : Data) : (s.respondData d).n = s.n := rfl
@[simp] theorem State.respondData_extent (s : State) (d : Data) : (s.respondData d).extent = s.extent := rfl

/-! ### latch -/

@[simp] theorem State.latch_p (s : State) (e : CmdError) (w : CmdWord) : (s.latch e w).p = s.p := rfl
@[simp] theorem State.latch_x (s : State) (e : CmdError) (w : CmdWord) : (s.latch e w).x = s.x := rfl
@[simp] theorem State.latch_f (s : State) (e : CmdError) (w : CmdWord) : (s.latch e w).f = s.f := rfl
@[simp] theorem State.latch_q (s : State) (e : CmdError) (w : CmdWord) : (s.latch e w).q = s.q := rfl
@[simp] theorem State.latch_z (s : State) (e : CmdError) (w : CmdWord) : (s.latch e w).z = s.z := rfl
@[simp] theorem State.latch_rv (s : State) (e : CmdError) (w : CmdWord) : (s.latch e w).rv = s.rv := rfl
@[simp] theorem State.latch_rc (s : State) (e : CmdError) (w : CmdWord) : (s.latch e w).rc = s.rc := rfl
@[simp] theorem State.latch_bsize (s : State) (e : CmdError) (w : CmdWord) : (s.latch e w).bsize = s.bsize := rfl
@[simp] theorem State.latch_rlen (s : State) (e : CmdError) (w : CmdWord) : (s.latch e w).rlen = s.rlen := rfl
@[simp] theorem State.latch_err (s : State) (e : CmdError) (w : CmdWord) : (s.latch e w).err = some e := rfl
@[simp] theorem State.latch_ecmd (s : State) (e : CmdError) (w : CmdWord) : (s.latch e w).ecmd = w := rfl
@[simp] theorem State.latch_pending (s : State) (e : CmdError) (w : CmdWord) : (s.latch e w).pending = s.pending := rfl
@[simp] theorem State.latch_answers (s : State) (e : CmdError) (w : CmdWord) : (s.latch e w).answers = s.answers := rfl
@[simp] theorem State.latch_n (s : State) (e : CmdError) (w : CmdWord) : (s.latch e w).n = s.n := rfl
@[simp] theorem State.latch_extent (s : State) (e : CmdError) (w : CmdWord) : (s.latch e w).extent = s.extent := rfl

/-! ### raise -/

@[simp] theorem State.raise_p (s : State) (e : CmdError) (w : CmdWord) : (s.raise e w).p = s.p := rfl
@[simp] theorem State.raise_x (s : State) (e : CmdError) (w : CmdWord) : (s.raise e w).x = s.x := rfl
@[simp] theorem State.raise_f (s : State) (e : CmdError) (w : CmdWord) : (s.raise e w).f = s.f := rfl
@[simp] theorem State.raise_q (s : State) (e : CmdError) (w : CmdWord) : (s.raise e w).q = s.q := rfl
@[simp] theorem State.raise_z (s : State) (e : CmdError) (w : CmdWord) : (s.raise e w).z = s.z := rfl
@[simp] theorem State.raise_rv (s : State) (e : CmdError) (w : CmdWord) : (s.raise e w).rv = s.rv := rfl
@[simp] theorem State.raise_rc (s : State) (e : CmdError) (w : CmdWord) : (s.raise e w).rc = s.rc := rfl
@[simp] theorem State.raise_bsize (s : State) (e : CmdError) (w : CmdWord) : (s.raise e w).bsize = s.bsize := rfl
@[simp] theorem State.raise_rlen (s : State) (e : CmdError) (w : CmdWord) : (s.raise e w).rlen = s.rlen := rfl
@[simp] theorem State.raise_err (s : State) (e : CmdError) (w : CmdWord) : (s.raise e w).err = some e := rfl
@[simp] theorem State.raise_ecmd (s : State) (e : CmdError) (w : CmdWord) : (s.raise e w).ecmd = w := rfl
@[simp] theorem State.raise_pending (s : State) (e : CmdError) (w : CmdWord) : (s.raise e w).pending = s.pending := rfl
@[simp] theorem State.raise_answers (s : State) (e : CmdError) (w : CmdWord) : (s.raise e w).answers = { code := .error e, data := none } :: s.answers := rfl
@[simp] theorem State.raise_n (s : State) (e : CmdError) (w : CmdWord) : (s.raise e w).n = s.n := rfl
@[simp] theorem State.raise_extent (s : State) (e : CmdError) (w : CmdWord) : (s.raise e w).extent = s.extent := rfl

/-! ### clearError -/

@[simp] theorem State.clearError_p (s : State) : (s.clearError).p = s.p := rfl
@[simp] theorem State.clearError_x (s : State) : (s.clearError).x = s.x := rfl
@[simp] theorem State.clearError_f (s : State) : (s.clearError).f = s.f := rfl
@[simp] theorem State.clearError_q (s : State) : (s.clearError).q = s.q := rfl
@[simp] theorem State.clearError_z (s : State) : (s.clearError).z = s.z := rfl
@[simp] theorem State.clearError_rv (s : State) : (s.clearError).rv = s.rv := rfl
@[simp] theorem State.clearError_rc (s : State) : (s.clearError).rc = s.rc := rfl
@[simp] theorem State.clearError_bsize (s : State) : (s.clearError).bsize = s.bsize := rfl
@[simp] theorem State.clearError_rlen (s : State) : (s.clearError).rlen = s.rlen := rfl
@[simp] theorem State.clearError_err (s : State) : (s.clearError).err = none := rfl
@[simp] theorem State.clearError_ecmd (s : State) : (s.clearError).ecmd = 0 := rfl
@[simp] theorem State.clearError_pending (s : State) : (s.clearError).pending = s.pending := rfl
@[simp] theorem State.clearError_answers (s : State) : (s.clearError).answers = s.answers := rfl
@[simp] theorem State.clearError_n (s : State) : (s.clearError).n = s.n := rfl
@[simp] theorem State.clearError_extent (s : State) : (s.clearError).extent = s.extent := rfl

/-! ### setStream -/

@[simp] theorem State.setStream_p (s : State) (pairs : List (BitVec 16 × Nat)) : (s.setStream pairs).p = s.p := rfl
@[simp] theorem State.setStream_x (s : State) (pairs : List (BitVec 16 × Nat)) : (s.setStream pairs).x = s.x := rfl
@[simp] theorem State.setStream_f (s : State) (pairs : List (BitVec 16 × Nat)) : (s.setStream pairs).f = s.f := rfl
@[simp] theorem State.setStream_q (s : State) (pairs : List (BitVec 16 × Nat)) : (s.setStream pairs).q = s.q := rfl
@[simp] theorem State.setStream_z (s : State) (pairs : List (BitVec 16 × Nat)) : (s.setStream pairs).z = s.z := rfl
@[simp] theorem State.setStream_rv (s : State) (pairs : List (BitVec 16 × Nat)) : (s.setStream pairs).rv = Buffer.fill [] (pairs.map Prod.fst) := rfl
@[simp] theorem State.setStream_rc (s : State) (pairs : List (BitVec 16 × Nat)) : (s.setStream pairs).rc = Buffer.fill [] (pairs.map fun c => BitVec.ofNat 16 c.2) := rfl
@[simp] theorem State.setStream_bsize (s : State) (pairs : List (BitVec 16 × Nat)) : (s.setStream pairs).bsize = s.bsize := rfl
@[simp] theorem State.setStream_rlen (s : State) (pairs : List (BitVec 16 × Nat)) : (s.setStream pairs).rlen = BitVec.ofNat 9 pairs.length := rfl
@[simp] theorem State.setStream_err (s : State) (pairs : List (BitVec 16 × Nat)) : (s.setStream pairs).err = s.err := rfl
@[simp] theorem State.setStream_ecmd (s : State) (pairs : List (BitVec 16 × Nat)) : (s.setStream pairs).ecmd = s.ecmd := rfl
@[simp] theorem State.setStream_pending (s : State) (pairs : List (BitVec 16 × Nat)) : (s.setStream pairs).pending = s.pending := rfl
@[simp] theorem State.setStream_answers (s : State) (pairs : List (BitVec 16 × Nat)) : (s.setStream pairs).answers = s.answers := rfl
@[simp] theorem State.setStream_n (s : State) (pairs : List (BitVec 16 × Nat)) : (s.setStream pairs).n = s.n := rfl
@[simp] theorem State.setStream_extent (s : State) (pairs : List (BitVec 16 × Nat)) : (s.setStream pairs).extent = s.extent := rfl

/-! ### taken -/

@[simp] theorem State.taken_p (s : State) (rest : List HostEvent) : (s.taken rest).p = s.p := rfl
@[simp] theorem State.taken_x (s : State) (rest : List HostEvent) : (s.taken rest).x = s.x := rfl
@[simp] theorem State.taken_f (s : State) (rest : List HostEvent) : (s.taken rest).f = s.f := rfl
@[simp] theorem State.taken_q (s : State) (rest : List HostEvent) : (s.taken rest).q = s.q := rfl
@[simp] theorem State.taken_z (s : State) (rest : List HostEvent) : (s.taken rest).z = s.z := rfl
@[simp] theorem State.taken_rv (s : State) (rest : List HostEvent) : (s.taken rest).rv = s.rv := rfl
@[simp] theorem State.taken_rc (s : State) (rest : List HostEvent) : (s.taken rest).rc = s.rc := rfl
@[simp] theorem State.taken_bsize (s : State) (rest : List HostEvent) : (s.taken rest).bsize = s.bsize := rfl
@[simp] theorem State.taken_rlen (s : State) (rest : List HostEvent) : (s.taken rest).rlen = s.rlen := rfl
@[simp] theorem State.taken_err (s : State) (rest : List HostEvent) : (s.taken rest).err = s.err := rfl
@[simp] theorem State.taken_ecmd (s : State) (rest : List HostEvent) : (s.taken rest).ecmd = s.ecmd := rfl
@[simp] theorem State.taken_pending (s : State) (rest : List HostEvent) : (s.taken rest).pending = rest := rfl
@[simp] theorem State.taken_answers (s : State) (rest : List HostEvent) : (s.taken rest).answers = s.answers := rfl
@[simp] theorem State.taken_n (s : State) (rest : List HostEvent) : (s.taken rest).n = s.n := rfl
@[simp] theorem State.taken_extent (s : State) (rest : List HostEvent) : (s.taken rest).extent = s.extent := rfl

/-! ### The reset state -/

@[simp] theorem State.reset_p : State.reset.p = [] := rfl
@[simp] theorem State.reset_x : State.reset.x = [] := rfl
@[simp] theorem State.reset_f : State.reset.f = [] := rfl
@[simp] theorem State.reset_q : State.reset.q = [] := rfl
@[simp] theorem State.reset_z : State.reset.z = [] := rfl
@[simp] theorem State.reset_rv : State.reset.rv = [] := rfl
@[simp] theorem State.reset_rc : State.reset.rc = [] := rfl
@[simp] theorem State.reset_bsize : State.reset.bsize = 8 := rfl
@[simp] theorem State.reset_rlen : State.reset.rlen = 0 := rfl
@[simp] theorem State.reset_err : State.reset.err = none := rfl
@[simp] theorem State.reset_ecmd : State.reset.ecmd = 0 := rfl
@[simp] theorem State.reset_pending : State.reset.pending = [] := rfl
@[simp] theorem State.reset_answers : State.reset.answers = [] := rfl

/-- Two states with equal fields are equal. -/
theorem State.ext_fields {s t : State} (hp : s.p = t.p) (hx : s.x = t.x) (hf : s.f = t.f) (hq : s.q = t.q)
    (hz : s.z = t.z) (hrv : s.rv = t.rv) (hrc : s.rc = t.rc) (hb : s.bsize = t.bsize) (hr : s.rlen = t.rlen)
    (he : s.err = t.err) (hw : s.ecmd = t.ecmd) (hpend : s.pending = t.pending) (ha : s.answers = t.answers) :
    s = t := by
  cases s; cases t; simp_all

end Sys2Proof.Machine
end

