-- ==== Sys2Proof/Laws/Commands.lean ====
section
/-! SUPPORT. What the common execution template and each command can do, said once (spec/30_encoding.md rule R75):
provers cite these instead of unfolding `command`, `source`, `numeric` or a meaning. -/

namespace Sys2Proof.Machine

/-! ### The checks -/

theorem source_ok {width : Nat} {b : Buffer width} {count : Nat} {values : List (BitVec width)} :
    source b count = .ok values ↔ b.cells count = some values := by
  unfold source
  cases b.cells count <;> simp

theorem source_error {width : Nat} {b : Buffer width} {count : Nat} {e : CmdError} :
    source b count = .error e ↔ e = .empty ∧ b.full count = false := by
  rw [Buffer.full_eq_isSome_cells]
  unfold source
  cases b.cells count <;> simp [eq_comm]

theorem source_of_not_full {width : Nat} {b : Buffer width} {count : Nat} (h : b.full count = false) :
    source b count = .error .empty := source_error.mpr ⟨rfl, h⟩

theorem numeric_ok {accepts : F64 → Bool} {cells : List F64} {u : Unit} :
    numeric accepts cells = .ok u ↔ cells.all accepts = true := by
  unfold numeric
  cases h : cells.all accepts <;> simp

theorem numeric_error {accepts : F64 → Bool} {cells : List F64} {e : CmdError} :
    numeric accepts cells = .error e ↔ e = .num ∧ cells.all accepts = false := by
  unfold numeric
  cases h : cells.all accepts <;> simp [eq_comm]

theorem sumCheck_ok {pairs : List (BitVec 16 × Nat)} {extent : Nat} {u : Unit} :
    sumCheck pairs extent = .ok u ↔ countSum pairs = extent := by
  unfold sumCheck; split <;> simp_all

theorem sumCheck_error {pairs : List (BitVec 16 × Nat)} {extent : Nat} {e : CmdError} :
    sumCheck pairs extent = .error e ↔ e = .rleSum ∧ countSum pairs ≠ extent := by
  unfold sumCheck; split <;> simp_all [eq_comm]

theorem streamSource_ok {s : State} {pairs : List (BitVec 16 × Nat)} :
    streamSource s = .ok pairs ↔ ∃ values counts, s.rv.cells s.rlen.toNat = some values ∧
      s.rc.cells s.rlen.toNat = some counts ∧ pairs = values.zip (counts.map BitVec.toNat) := by
  unfold streamSource source
  cases s.rv.cells s.rlen.toNat <;> cases s.rc.cells s.rlen.toNat <;>
    simp [bind, Except.bind, eq_comm]

theorem streamSource_error {s : State} {e : CmdError} :
    streamSource s = .error e ↔ e = .empty ∧ streamFull s = false := by
  unfold streamSource source streamFull
  rw [Buffer.full_eq_isSome_cells, Buffer.full_eq_isSome_cells]
  cases s.rv.cells s.rlen.toNat <;> cases s.rc.cells s.rlen.toNat <;>
    simp [bind, Except.bind, eq_comm]

/-! ### The template -/

/-- The part of a command between its lock check and its response: its own checks, then its writes. -/
def body (i : Instr) (s : State) : Except CmdError State :=
  match i with
  | .ldpx => do
    let samples ← source s.p s.extent
    .ok (s.setX (s.x.fill (samples.map sampleToReal)))
  | .fdct => do
    let cells ← source s.x s.extent
    numeric F64.transformable cells
    .ok (s.setF (s.f.fill (resultCells s.extent (Config.dct.fdct s.n cells))))
  | .qnt => do
    let coefficients ← source s.f s.extent
    numeric F64.finite coefficients
    .ok (s.setQ (s.q.fill (coefficients.mapIdx quantizeCell)))
  | .zzf => do
    let matrix ← source s.q s.extent
    .ok (s.setZ (s.z.fill ((zidx s.n).map fun j => matrix.getD j 0)))
  | .rle => do
    let sequence ← source s.z s.extent
    .ok (s.setStream (rleEncode sequence))
  | .stpx => do
    let reals ← source s.x s.extent
    numeric F64.finite reals
    .ok (s.setP (s.p.fill (reals.map realToSample)))
  | .idct => do
    let cells ← source s.f s.extent
    numeric F64.transformable cells
    .ok (s.setX (s.x.fill (resultCells s.extent (Config.dct.idct s.n cells))))
  | .dqt => do
    let integers ← source s.q s.extent
    .ok (s.setF (s.f.fill (integers.map dequantizeCell)))
  | .zzu => do
    let sequence ← source s.z s.extent
    .ok (s.setQ (s.q.writes ((zidx s.n).zip sequence)))
  | .rld => do
    let pairs ← streamSource s
    sumCheck pairs s.extent
    .ok (s.setZ (s.z.fill (rleDecode pairs)))

/-- Every command is its body in the common template. -/
theorem exec_eq_command (i : Instr) (s : State) : exec i s = command i s (body i s) := by
  cases i <;> rfl

theorem command_locked {i : Instr} {s : State} (b : Except CmdError State) (h : s.err ≠ none) :
    command i s b = .next (s.respond .locked) := by
  unfold command unlessLocked; rw [if_neg h]

theorem command_error {i : Instr} {s : State} (e : CmdError) (h : s.err = none) :
    command i s (.error e) = .next (s.raise e (encode i)) := by
  unfold command unlessLocked; rw [if_pos h]

theorem command_ok {i : Instr} {s : State} (t : State) (h : s.err = none) :
    command i s (.ok t) = .next (t.respond .ok) := by
  unfold command unlessLocked; rw [if_pos h]

/-- Everything a command can do: refused with `E_LOCKED`, ended with a command error, or done with `OK`. It always
answers a next state. -/
theorem exec_cases (i : Instr) (s : State) :
    (s.err ≠ none ∧ exec i s = .next (s.respond .locked)) ∨
    (s.err = none ∧ ∃ e, body i s = .error e ∧ exec i s = .next (s.raise e (encode i))) ∨
    (s.err = none ∧ ∃ t, body i s = .ok t ∧ exec i s = .next (t.respond .ok)) := by
  rw [exec_eq_command]
  by_cases h : s.err = none
  · rcases hb : body i s with e | t
    · exact .inr (.inl ⟨h, e, rfl, command_error e h⟩)
    · exact .inr (.inr ⟨h, t, rfl, command_ok t h⟩)
  · exact .inl ⟨h, command_locked _ h⟩

theorem exec_locked {i : Instr} {s : State} (h : s.err ≠ none) : exec i s = .next (s.respond .locked) := by
  rw [exec_eq_command, command_locked _ h]

theorem exec_of_error {i : Instr} {s : State} {e : CmdError} (h : s.err = none) (hb : body i s = .error e) :
    exec i s = .next (s.raise e (encode i)) := by
  rw [exec_eq_command, hb, command_error e h]

theorem exec_of_ok {i : Instr} {s t : State} (h : s.err = none) (hb : body i s = .ok t) :
    exec i s = .next (t.respond .ok) := by
  rw [exec_eq_command, hb, command_ok t h]

/-! ### The writes of each command -/

theorem except_bind_ok {ε α β : Type} {m : Except ε α} {g : α → Except ε β} {b : β} :
    (m >>= g) = .ok b ↔ ∃ a, m = .ok a ∧ g a = .ok b := by
  cases m <;> simp [bind, Except.bind]

theorem except_bind_error {ε α β : Type} {m : Except ε α} {g : α → Except ε β} {e : ε} :
    (m >>= g) = .error e ↔ m = .error e ∨ ∃ a, m = .ok a ∧ g a = .error e := by
  cases m <;> simp [bind, Except.bind]

theorem body_ldpx {s t : State} : body .ldpx s = .ok t ↔ ∃ samples, s.p.cells s.extent = some samples ∧
    s.setX (s.x.fill (samples.map sampleToReal)) = t := by
  simp only [body, except_bind_ok, source_ok, Except.ok.injEq]

theorem body_fdct {s t : State} : body .fdct s = .ok t ↔ ∃ cells, s.x.cells s.extent = some cells ∧
    cells.all F64.transformable = true ∧
    s.setF (s.f.fill (resultCells s.extent (Config.dct.fdct s.n cells))) = t := by
  simp only [body, except_bind_ok, source_ok, numeric_ok, Except.ok.injEq, exists_const]

theorem body_qnt {s t : State} : body .qnt s = .ok t ↔ ∃ coefficients, s.f.cells s.extent = some coefficients ∧
    coefficients.all F64.finite = true ∧
    s.setQ (s.q.fill (coefficients.mapIdx quantizeCell)) = t := by
  simp only [body, except_bind_ok, source_ok, numeric_ok, Except.ok.injEq, exists_const]

theorem body_zzf {s t : State} : body .zzf s = .ok t ↔ ∃ matrix, s.q.cells s.extent = some matrix ∧
    s.setZ (s.z.fill ((zidx s.n).map fun j => matrix.getD j 0)) = t := by
  simp only [body, except_bind_ok, source_ok, Except.ok.injEq]

theorem body_rle {s t : State} : body .rle s = .ok t ↔ ∃ sequence, s.z.cells s.extent = some sequence ∧
    s.setStream (rleEncode sequence) = t := by
  simp only [body, except_bind_ok, source_ok, Except.ok.injEq]

theorem body_stpx {s t : State} : body .stpx s = .ok t ↔ ∃ reals, s.x.cells s.extent = some reals ∧
    reals.all F64.finite = true ∧
    s.setP (s.p.fill (reals.map realToSample)) = t := by
  simp only [body, except_bind_ok, source_ok, numeric_ok, Except.ok.injEq, exists_const]

theorem body_idct {s t : State} : body .idct s = .ok t ↔ ∃ cells, s.f.cells s.extent = some cells ∧
    cells.all F64.transformable = true ∧
    s.setX (s.x.fill (resultCells s.extent (Config.dct.idct s.n cells))) = t := by
  simp only [body, except_bind_ok, source_ok, numeric_ok, Except.ok.injEq, exists_const]

theorem body_dqt {s t : State} : body .dqt s = .ok t ↔ ∃ integers, s.q.cells s.extent = some integers ∧
    s.setF (s.f.fill (integers.map dequantizeCell)) = t := by
  simp only [body, except_bind_ok, source_ok, Except.ok.injEq]

theorem body_zzu {s t : State} : body .zzu s = .ok t ↔ ∃ sequence, s.z.cells s.extent = some sequence ∧
    s.setQ (s.q.writes ((zidx s.n).zip sequence)) = t := by
  simp only [body, except_bind_ok, source_ok, Except.ok.injEq]

theorem body_rld {s t : State} : body .rld s = .ok t ↔ ∃ pairs, streamSource s = .ok pairs ∧
    countSum pairs = s.extent ∧
    s.setZ (s.z.fill (rleDecode pairs)) = t := by
  simp only [body, except_bind_ok, sumCheck_ok, Except.ok.injEq, exists_const]

@[simp] theorem length_resultCells (count : Nat) (result : Nat → F64) :
    (resultCells count result).length = count := by simp [resultCells]

@[simp] theorem getElem_resultCells (count : Nat) (result : Nat → F64) (k : Nat)
    (h : k < (resultCells count result).length) : (resultCells count result)[k] = result k := by
  simp [resultCells]

end Sys2Proof.Machine
end

