-- ==== Sys2Proof/Laws/DctProfile.lean ====
section
/-! SUPPORT. The suggested accuracy profile is not empty (spec/00_scope.md rule R9, spec/41_transform.md rule R80): a
transform unit with `DCT_TOL` = 2^-36 exists, so a claim about every unit within that tolerance is a claim about
something. The unit rounds each exact result to a multiple of a power of two chosen from the source's magnitude. -/

namespace Sys2Proof.Machine

/-- A cell divided by 2^e, for a cell whose exponent field is above e. -/
def F64.scaleDown (c : F64) (e : Nat) : F64 :=
  F64.pack (F64.negative c) (BitVec.ofNat 11 ((F64.exponent c).toNat - e)) (F64.fraction c)

theorem F64.exponent_scaleDown {c : F64} {e : Nat} :
    (F64.exponent (F64.scaleDown c e)).toNat = (F64.exponent c).toNat - e := by
  have := (F64.exponent c).isLt
  rw [F64.scaleDown, F64.exponent_pack, BitVec.toNat_ofNat, Nat.mod_eq_of_lt (by omega)]

theorem F64.magnitude_scaleDown {c : F64} {e : Nat} (h : e < (F64.exponent c).toNat) :
    F64.magnitude (F64.scaleDown c e) * 2 ^ e = F64.magnitude c := by
  have he := F64.exponent_scaleDown (c := c) (e := e)
  have ne : ∀ d : F64, 0 < (F64.exponent d).toNat → F64.exponent d ≠ 0 := fun d hd e0 => by
    simp only [e0, BitVec.ofNat_eq_ofNat, BitVec.toNat_ofNat] at hd
    omega
  rw [F64.magnitude, if_neg (ne _ (by omega)), F64.magnitude, if_neg (ne c (by omega)), he, F64.scaleDown,
    F64.fraction_pack, mul_assoc, ← pow_add]
  congr 2
  omega

theorem F64.val_scaleDown {c : F64} {e : Nat} (h : e < (F64.exponent c).toNat) :
    F64.val (F64.scaleDown c e) = F64.val c / 2 ^ e := by
  have hm := F64.magnitude_scaleDown h
  have hneg : F64.negative (F64.scaleDown c e) = F64.negative c := F64.negative_pack _ _ _
  have h2 : ((2 : ℚ) ^ e) ≠ 0 := by positivity
  have hq : (F64.magnitude (F64.scaleDown c e) : ℚ) = F64.magnitude c / 2 ^ e := by
    rw [eq_div_iff h2]; exact_mod_cast hm
  unfold F64.val
  rw [hneg, hq]
  split
  · rw [neg_div, div_right_comm]
  · rw [div_right_comm]

theorem F64.finite_scaleDown {c : F64} (e : Nat) (h : F64.finite c = true) :
    F64.finite (F64.scaleDown c e) = true := by
  simp only [F64.finite, bne_iff_ne, ne_eq] at h ⊢
  intro h'
  have he := F64.exponent_scaleDown (c := c) (e := e)
  have hlt := (F64.exponent c).isLt
  apply h
  apply BitVec.eq_of_toNat_eq
  rw [h'] at he
  simp only [BitVec.ofNat_eq_ofNat, BitVec.toNat_ofNat] at he ⊢
  omega

/-- Every multiple of 2^-e of at most 53 significant bits is the value of some finite cell. -/
theorem exists_cell {i : Int} {e : Nat} (hi : i.natAbs ≤ 2 ^ 53) (he : e ≤ 64) :
    ∃ c : F64, F64.finite c = true ∧ F64.val c = (i : ℚ) / 2 ^ e := by
  by_cases h0 : i = 0
  · exact ⟨0#64, by decide, by simp [h0]⟩
  · refine ⟨F64.scaleDown (F64.ofInt i) e, F64.finite_scaleDown e (F64.finite_ofInt hi), ?_⟩
    rw [F64.val_scaleDown (by rw [F64.exponent_ofInt h0 hi]; omega), F64.val_ofInt hi]

/-- A magnitude between 1 and 2^31 lies between two neighbouring powers of two. -/
theorem exists_pow_le {m : ℝ} (h1 : 1 ≤ m) (h2 : m ≤ 2 ^ 31) : ∃ j ≤ 31, (2 : ℝ) ^ j ≤ m ∧ m ≤ 2 ^ (j + 1) := by
  obtain ⟨j, hj1, hj2⟩ := exists_nat_pow_near h1 (by norm_num : (1 : ℝ) < 2)
  refine ⟨j, ?_, hj1, hj2.le⟩
  by_contra h
  have : (2 : ℝ) ^ 32 ≤ 2 ^ j := pow_le_pow_right₀ (by norm_num) (by omega)
  linarith [show (2 : ℝ) ^ 31 < 2 ^ 32 by norm_num]

/-- A real of magnitude at most 32·max(1, M) lies within 2^-36·max(1, M) of the value of a finite cell. -/
theorem exists_near {y m : ℝ} (hm1 : 1 ≤ m) (hm2 : m ≤ 2 ^ 31) (hy : |y| ≤ 32 * m) :
    ∃ c : F64, F64.finite c = true ∧ |(F64.val c : ℝ) - y| ≤ 1 / 2 ^ 36 * m := by
  obtain ⟨j, hj, h1, h2⟩ := exists_pow_le hm1 hm2
  obtain ⟨e, he⟩ : ∃ e, e + j = 37 := ⟨37 - j, by omega⟩
  have hpow : (2 : ℝ) ^ e * 2 ^ j = 2 ^ 37 := by rw [← pow_add, he]
  have hpos : (0 : ℝ) < 2 ^ e := by positivity
  have hround := abs_sub_round (y * 2 ^ e)
  have hbig : |y * 2 ^ e| ≤ 2 ^ 43 := by
    rw [abs_mul, abs_of_pos hpos]
    calc |y| * 2 ^ e ≤ 32 * m * 2 ^ e := by gcongr
      _ ≤ 32 * 2 ^ (j + 1) * 2 ^ e := by gcongr
      _ = 64 * (2 ^ e * 2 ^ j) := by rw [pow_succ]; ring
      _ = 2 ^ 43 := by rw [hpow]; norm_num
  have hi : (round (y * 2 ^ e)).natAbs ≤ 2 ^ 53 := by
    have : |((round (y * 2 ^ e) : ℤ) : ℝ)| ≤ 2 ^ 53 := by
      rw [abs_le] at hround hbig ⊢
      constructor <;> linarith [show (2 : ℝ) ^ 43 + 1 ≤ 2 ^ 53 by norm_num, hround.1, hround.2, hbig.1, hbig.2]
    have h' : |round (y * 2 ^ e)| ≤ 2 ^ 53 := by exact_mod_cast this
    rw [Int.abs_eq_natAbs] at h'
    exact_mod_cast h'
  obtain ⟨c, hc, hv⟩ := exists_cell hi (show e ≤ 64 by omega)
  refine ⟨c, hc, ?_⟩
  rw [hv]
  push_cast
  have key : (round (y * 2 ^ e) : ℝ) / 2 ^ e - y = -(y * 2 ^ e - round (y * 2 ^ e)) / 2 ^ e := by
    field_simp; ring
  rw [key, abs_div, abs_neg, abs_of_pos hpos, div_le_iff₀ hpos]
  calc |y * 2 ^ e - round (y * 2 ^ e)| ≤ 1 / 2 := hround
    _ ≤ 1 / 2 ^ 36 * 2 ^ j * 2 ^ e := by
        rw [show (1 : ℝ) / 2 ^ 36 * 2 ^ j * 2 ^ e = 1 / 2 ^ 36 * (2 ^ e * 2 ^ j) by ring, hpow]; norm_num
    _ ≤ 1 / 2 ^ 36 * m * 2 ^ e := by gcongr

theorem largest_le {cells : List F64} (h : cells.all F64.transformable = true) : largest cells ≤ xmax := by
  induction cells with
  | nil => exact by norm_num [largest, xmax]
  | cons c rest ih =>
    simp only [List.all_cons, Bool.and_eq_true, F64.transformable, decide_eq_true_eq] at h
    exact max_le h.1.2 (ih (by simpa [F64.transformable] using h.2))

/-- Some result of finite cells lies within 2^-36·max(1, M) of an exact matrix bounded by 2N·M. -/
theorem exists_result {n : Nat} (hn : n ≤ 16) {exact : Nat → Nat → ℝ} {cells : List F64}
    (hc : cells.all F64.transformable = true)
    (h : ∀ a b, |exact a b| ≤ 2 * n * (largest cells : ℝ)) :
    ∃ result : Nat → F64, ∀ k, F64.finite (result k) = true ∧
      |(F64.val (result k) : ℝ) - exact (k % n) (k / n)| ≤ ((1 / 2 ^ 36 * max 1 (largest cells) : ℚ) : ℝ) := by
  have h0 : (0 : ℝ) ≤ largest cells := by exact_mod_cast largest_nonneg cells
  have hx : (largest cells : ℝ) ≤ 2 ^ 31 := by exact_mod_cast largest_le hc
  have hn' : (n : ℝ) ≤ 16 := by exact_mod_cast hn
  have near : ∀ k, ∃ c : F64, F64.finite c = true ∧
      |(F64.val c : ℝ) - exact (k % n) (k / n)| ≤ ((1 / 2 ^ 36 * max 1 (largest cells) : ℚ) : ℝ) := fun k => by
    obtain ⟨c, hc, hv⟩ := exists_near (y := exact (k % n) (k / n)) (le_max_left 1 (largest cells : ℝ))
      (max_le (by norm_num) hx) ((h _ _).trans (by
        nlinarith [le_max_left (1 : ℝ) (largest cells : ℝ), le_max_right (1 : ℝ) (largest cells : ℝ)]))
    exact ⟨c, hc, by push_cast; exact hv⟩
  choose result hr using near
  exact ⟨result, hr⟩

theorem conforms_of_result {n : Nat} {tol m : ℚ} {exact : Nat → Nat → ℝ} {result : Nat → F64}
    (h : ∀ k, F64.finite (result k) = true ∧
      |(F64.val (result k) : ℝ) - exact (k % n) (k / n)| ≤ ((tol * max 1 m : ℚ) : ℝ)) :
    Conforms tol n exact m result := by
  intro a ha b _
  have hk := h (idx n a b)
  have h1 : idx n a b % n = a := by rw [idx, Nat.mul_add_mod', Nat.mod_eq_of_lt ha]
  have h2 : idx n a b / n = b := by
    rw [idx, Nat.add_comm, Nat.add_mul_div_right _ _ (by omega), Nat.div_eq_of_lt ha, Nat.zero_add]
  rw [h1, h2] at hk
  exact hk

/-- A transform unit of the suggested profile, `DCT_TOL` = 2^-36, exists. -/
theorem exists_suggested_dct : ∃ unit : Dct, unit.tol = 1 / 2 ^ 36 := by
  have forward : ∀ n (cells : List F64), ∃ result : Nat → F64, 1 ≤ n → n ≤ Config.nmax →
      cells.all F64.transformable = true →
      Conforms (1 / 2 ^ 36) n (forwardExact n (matrixOf n cells)) (largest cells) result := fun n cells => by
    by_cases h : 1 ≤ n ∧ n ≤ Config.nmax ∧ cells.all F64.transformable = true
    · obtain ⟨r, hr⟩ := exists_result h.2.1 h.2.2 (abs_forwardExact_le h.1 (abs_matrixOf_le n cells))
      exact ⟨r, fun _ _ _ => conforms_of_result hr⟩
    · exact ⟨fun _ => 0, fun h1 h2 h3 => absurd ⟨h1, h2, h3⟩ h⟩
  have inverse : ∀ n (cells : List F64), ∃ result : Nat → F64, 1 ≤ n → n ≤ Config.nmax →
      cells.all F64.transformable = true →
      Conforms (1 / 2 ^ 36) n (inverseExact n (matrixOf n cells)) (largest cells) result := fun n cells => by
    by_cases h : 1 ≤ n ∧ n ≤ Config.nmax ∧ cells.all F64.transformable = true
    · obtain ⟨r, hr⟩ := exists_result h.2.1 h.2.2 (abs_inverseExact_le h.1 (abs_matrixOf_le n cells))
      exact ⟨r, fun _ _ _ => conforms_of_result hr⟩
    · exact ⟨fun _ => 0, fun h1 h2 h3 => absurd ⟨h1, h2, h3⟩ h⟩
  choose f hf using forward
  choose g hg using inverse
  exact ⟨{ tol := 1 / 2 ^ 36, fdct := f, idct := g, tol_nonneg := by norm_num,
           fdct_conforms := fun n cells h1 h2 _ h3 => hf n cells h1 h2 h3,
           idct_conforms := fun n cells h1 h2 _ h3 => hg n cells h1 h2 h3 }, rfl⟩

end Sys2Proof.Machine
end

