-- ==== Sys2Proof/Laws/Passes.lean ====
section
/-! SUPPORT. What the parts of a host's pass can do, said once (spec/46_pipeline_host.md rules R126, R132, R136): one
transaction, a run of them, one part after another, and the output raster. -/

namespace Sys2Proof.Machine

/-! ### Responses -/

theorem OkSince.refl (s : State) : OkSince s s := ⟨[], rfl, by simp⟩

theorem OkSince.trans {s t u : State} (h : OkSince s t) (g : OkSince t u) : OkSince s u := by
  obtain ⟨l, hl, ho⟩ := h
  obtain ⟨m, hm, go⟩ := g
  refine ⟨m ++ l, by rw [hm, hl, List.append_assoc], fun a ha => ?_⟩
  exact (List.mem_append.mp ha).elim (go a) (ho a)

theorem OkSince.of_cons {s t : State} {a : Answer} (h : t.answers = a :: s.answers) (ha : a.code = .ok) :
    OkSince s t := ⟨[a], h, by simpa using ha⟩

/-- A pass that began with good responses and ends well from there ends well. -/
theorem EndsAtFirstError.of_okSince {α : Type} {s t : State} {d : Driven α} (h : OkSince s t)
    (hd : EndsAtFirstError t d) : EndsAtFirstError s d := by
  rcases d with ⟨_, u⟩ | ⟨why, u⟩
  · exact h.trans hd
  · cases why with
    | response c => obtain ⟨hc, v, hv, e⟩ := hd; exact ⟨hc, v, h.trans hv, e⟩
    | noAnswer => exact hd.elim
    | shape => exact h.trans hd
    | offset => exact h.trans hd
    | tooManyPairs => exact h.trans hd
    | unwritable => exact h.trans hd

/-- One part of a pass after another: the first error of either ends both (R136). -/
theorem EndsAtFirstError.andThen {α β : Type} {s : State} {first : Driven α} {next : α → State → Driven β}
    (h : EndsAtFirstError s first) (hn : ∀ v t, first = .done v t → EndsAtFirstError t (next v t)) :
    EndsAtFirstError s (first.andThen next) := by
  rcases first with ⟨v, t⟩ | ⟨why, t⟩
  · exact .of_okSince h (hn v t rfl)
  · cases why <;> exact h

/-! ### Transactions -/

theorem Driven.andThen_done {α β : Type} {v : α} {s : State} {next : α → State → Driven β} :
    (Driven.done v s).andThen next = next v s := rfl

theorem Driven.andThen_failed {α β : Type} {why : PassError} {s : State} {next : α → State → Driven β} :
    (Driven.failed why s).andThen next = .failed why s := rfl

theorem Driven.andThen_assoc {α β γ : Type} (d : Driven α) (f : α → State → Driven β) (g : β → State → Driven γ) :
    (d.andThen f).andThen g = d.andThen fun v s => (f v s).andThen g := by cases d <;> rfl

/-- Everything one transaction can do, given what the engine does: `OK` goes on, any other response ends the pass. -/
theorem transact_of_perform {e : HostEvent} {s t : State} {a : Answer} (h : perform e s = .next t)
    (ha : t.answers = a :: s.answers) :
    transact e s = if a.code = .ok then .done a.data.toList t else .failed (.response a.code) t := by
  unfold transact
  rw [h]
  simp only [ha]

theorem transactAll_nil (s : State) : transactAll [] s = .done [] s := rfl

theorem transactAll_cons (e : HostEvent) (rest : List HostEvent) (s : State) :
    transactAll (e :: rest) s =
      (transact e s).andThen fun data t =>
        (transactAll rest t).andThen fun more u => .done (data ++ more) u := rfl

/-- A run in two parts. -/
theorem transactAll_append (first second : List HostEvent) (s : State) :
    transactAll (first ++ second) s =
      (transactAll first s).andThen fun data t =>
        (transactAll second t).andThen fun more u => .done (data ++ more) u := by
  induction first generalizing s with
  | nil =>
    rw [List.nil_append, transactAll_nil, Driven.andThen_done]
    cases transactAll second s <;> rfl
  | cons e rest ih =>
    rw [List.cons_append, transactAll_cons, transactAll_cons, Driven.andThen_assoc]
    congr 1
    funext data t
    rw [ih]
    rcases transactAll rest t with ⟨more, u⟩ | ⟨why, u⟩
    · rw [Driven.andThen_done, Driven.andThen_done, Driven.andThen_done]
      rcases transactAll second u with ⟨last, v⟩ | ⟨why, v⟩
      · rw [Driven.andThen_done, Driven.andThen_done, Driven.andThen_done, List.append_assoc]
      · rfl
    · rfl

/-! ### The host's checks -/

/-- Everything the shape check asks for (R127). -/
theorem shapeOk_iff {n w h : Int} :
    shapeOk n w h = true ↔ 1 ≤ n ∧ n ≤ 16 ∧ n ∣ w ∧ n ∣ h ∧ 0 ≤ w ∧ 0 ≤ h := by
  rw [Int.dvd_iff_emod_eq_zero, Int.dvd_iff_emod_eq_zero]
  simp only [shapeOk, Bool.and_eq_true, decide_eq_true_eq, beq_iff_eq, and_assoc]
  exact Iff.rfl

/-- Everything the offset check asks for (R134). -/
theorem offsetOk_iff {image : EncodedImage} {b : EncodedBlock} :
    offsetOk image b = true ↔ b.x % image.n = 0 ∧ b.y % image.n = 0 ∧ b.x + image.n ≤ image.w ∧
      b.y + image.n ≤ image.h ∧ 0 ≤ b.x ∧ 0 ≤ b.y := by
  simp [offsetOk, and_assoc]

theorem portable_iff {c : Int × Int} :
    portable c = true ↔ -2 ^ 63 ≤ c.1 ∧ c.1 < 2 ^ 63 ∧ -2 ^ 63 ≤ c.2 ∧ c.2 < 2 ^ 64 := by
  simp [portable, and_assoc]

/-! ### The output raster -/

@[simp] theorem Raster.put_width (r : Raster) (x y : Nat) (v : BitVec 8) : (r.put x y v).width = r.width := rfl

@[simp] theorem Raster.put_height (r : Raster) (x y : Nat) (v : BitVec 8) : (r.put x y v).height = r.height := rfl

@[simp] theorem Raster.put_samples_length (r : Raster) (x y : Nat) (v : BitVec 8) :
    (r.put x y v).samples.length = r.samples.length := by simp [Raster.put]

@[simp] theorem Raster.blank_sample (w h x y : Nat) : (Raster.blank w h).sample x y = 0 := by
  unfold Raster.sample Raster.blank
  rw [List.getD_eq_getElem?_getD, List.getElem?_replicate]
  split <;> rfl

theorem Raster.blank_whole (w h : Nat) : (Raster.blank w h).Whole := by simp [Raster.Whole, Raster.blank]

theorem Raster.offset_lt {r : Raster} (hr : r.Whole) {x y : Nat} (hx : x < r.width) (hy : y < r.height) :
    y * r.width + x < r.samples.length := by
  rw [hr]
  calc y * r.width + x < (y + 1) * r.width := by rw [Nat.succ_mul]; omega
    _ ≤ r.height * r.width := Nat.mul_le_mul_right _ hy
    _ = r.width * r.height := Nat.mul_comm _ _

/-- Two positions of a raster with one offset are one position. -/
theorem offset_inj {w x y x' y' : Nat} (hx : x < w) (hx' : x' < w) (h : y * w + x = y' * w + x') : x = x' ∧ y = y' := by
  have h1 := congrArg (· % w) h
  have h2 := congrArg (· / w) h
  simp only [Nat.mul_add_mod', Nat.mod_eq_of_lt hx, Nat.mod_eq_of_lt hx'] at h1
  have hw : 0 < w := by omega
  rw [Nat.add_comm, Nat.add_mul_div_right _ _ hw, Nat.div_eq_of_lt hx, Nat.add_comm (y' * w),
    Nat.add_mul_div_right _ _ hw, Nat.div_eq_of_lt hx'] at h2
  exact ⟨h1, by omega⟩

/-- Everything a write of one sample does: that sample reads as written, every other as before. -/
theorem Raster.sample_put {r : Raster} (hr : r.Whole) {x y x' y' : Nat} (hx : x < r.width) (hy : y < r.height)
    (hx' : x' < r.width) (v : BitVec 8) :
    (r.put x y v).sample x' y' = if x' = x ∧ y' = y then v else r.sample x' y' := by
  have hl := Raster.offset_lt hr hx hy
  show (r.samples.set (y * r.width + x) v).getD (y' * r.width + x') 0 = _
  rw [List.getD_eq_getElem?_getD, List.getElem?_set]
  split
  · rename_i h
    obtain ⟨rfl, rfl⟩ := offset_inj hx hx' h
    simp
  · rename_i h
    rw [if_neg (by rintro ⟨rfl, rfl⟩; exact h rfl), ← List.getD_eq_getElem?_getD]
    rfl

/-- A run of sample writes, each at its own position inside the raster: the raster stays whole; a written position
reads as its sample, every other as before. -/
theorem Raster.sample_puts (writes : List ((Nat × Nat) × BitVec 8)) :
    ∀ r : Raster, r.Whole → (∀ c ∈ writes, c.1.1 < r.width ∧ c.1.2 < r.height) → (writes.map Prod.fst).Nodup →
      let t := writes.foldl (fun r c => r.put c.1.1 c.1.2 c.2) r
      t.width = r.width ∧ t.height = r.height ∧ t.Whole ∧
        (∀ c ∈ writes, t.sample c.1.1 c.1.2 = c.2) ∧
        ∀ x < r.width, ∀ y, (x, y) ∉ writes.map Prod.fst → t.sample x y = r.sample x y := by
  induction writes with
  | nil => exact fun r hr _ _ => ⟨rfl, rfl, hr, by simp, fun _ _ _ _ => rfl⟩
  | cons c rest ih =>
    intro r hr hc hn
    rw [List.map_cons, List.nodup_cons] at hn
    have h0 := hc c List.mem_cons_self
    have hw : (r.put c.1.1 c.1.2 c.2).Whole := by
      unfold Raster.Whole; rw [Raster.put_samples_length]; exact hr
    obtain ⟨h1, h2, h3, h4, h5⟩ := ih (r.put c.1.1 c.1.2 c.2) hw
      (fun d hd => hc d (List.mem_cons_of_mem _ hd)) hn.2
    refine ⟨h1, h2, h3, fun d hd => ?_, fun x hx y h => ?_⟩
    · rcases List.mem_cons.mp hd with rfl | hd
      · exact (h5 _ h0.1 _ hn.1).trans (by rw [Raster.sample_put hr h0.1 h0.2 h0.1, if_pos ⟨rfl, rfl⟩])
      · exact h4 d hd
    · rw [List.map_cons, List.mem_cons, not_or] at h
      refine (h5 x hx y h.2).trans ?_
      rw [Raster.sample_put hr h0.1 h0.2 hx, if_neg]
      rintro ⟨rfl, rfl⟩
      exact h.1 rfl

/-! ### The positions of a tile -/

theorem length_tilePositions (n : Nat) : (tilePositions n).length = n * n := by
  simp [tilePositions, List.length_flatMap]

theorem mem_tilePositions {n : Nat} {c : Nat × Nat} : c ∈ tilePositions n ↔ c.1 < n ∧ c.2 < n := by
  obtain ⟨i, j⟩ := c
  simp only [tilePositions, List.mem_flatMap, List.mem_map, List.mem_range, Prod.mk.injEq]
  constructor
  · rintro ⟨b, hb, a, ha, rfl, rfl⟩; exact ⟨ha, hb⟩
  · rintro ⟨h1, h2⟩; exact ⟨j, h2, i, h1, rfl, rfl⟩

/-- The positions of a tile are in cell order: position k is that of cell k (R22). -/
theorem getElem_tilePositions {n k : Nat} (h : k < (tilePositions n).length) :
    (tilePositions n)[k] = (k % n, k / n) := by
  have hn : 0 < n := Nat.pos_of_ne_zero (by rintro rfl; simp [tilePositions] at h)
  have key : ∀ m, (List.range m).flatMap (fun j => (List.range n).map fun i => (i, j)) =
      (List.range (m * n)).map fun k => (k % n, k / n) := fun m => by
    induction m with
    | zero => simp
    | succ m ih =>
      rw [List.range_succ, List.flatMap_append, ih, Nat.succ_mul, List.range_add, List.map_append, List.map_map]
      congr 1
      simp only [List.flatMap_cons, List.flatMap_nil, List.append_nil]
      refine List.map_congr_left fun i hi => ?_
      rw [List.mem_range] at hi
      simp [Nat.mod_eq_of_lt hi, Nat.add_comm (m * n), Nat.add_mul_div_right _ _ hn,
        Nat.div_eq_of_lt hi]
  simp only [tilePositions, key n, List.getElem_map, List.getElem_range]

theorem nodup_tilePositions (n : Nat) : (tilePositions n).Nodup := by
  rw [List.nodup_iff_injective_getElem]
  intro ⟨a, ha⟩ ⟨b, hb⟩ h
  simp only [getElem_tilePositions, Prod.mk.injEq] at h
  exact Fin.ext (show a = b by rw [← Nat.mod_add_div a n, ← Nat.mod_add_div b n, h.1, h.2])

/-- Everything the write of a decoded tile does (R132): the sample at (i, j) of the tile is the datum of cell
`idx(i, j)`, and every position outside the tile is as before. -/
theorem Raster.sample_putTile {out : Raster} (hr : out.Whole) {n x0 y0 : Nat} {data : List Data}
    (hl : data.length = n * n) (hx : x0 + n ≤ out.width) (hy : y0 + n ≤ out.height) :
    let t := out.putTile n x0 y0 data
    t.width = out.width ∧ t.height = out.height ∧ t.Whole ∧
      (∀ i < n, ∀ j < n, ∀ d, data[idx n i j]? = some d → t.sample (x0 + i) (y0 + j) = d.setWidth 8) ∧
      ∀ x < out.width, ∀ y, ¬ (x0 ≤ x ∧ x < x0 + n ∧ y0 ≤ y ∧ y < y0 + n) → t.sample x y = out.sample x y := by
  have hp : ((tilePositions n).zip data).map Prod.fst = tilePositions n :=
    List.map_fst_zip (by rw [length_tilePositions, hl])
  have e : out.putTile n x0 y0 data =
      (((tilePositions n).zip data).map fun c => ((x0 + c.1.1, y0 + c.1.2), c.2.setWidth 8)).foldl
        (fun r c => r.put c.1.1 c.1.2 c.2) out := by
    rw [Raster.putTile, List.foldl_map]
  have hf : (((tilePositions n).zip data).map fun c => ((x0 + c.1.1, y0 + c.1.2), c.2.setWidth 8)).map
      (Prod.fst : (Nat × Nat) × BitVec 8 → Nat × Nat) = (tilePositions n).map fun c => (x0 + c.1, y0 + c.2) := by
    rw [List.map_map, ← hp, List.map_map]
    simp only [hp]
    rfl
  obtain ⟨h1, h2, h3, h4, h5⟩ := Raster.sample_puts
    (((tilePositions n).zip data).map fun c => ((x0 + c.1.1, y0 + c.1.2), c.2.setWidth 8)) out hr
    (fun c hc => by
      obtain ⟨d, hd, rfl⟩ := List.mem_map.mp hc
      have := mem_tilePositions.mp (List.of_mem_zip hd).1
      exact ⟨show x0 + d.1.1 < _ by omega, show y0 + d.1.2 < _ by omega⟩)
    (by
      rw [hf]
      refine (nodup_tilePositions n).map fun c d h => ?_
      simp only [Prod.mk.injEq, Nat.add_left_cancel_iff] at h
      exact Prod.ext h.1 h.2)
  rw [← e] at h1 h2 h3 h4 h5
  refine ⟨h1, h2, h3, fun i hi j hj d hd => ?_, fun x hx y h => ?_⟩
  · obtain ⟨hk, rfl⟩ := List.getElem?_eq_some_iff.mp hd
    have hk' : idx n i j < (tilePositions n).length := by rw [length_tilePositions, ← hl]; exact hk
    have hc : (tilePositions n)[idx n i j] = (i, j) := by
      rw [getElem_tilePositions, idx, Nat.mul_add_mod', Nat.mod_eq_of_lt hi, Nat.add_comm,
        Nat.add_mul_div_right _ _ (by omega), Nat.div_eq_of_lt hi, Nat.zero_add]
    refine h4 ((x0 + i, y0 + j), _) (List.mem_map.mpr ⟨((i, j), data[idx n i j]), ?_, rfl⟩)
    rw [List.mem_iff_getElem]
    exact ⟨idx n i j, by rw [List.length_zip]; omega, by rw [List.getElem_zip, hc]⟩
  · refine h5 x hx y fun hm => h ?_
    rw [hf] at hm
    obtain ⟨c, hc, e⟩ := List.mem_map.mp hm
    have := mem_tilePositions.mp hc
    rw [Prod.mk.injEq] at e
    omega

end Sys2Proof.Machine
end

