-- ==== Sys2Proof/Laws/PerInstr.lean ====
section
/-! SUPPORT. Statements made per instruction, about the instruction as syntax. The family `WordShape`: the word of a
command has the shape of format C (spec/30_encoding.md rules R64, R65). -/

namespace Sys2Proof.Laws.WordShape

/-- The word of a command is well formed and has only its low four bits in use. -/
def Statement (i : Instr) : Prop :=
  i.wellFormed = true ∧ commandWord (encode i) = true ∧ (encode i).toNat < 16

theorem ldpx : Statement .ldpx := by unfold Statement; decide
theorem fdct : Statement .fdct := by unfold Statement; decide
theorem qnt : Statement .qnt := by unfold Statement; decide
theorem zzf : Statement .zzf := by unfold Statement; decide
theorem rle : Statement .rle := by unfold Statement; decide
theorem stpx : Statement .stpx := by unfold Statement; decide
theorem idct : Statement .idct := by unfold Statement; decide
theorem dqt : Statement .dqt := by unfold Statement; decide
theorem zzu : Statement .zzu := by unfold Statement; decide
theorem rld : Statement .rld := by unfold Statement; decide

end Sys2Proof.Laws.WordShape
end

