-- ==== Sys2Proof/Laws/Port.lean ====
section
/-! SUPPORT. What the host port can do, said once (spec/20_memory.md rules R41, R45 to R52): the address map, and the
answers of each kind of transaction. -/

namespace Sys2Proof.Machine

/-! ### The address map -/

theorem regAt_ne_cell (offset : Nat) (b : BufId) (k : Nat) : regAt offset ≠ .cell b k := by
  unfold regAt; split <;> simp

/-- A cell address names a cell below 256 (R41). -/
theorem place_cell_lt {a : Addr} {b : BufId} {k : Nat} (h : place a = .cell b k) : k < 256 := by
  have hk : (a.extractLsb' 0 8).toNat < 256 := (a.extractLsb' 0 8).isLt
  simp only [place] at h
  split at h <;> first
    | exact absurd h (regAt_ne_cell _ _ _)
    | (cases h; exact hk)
    | cases h

/-! ### Buffers by name -/

theorem State.buffer_setBuffer (s : State) (b : BufId) (cells : Buffer b.width) :
    (s.setBuffer b cells).buffer b = cells := by cases b <;> rfl

theorem State.buffer_setBuffer_other (s : State) {b c : BufId} (cells : Buffer b.width) (h : b ≠ c) :
    (s.setBuffer b cells).buffer c = s.buffer c := by
  cases b <;> cases c <;> first | rfl | exact absurd rfl h

@[simp] theorem State.setBuffer_n (s : State) (b : BufId) (cells : Buffer b.width) :
    (s.setBuffer b cells).n = s.n := by cases b <;> rfl

@[simp] theorem State.setBuffer_extent (s : State) (b : BufId) (cells : Buffer b.width) :
    (s.setBuffer b cells).extent = s.extent := by cases b <;> rfl

@[simp] theorem State.setBuffer_limit (s : State) (b c : BufId) (cells : Buffer b.width) :
    (s.setBuffer b cells).limit c = s.limit c := by cases b <;> rfl

/-- The registers and the port of a state are untouched by a cell write. -/
theorem State.setBuffer_registers (s : State) (b : BufId) (cells : Buffer b.width) :
    (s.setBuffer b cells).bsize = s.bsize ∧ (s.setBuffer b cells).rlen = s.rlen ∧
      (s.setBuffer b cells).err = s.err ∧ (s.setBuffer b cells).ecmd = s.ecmd ∧
      (s.setBuffer b cells).pending = s.pending ∧ (s.setBuffer b cells).answers = s.answers := by
  cases b <;> exact ⟨rfl, rfl, rfl, rfl, rfl, rfl⟩

/-! ### Port images -/

/-- A value comes back from its port image (R42, R50). -/
theorem ofPort_portImage (b : BufId) (v : BitVec b.width) : ofPort b (portImage b v) = some v := by
  have h : (portImage b v).setWidth b.width = v := by
    unfold portImage
    split
    · apply BitVec.eq_of_getLsbD_eq
      intro i hi
      have : b.width ≤ 64 := by cases b <;> decide
      simp only [BitVec.getLsbD_setWidth, BitVec.getLsbD_signExtend, hi, show i < 64 by omega, decide_true,
        Bool.true_and, if_true]
    · have : b.width ≤ 64 := by cases b <;> decide
      rw [BitVec.setWidth_setWidth_of_le _ this, BitVec.setWidth_eq]
  simp [ofPort, h]

/-- The value of accepted write data has that data as its port image (R50). -/
theorem portImage_of_ofPort {b : BufId} {d : Data} {v : BitVec b.width} (h : ofPort b d = some v) :
    portImage b v = d := by
  simp only [ofPort] at h
  split at h
  · cases h; assumption
  · cases h

/-! ### Reads -/

/-- Everything a read can do: it answers, with data or with a code, and changes nothing else (R52). -/
theorem hostRead_cases (a : Addr) (s : State) :
    (∃ d, hostRead a s = s.respondData d) ∨
      ∃ r, r ∈ [Response.access, .invalid, .unmapped] ∧ hostRead a s = s.respond r := by
  unfold hostRead
  split
  · rename_i r _
    cases r <;> first
      | exact .inl ⟨_, rfl⟩
      | exact .inr ⟨.access, by simp, rfl⟩
  · unfold readCell
    split
    · split
      · exact .inl ⟨_, rfl⟩
      · exact .inr ⟨.invalid, by simp, rfl⟩
    · exact .inr ⟨.unmapped, by simp, rfl⟩
  · exact .inr ⟨.unmapped, by simp, rfl⟩

/-! ### Commands at the port -/

/-- Everything a command write can do: refused, illegal, or a command performed. -/
theorem performWord_cases (w : CmdWord) (s : State) :
    (∃ i, decode w = .ok i ∧ performWord w s = exec i s) ∨
      (∃ r, decode w = .error r) ∧ performWord w s = illegalWord w s := by
  unfold performWord
  rcases h : decode w with r | i
  · exact .inr ⟨⟨r, rfl⟩, rfl⟩
  · exact .inl ⟨i, rfl, rfl⟩

theorem illegalWord_locked {w : CmdWord} {s : State} (h : s.err ≠ none) :
    illegalWord w s = .next (s.respond .locked) := by unfold illegalWord unlessLocked; rw [if_neg h]

theorem illegalWord_unlocked {w : CmdWord} {s : State} (h : s.err = none) :
    illegalWord w s = .next (s.raise .illCmd w) := by unfold illegalWord unlessLocked; rw [if_pos h]

/-! ### Memory -/

/-- The memory of the reset state is in canonical form. -/
theorem reset_memory_wf : Memory.wf State.reset := by decide

end Sys2Proof.Machine
end

