-- ==== Sys2Proof/Laws/RunLength.lean ====
section
/-! SUPPORT. Small laws of the run-length code (spec/44_rle.md rules R109, R113). -/

namespace Sys2Proof.Machine

@[simp] theorem rleDecode_nil {α : Type} : rleDecode ([] : List (α × Nat)) = [] := rfl

@[simp] theorem rleDecode_cons {α : Type} (c : α × Nat) (rest : List (α × Nat)) :
    rleDecode (c :: rest) = List.replicate c.2 c.1 ++ rleDecode rest := rfl

@[simp] theorem countSum_nil {α : Type} : countSum ([] : List (α × Nat)) = 0 := rfl

@[simp] theorem countSum_cons {α : Type} (c : α × Nat) (rest : List (α × Nat)) :
    countSum (c :: rest) = c.2 + countSum rest := rfl

/-- The result of `rle_decode` has length the sum of the counts (R113). -/
theorem length_rleDecode {α : Type} (pairs : List (α × Nat)) : (rleDecode pairs).length = countSum pairs := by
  induction pairs with
  | nil => rfl
  | cons c rest ih => simp [ih]

@[simp] theorem rleEncode_nil {α : Type} [DecidableEq α] : rleEncode ([] : List α) = [] := rfl

@[simp] theorem rleEncode_cons {α : Type} [DecidableEq α] (x : α) (rest : List α) :
    rleEncode (x :: rest) = rleLoop x 1 rest := rfl

theorem rleLoop_cons {α : Type} [DecidableEq α] (val : α) (cnt : Nat) (x : α) (rest : List α) :
    rleLoop val cnt (x :: rest) =
      if x = val then rleLoop val (cnt + 1) rest else (val, cnt) :: rleLoop x 1 rest := rfl

end Sys2Proof.Machine
end

