-- ==== Sys2Proof/Laws/Zigzag.lean ====
section
/-! SUPPORT. Small laws of the zigzag scan (spec/43_zigzag.md rule R100): which positions a diagonal and the scan hold,
and that every index of the scan lies inside the extent. -/

namespace Sys2Proof.Machine

theorem mem_diagonalAscending {n i u : Nat} :
    u ∈ diagonalAscending n i ↔ i + 1 - n ≤ u ∧ u ≤ min i (n - 1) := by
  simp only [diagonalAscending, List.mem_map, List.mem_range]
  constructor
  · rintro ⟨j, hj, rfl⟩; omega
  · rintro ⟨h1, h2⟩; exact ⟨u - (i + 1 - n), by omega, by omega⟩

theorem mem_diagonal {n i : Nat} {c : Nat × Nat} :
    c ∈ diagonal n i ↔ (i + 1 - n ≤ c.1 ∧ c.1 ≤ min i (n - 1)) ∧ c.2 = i - c.1 := by
  obtain ⟨u, v⟩ := c
  unfold diagonal
  split <;> simp only [List.mem_map, List.mem_reverse, mem_diagonalAscending, Prod.mk.injEq] <;>
  · constructor
    · rintro ⟨w, hw, rfl, rfl⟩; exact ⟨hw, rfl⟩
    · rintro ⟨hw, rfl⟩; exact ⟨u, hw, rfl, rfl⟩

/-- The scan holds exactly the N² positions (R100). -/
theorem mem_scanOrder {n : Nat} {c : Nat × Nat} : c ∈ scanOrder n ↔ c.1 < n ∧ c.2 < n := by
  simp only [scanOrder, List.mem_flatMap, List.mem_range, mem_diagonal]
  constructor
  · rintro ⟨i, hi, h, e⟩; omega
  · rintro ⟨h1, h2⟩; exact ⟨c.1 + c.2, by omega, by omega, by omega⟩

theorem idx_lt {n a b : Nat} (ha : a < n) (hb : b < n) : idx n a b < n * n := by
  unfold idx
  calc b * n + a < b * n + n := by omega
    _ = (b + 1) * n := by ring
    _ ≤ n * n := Nat.mul_le_mul_right n hb

theorem zidx_lt {n j : Nat} (h : j ∈ zidx n) : j < n * n := by
  obtain ⟨c, hc, rfl⟩ := List.mem_map.mp h
  obtain ⟨h1, h2⟩ := mem_scanOrder.mp hc
  exact idx_lt h1 h2

end Sys2Proof.Machine
end

