-- ==== Sys2Proof/Tests/Slice0.lean ====
section
/-! SUPPORT. Tests of the model and, for every obligation with hypotheses, a witness that meets them. The expected
results come from spec/95_test_vectors.md and from the rules; the comment over each test names its source. -/

namespace Sys2Proof.Tests

open Sys2Proof.Machine Sys2Proof.Claims

-- One test after another: each kernel evaluation would otherwise hold a thread and its stack while it waits.
set_option Elab.async false

/-! ### Helpers -/

/-- A buffer whose cells 0, 1, 2, ... hold the given values. -/
def cellsOf {w : Nat} (values : List (BitVec w)) : Buffer w := Buffer.fill [] values

/-- The reset state with another block size. -/
def sized (n : BitVec 5) : State := { State.reset with bsize := n }

/-- The answer a result gives. -/
def answerOf (r : Result) : Option Answer :=
  match r with
  | .next t => t.answers.head?
  | .fault _ => none
  | .refused _ => none

/-- Something of the next state. -/
def ofNext {α : Type} (r : Result) (f : State → α) : Option α :=
  match r with
  | .next t => some (f t)
  | .fault _ => none
  | .refused _ => none

/-- N = 1, one value in every buffer, one pair in the stream. -/
def ready : State :=
  { State.reset with
    bsize := 1, p := [(0, 255)], x := [(0, 0x406FE00000000000)], f := [(0, 0x4099000000000000)],
    q := [(0, 0x8000)], z := [(0, 0x8000)], rv := [(0, 7)], rc := [(0, 1)], rlen := 1 }

/-- N = 1 with the same cell in `X` and in `F`. -/
def withReal (c : F64) : State := { ready with x := [(0, c)], f := [(0, c)] }

/-- An engine locked by an illegal word. -/
def lockedState : State := { ready with err := some .illCmd, ecmd := 6 }

/-! ### Well-formedness and decoding -/

/-- R65: an ill-formed word for each check: `zero` not 0, `stage` 0, `stage` 6, `stage` 7. -/
theorem test_commandWord_refuses :
    commandWord 0x00000011 = false ∧ commandWord 0x80000001 = false ∧ commandWord 0x00000008 = false ∧
      commandWord 0x00000006 = false ∧ commandWord 0x0000000F = false := by decide

/-- R64: write data with bit 32 set is no command word, 0xFFFFFFFF is one. -/
theorem test_commandData_refuses : commandData 0x100000001 = false ∧ commandData 0xFFFFFFFF = true := by decide

/-- R65, R66: `zero` = 0, `dir` = 0, `stage` = 001 is LDPX, and with `dir` = 1 it is STPX. -/
theorem test_decode_sample :
    decode 0b00000000000000000000000000000001 = .ok .ldpx ∧
      decode 0b00000000000000000000000000001001 = .ok .stpx := by decide

/-- R65, R66: `stage` = 010. -/
theorem test_decode_transform :
    decode 0b00000000000000000000000000000010 = .ok .fdct ∧
      decode 0b00000000000000000000000000001010 = .ok .idct := by decide

/-- R65, R66: `stage` = 011. -/
theorem test_decode_quantizer :
    decode 0b00000000000000000000000000000011 = .ok .qnt ∧
      decode 0b00000000000000000000000000001011 = .ok .dqt := by decide

/-- R65, R66: `stage` = 100. -/
theorem test_decode_zigzag :
    decode 0b00000000000000000000000000000100 = .ok .zzf ∧
      decode 0b00000000000000000000000000001100 = .ok .zzu := by decide

/-- R65, R66: `stage` = 101. -/
theorem test_decode_runlength :
    decode 0b00000000000000000000000000000101 = .ok .rle ∧
      decode 0b00000000000000000000000000001101 = .ok .rld := by decide

/-- R69, V22: the illegal words that the spec lists, each with the reason. -/
theorem test_decode_illegal :
    decode 0x0 = .error .stage ∧ decode 0x8 = .error .stage ∧ decode 0x6 = .error .stage ∧
      decode 0x7 = .error .stage ∧ decode 0xE = .error .stage ∧ decode 0xF = .error .stage ∧
      decode 0x10 = .error .zeroField ∧ decode 0x11 = .error .zeroField ∧
      decode 0x80000001 = .error .zeroField ∧ decode 0xFFFFFFFF = .error .zeroField := by decide

/-! ### One step of each command -/

/-- V16: 0 1 200 255 become 0.0 1.0 200.0 255.0, by the patterns printed there. -/
theorem test_ldpx :
    ofNext (exec .ldpx { sized 2 with p := cellsOf [0, 1, 200, 255] }) (fun t => t.x.cells 4) =
      some (some [0x0, 0x3FF0000000000000, 0x4069000000000000, 0x406FE00000000000]) := by decide +kernel

/-- R118 and R143: an empty sample is `E_EMPTY`; `ERR` and `ECMD` are latched and `X` stays empty. -/
theorem test_ldpx_empty :
    ofNext (exec .ldpx { sized 2 with p := cellsOf [0, 1, 200] }) (fun t => (t.err, t.ecmd, t.x)) =
      some (some .empty, 1, []) := by decide +kernel

/-- V6: exactly 2^31 is allowed. -/
theorem test_fdct_limit :
    answerOf (exec .fdct { sized 2 with x := cellsOf [0, 0, 0, 0x41E0000000000000] }) = some (code .ok) := by
  decide +kernel

/-- V6: 2147483649.0, above 2^31, is `E_NUM`, and `F` stays empty. -/
theorem test_fdct_above_limit :
    ofNext (exec .fdct { sized 2 with x := cellsOf [0, 0, 0, 0x41E0000000200000] })
      (fun t => (t.err, t.ecmd, t.f)) = some (some .num, 2, []) := by decide +kernel

/-- V8: 127.5 1600.0 -1600.0 128.0 become 128 127 -128 127: the DC cell keeps 128. -/
theorem test_qnt_saturates :
    ofNext (exec .qnt { sized 2 with
      f := cellsOf [0x405FE00000000000, 0x4099000000000000, 0xC099000000000000, 0x4060000000000000] })
      (fun t => (t.q.cells 4).map (·.map BitVec.toInt)) = some (some [128, 127, -128, 127]) := by decide +kernel

/-- V7: 0.5 -0.5 2.5 -2.5 become 1 -1 3 -3: ties away from zero. -/
theorem test_qnt_ties :
    ofNext (exec .qnt { sized 2 with
      f := cellsOf [0x3FE0000000000000, 0xBFE0000000000000, 0x4004000000000000, 0xC004000000000000] })
      (fun t => (t.q.cells 4).map (·.map BitVec.toInt)) = some (some [1, -1, 3, -3]) := by decide +kernel

/-- V10: with N = 3 and `Q[k]` = k, `Z` spells the scan. -/
theorem test_zzf :
    ofNext (exec .zzf { sized 3 with q := cellsOf [0, 1, 2, 3, 4, 5, 6, 7, 8] }) (fun t => t.z.cells 9) =
      some (some [0, 1, 3, 6, 4, 2, 5, 7, 8]) := by decide +kernel

/-- V13: 5 5 0 0 become (5,2) (0,2), and pair 2 of an older stream is empty afterwards. -/
theorem test_rle :
    ofNext (exec .rle { sized 2 with z := cellsOf [5, 5, 0, 0], rv := cellsOf [1, 2, 3], rc := cellsOf [1, 1, 2] })
      (fun t => (t.rlen, t.rv, t.rc)) = some (2, [(0, 5), (1, 0)], [(0, 2), (1, 2)]) := by decide +kernel

/-- V16: -0.5 254.5 255.5 -0.0 become 0 255 255 0. -/
theorem test_stpx :
    ofNext (exec .stpx { sized 2 with
      x := cellsOf [0xBFE0000000000000, 0x406FD00000000000, 0x406FF00000000000, 0x8000000000000000] })
      (fun t => t.p.cells 4) = some (some [0, 255, 255, 0]) := by decide +kernel

/-- R120 and R81: an infinity is `E_NUM`, the command word 9 is latched, `P` is untouched. -/
theorem test_stpx_infinity :
    ofNext (exec .stpx (withReal 0x7FF0000000000000)) (fun t => (t.err, t.ecmd, t.p)) =
      some (some .num, 9, [(0, 255)]) := by decide +kernel

/-- V6: -4294967296.0 in `F` is `E_NUM` with `ECMD` = 0xA. -/
theorem test_idct_above_limit :
    ofNext (exec .idct { sized 2 with f := cellsOf [0, 0, 0, 0xC1F0000000000000] })
      (fun t => (t.err, t.ecmd, t.x)) = some (some .num, 0xA, []) := by decide +kernel

/-- V4: `F` = 6.0 0.0 0.0 0.0 is accepted. -/
theorem test_idct_ok :
    answerOf (exec .idct { sized 2 with f := cellsOf [0x4018000000000000, 0, 0, 0] }) = some (code .ok) := by
  decide +kernel

/-- V9: 1600 -128 127 0 become the patterns printed there. -/
theorem test_dqt :
    ofNext (exec .dqt { sized 2 with q := cellsOf [1600, -128, 127, 0] }) (fun t => t.f.cells 4) =
      some (some [0x4099000000000000, 0xC060000000000000, 0x405FC00000000000, 0x0]) := by decide +kernel

/-- V9: -32768 32767 -300 300 are accepted, by the values read back. -/
theorem test_dqt_wide :
    ofNext (exec .dqt { sized 2 with q := cellsOf [0x8000, 0x7FFF, -300, 300] })
      (fun t => (t.f.cells 4).map (·.map F64.val)) = some (some [-32768, 32767, -300, 300]) := by decide +kernel

/-- V11: with N = 3 and `Z[k]` = k, `Q[ZIDX_3[k]]` = k. -/
theorem test_zzu :
    ofNext (exec .zzu { sized 3 with z := cellsOf [0, 1, 2, 3, 4, 5, 6, 7, 8] }) (fun t => t.q.cells 9) =
      some (some [0, 1, 5, 2, 4, 6, 3, 7, 8]) := by decide +kernel

/-- V14: (4,0) (5,2) (5,1) (0,0) (6,1) is accepted and reads 5 5 5 6. -/
theorem test_rld :
    ofNext (exec .rld { sized 2 with rv := cellsOf [4, 5, 5, 0, 6], rc := cellsOf [0, 2, 1, 0, 1], rlen := 5 })
      (fun t => t.z.cells 4) = some (some [5, 5, 5, 6]) := by decide +kernel

/-- V15: (1,65535) (2,5) is `E_RLESUM`; a 16-bit adder would wrap the sum to 4. -/
theorem test_rld_no_wrap :
    ofNext (exec .rld { sized 2 with rv := cellsOf [1, 2], rc := cellsOf [65535, 5], rlen := 2 })
      (fun t => (t.err, t.ecmd, t.z)) = some (some .rleSum, 0xD, []) := by decide +kernel

/-! ### The port -/

/-- V21: 0x8000 and 0xFFFF are no sign-extended 16-bit values, 0xFFFFFFFFFFFF8000 is. -/
theorem test_write_signed_cell :
    answerOf (hostWrite 0x400 0x8000 State.reset) = some (code .range) ∧
      answerOf (hostWrite 0x400 0xFFFF State.reset) = some (code .range) ∧
      ofNext (hostWrite 0x400 0xFFFFFFFFFFFF8000 State.reset) (·.q) = some [(0, 0x8000)] := by decide +kernel

/-- V21: `P[0]` takes 255 and refuses 256; `P[64]` is outside the extent of N = 8. -/
theorem test_write_sample :
    answerOf (hostWrite 0x100 255 State.reset) = some (code .ok) ∧
      answerOf (hostWrite 0x100 256 State.reset) = some (code .range) ∧
      answerOf (hostWrite 0x140 0 State.reset) = some (code .unmapped) := by decide +kernel

/-- V21: `STATUS` reads 0x0000 when `RLEN` is 256 and the pairs are empty; V22: 0x2011 after an illegal word. -/
theorem test_status :
    statusWord { State.reset with rlen := 256 } = 0x0000 ∧
      statusWord { State.reset with err := some .illCmd, ecmd := 6 } = 0x2011 := by decide +kernel

/-- V22: bits above 31 of the data of `CMD` are refused even while locked; then the lock. -/
theorem test_locked :
    answerOf (hostWrite 0x000 0x100000001 lockedState) = some (code .range) ∧
      answerOf (hostWrite 0x000 0x0 lockedState) = some (code .locked) := by decide +kernel

/-- V22: `WR CTRL, 3` is the soft reset: it wins over the clearing, and empties the cells. -/
theorem test_ctrl_both :
    ofNext (hostWrite 0x002 3 lockedState) (fun t => (t.err, t.bsize, t.p)) = some (none, 8, []) := by
  decide +kernel

/-- V23: a write of `BSIZE` empties the cells and does not touch the latch. -/
theorem test_bsize_keeps_latch :
    ofNext (hostWrite 0x003 4 lockedState) (fun t => (t.bsize, t.p, t.err)) =
      some (4, [], some .illCmd) := by decide +kernel

/-- V23: with N = 2, `P[3]` is mapped and `P[4]` is not. -/
theorem test_extent :
    answerOf (hostWrite 0x103 9 (sized 2)) = some (code .ok) ∧
      answerOf (hostWrite 0x104 9 (sized 2)) = some (code .unmapped) := by decide +kernel

/-- R134 and D30: an offset left of the raster is rejected, aligned (-8) or not (-3); R127: so is a negative N. -/
theorem test_negative_fields :
    decodeBlock { n := 8, w := 8, h := 8, blocks := [] } (Raster.blank 8 8) { x := -8, y := 0, pairs := [] }
        State.reset = .failed .offset State.reset ∧
      decodeBlock { n := 8, w := 8, h := 8, blocks := [] } (Raster.blank 8 8) { x := 0, y := -3, pairs := [] }
        State.reset = .failed .offset State.reset ∧
      decodePass { n := -8, w := 8, h := 8, blocks := [] } State.reset = .failed .shape State.reset := by
  decide +kernel

/-- R50: a datum that is no port image of a value of an unsigned cell is refused, here that of `WR RC[0], -1` and
`WR P[0], -1` (log entry 22). -/
theorem test_negative_values :
    answerOf (perform (wrCell .rc 0 (-1)) State.reset) = some (code .range) ∧
      answerOf (perform (wrCell .p 0 (-1)) State.reset) = some (code .range) := by decide +kernel

/-- Log entry 19: a count beyond 64 bits ends the pass before its block is loaded, a count of 17 bits at the port. -/
theorem test_wide_counts :
    decodeBlock { n := 8, w := 8, h := 8, blocks := [] } (Raster.blank 8 8)
        { x := 0, y := 0, pairs := [(0, 2 ^ 64 + 64)] } State.reset = .failed .unwritable State.reset ∧
      answerOf (perform (wrCell .rc 0 65536) State.reset) = some (code .range) := by decide +kernel

/-- R139: a pass with no tile over a locked engine issues nothing that fails, and has not succeeded. -/
theorem test_locked_pass_has_not_succeeded (image : EncodedImage) (t : State) :
    ¬ EncodeSucceeded (Raster.blank 0 0) 8 lockedState image t := by
  rintro ⟨h, -, he, -⟩
  injection (show encodePass (Raster.blank 0 0) 8 lockedState = .done _ _ from rfl).symm.trans h with _ ht
  subst ht
  exact absurd he (by decide)

/-- S8: the tiles of a 16 by 16 raster at N = 8. -/
theorem test_tiles : tiles 8 16 16 = [(0, 0), (0, 8), (8, 0), (8, 8)] := by decide +kernel

/-- P4: a 12 by 16 raster fails the shape check at N = 8. -/
theorem test_shape : shapeOk 8 12 16 = false ∧ shapeOk 8 16 16 = true := by decide +kernel

/-! ### Witnesses: the hypotheses of every obligation that has some are met -/

/-- A buffer none of whose cells below `n` fails the numeric check of a transform. -/
theorem not_unfit {b : Buffer 64} {n : Nat} (h : ∀ k < n, (b.get k).all F64.transformable = true) :
    ¬ HasUnfit b n := by
  rintro ⟨k, hk, c, hc, hb⟩
  have hv := h k hk
  rw [hc] at hv
  simp only [Option.all_some, F64.transformable, F64.finite, Bool.and_eq_true, bne_iff_ne, ne_eq,
    decide_eq_true_eq] at hv
  exact hb.elim hv.1 (fun hlt => absurd hlt (not_lt.mpr hv.2))

/-- A buffer all of whose cells below `n` are finite. -/
theorem not_nonFinite {b : Buffer 64} {n : Nat} (h : ∀ k < n, (b.get k).all F64.finite = true) :
    ¬ HasNonFinite b n := by
  rintro ⟨k, hk, c, hc, hb⟩
  have hv := h k hk
  rw [hc] at hv
  simp only [Option.all_some, F64.finite, bne_iff_ne, ne_eq] at hv
  exact hv hb

/-- Some result is a next state with a property. -/
theorem next_of_ofNext {r : Result} {f : State → Bool} (h : ofNext r f = some true) :
    ∃ t : State, r = .next t ∧ f t = true := by
  cases r with
  | next t => exact ⟨t, rfl, by simpa [ofNext] using h⟩
  | fault f => exact nomatch h
  | refused r => exact nomatch h

theorem test_witness_DecodeReadsExactlyTheOpcodeMap :
    decode 0x00000001 = .ok .ldpx ∧ decode 0x0000000D = .ok .rld := by decide

/-- Both disjuncts, at the words next to the legal ones. -/
theorem test_witness_IllegalWordsRaiseIllcmd :
    State.reset.err = none ∧ ((0x0 : CmdWord).extractLsb' 0 3).toNat ∈ [0, 6, 7] ∧
      ((0xE : CmdWord).extractLsb' 0 3).toNat ∈ [0, 6, 7] ∧
      ((0xF : CmdWord).extractLsb' 0 3).toNat ∈ [0, 6, 7] ∧ (0x11 : CmdWord).extractLsb' 4 28 ≠ 0 := by decide

theorem test_witness_StepRunsTheDecodedCommand :
    { ready with pending := [.write 0x000 0xD] }.pending = .write 0x000 0xD :: [] ∧
      (0xD : Data).extractLsb' 32 32 = 0 ∧ decode ((0xD : Data).extractLsb' 0 32) = .ok .rld ∧
      decodeTableWord 32 0x9 = some .stpx ∧ decodeTableWord 8 0x1 = some .ldpx ∧ State.reset.pending = [] := by
  decide

theorem test_witness_EveryTransactionIsAnswered :
    { ready with pending := [.read 0x001] }.pending = .read 0x001 :: [] ∧ HostEvent.read 0x001 ≠ .hardReset ∧
      { ready with pending := [.hardReset] }.pending = .hardReset :: [] := by decide

theorem test_witness_ResetValues :
    (1 : Data).extractLsb' 2 62 = 0 ∧ (1 : Data).getLsbD 0 = true ∧
      (3 : Data).extractLsb' 2 62 = 0 ∧ (3 : Data).getLsbD 0 = true := by decide

theorem test_ready_inv : EngineInv ready := by unfold EngineInv; decide +kernel

theorem test_witness_StepKeepsTheInvariants :
    EngineInv { ready with pending := [.write 0x000 0x4] } ∧
      ∃ t : State, step { ready with pending := [.write 0x000 0x4] } = .next t := by
  refine ⟨by unfold EngineInv; decide +kernel, ?_⟩
  obtain ⟨t, ht, -⟩ := next_of_ofNext
    (r := step { ready with pending := [.write 0x000 0x4] }) (f := fun _ => true) (by decide +kernel)
  exact ⟨t, ht⟩

theorem test_witness_ReachableStatesMeetTheInvariants :
    ∃ t : State, Host.Core.run Sys2Proof.core 1 { State.reset with pending := [.write 0x003 2] } = .next t :=
  ⟨_, rfl⟩

theorem test_witness_LockedEngineRefusesEveryCommand : lockedState.err ≠ none := by decide

theorem test_witness_ErrorEntryLatchesAndChangesNothingElse :
    ∃ t : State, hostWrite 0x000 ((0x6 : CmdWord).setWidth 64) ready = .next t ∧ t.err ≠ ready.err := by
  obtain ⟨t, ht, h⟩ := next_of_ofNext (r := hostWrite 0x000 ((0x6 : CmdWord).setWidth 64) ready)
    (f := fun t => t.err != ready.err) (by decide +kernel)
  exact ⟨t, ht, by simpa using h⟩

/-- Each of the five outcomes, the transform at its bound 2^31 and just above it. -/
theorem test_witness_CommandErrorsInPriorityOrder :
    lockedState.err ≠ none ∧
    (State.reset.err = none ∧ sourceFull .fdct State.reset = false) ∧
    (sourceFull .fdct (withReal 0x41E0000000200000) = true ∧ NumericFails .fdct (withReal 0x41E0000000200000)) ∧
    (sourceFull .rld { ready with rc := [(0, 2)] } = true ∧ ¬ NumericFails .rld { ready with rc := [(0, 2)] } ∧
      SumFails .rld { ready with rc := [(0, 2)] }) ∧
    (sourceFull .fdct (withReal 0x41E0000000000000) = true ∧ ¬ NumericFails .fdct (withReal 0x41E0000000000000) ∧
      ¬ SumFails .fdct (withReal 0x41E0000000000000)) := by
  refine ⟨by decide, by decide +kernel, ⟨by decide +kernel, ⟨0, by decide, 0x41E0000000200000, rfl, ?_⟩⟩,
    ⟨by decide +kernel, id, rfl, by decide +kernel⟩, by decide +kernel,
    not_unfit (by decide +kernel), fun h => nomatch h.1⟩
  exact .inr (by decide +kernel)

theorem test_witness_OnlyThreeEventsWriteTheLatch :
    (∃ t : State, perform (.write 0x002 2) lockedState = .next t ∧
      ¬ (t.err = lockedState.err ∧ t.ecmd = lockedState.ecmd)) ∧
    ∃ t : State, perform (.write 0x000 0x6) ready = .next t ∧ ¬ (t.err = ready.err ∧ t.ecmd = ready.ecmd) := by
  constructor
  · obtain ⟨t, ht, h⟩ := next_of_ofNext (r := perform (.write 0x002 2) lockedState)
      (f := fun t => t.err != lockedState.err) (by decide +kernel)
    exact ⟨t, ht, fun hc => absurd hc.1 (by simpa using h)⟩
  · obtain ⟨t, ht, h⟩ := next_of_ofNext (r := perform (.write 0x000 0x6) ready)
      (f := fun t => t.err != ready.err) (by decide +kernel)
    exact ⟨t, ht, fun hc => absurd hc.1 (by simpa using h)⟩

/-- An unfit cell just above 2^31 for the transforms, a NaN for `QNT` and an infinity for `STPX`. -/
theorem test_witness_UnfitRealsRaiseNum :
    ((withReal 0x41E0000000200000).x.full 1 = true ∧ HasUnfit (withReal 0x41E0000000200000).x 1) ∧
    ((withReal 0xC1E0000000200000).f.full 1 = true ∧ HasUnfit (withReal 0xC1E0000000200000).f 1) ∧
    ((withReal 0x7FF8000000000000).f.full 1 = true ∧ HasNonFinite (withReal 0x7FF8000000000000).f 1) ∧
    ((withReal 0xFFF0000000000000).x.full 1 = true ∧ HasNonFinite (withReal 0xFFF0000000000000).x 1) ∧
    (withReal 0x7FF8000000000000).err = none ∧ (withReal 0x7FF8000000000000).extent = 1 :=
  ⟨⟨by decide +kernel, 0, by decide, _, rfl, .inr (by decide +kernel)⟩,
    ⟨by decide +kernel, 0, by decide, _, rfl, .inr (by decide +kernel)⟩,
    ⟨by decide +kernel, 0, by decide, _, rfl, by decide⟩,
    ⟨by decide +kernel, 0, by decide, _, rfl, by decide⟩, by decide, by decide⟩

/-- The smallest subnormal is finite (R81), and the bound 2^31 itself fits a transform. -/
theorem test_witness_UnfitRealsRaiseNum_completes :
    ((withReal 0x0000000000000001).f.full 1 = true ∧ ¬ HasNonFinite (withReal 0x0000000000000001).f 1) ∧
    (withReal 0x41E0000000000000).x.full 1 = true ∧ ¬ HasUnfit (withReal 0x41E0000000000000).x 1 := by
  refine ⟨⟨by decide +kernel, ?_⟩, by decide +kernel, ?_⟩
  · rintro ⟨k, hk, c, hc, h⟩
    obtain rfl : k = 0 := by omega
    cases hc
    exact absurd h (by decide)
  · rintro ⟨k, hk, c, hc, h⟩
    obtain rfl : k = 0 := by omega
    cases hc
    exact absurd h (by decide +kernel)

/-- A command that completes, one that raises an error and one that is refused. -/
theorem test_witness_CommandsWriteOnlyTheirDestination :
    (∃ t : State, exec .rle ready = .next t ∧ t.answers = code .ok :: ready.answers) ∧
    (∃ t : State, exec .rle State.reset = .next t ∧ t.answers = code (.error .empty) :: State.reset.answers) ∧
    ∃ t : State, exec .rle lockedState = .next t ∧ t.answers = code .locked :: lockedState.answers := by
  refine ⟨?_, ?_, ?_⟩
  · obtain ⟨t, ht, h⟩ := next_of_ofNext (r := exec .rle ready)
      (f := fun t => t.answers == code .ok :: ready.answers) (by decide +kernel)
    exact ⟨t, ht, by simpa using h⟩
  · obtain ⟨t, ht, h⟩ := next_of_ofNext (r := exec .rle State.reset)
      (f := fun t => t.answers == code (.error .empty) :: State.reset.answers) (by decide +kernel)
    exact ⟨t, ht, by simpa using h⟩
  · obtain ⟨t, ht, h⟩ := next_of_ofNext (r := exec .rle lockedState)
      (f := fun t => t.answers == code .locked :: lockedState.answers) (by decide +kernel)
    exact ⟨t, ht, by simpa using h⟩

theorem test_witness_LdpxConvertsEverySample :
    ready.err = none ∧ ready.p.full ready.extent = true ∧ State.reset.p.full State.reset.extent = false := by
  decide +kernel

theorem test_witness_StpxRoundsAndSaturates :
    (State.reset.err = none ∧ State.reset.x.full State.reset.extent = false) ∧
    ((withReal 0x7FF0000000000000).err = none ∧
      (withReal 0x7FF0000000000000).x.full (withReal 0x7FF0000000000000).extent = true ∧
      HasNonFinite (withReal 0x7FF0000000000000).x (withReal 0x7FF0000000000000).extent) ∧
    (withReal 0x7FEFFFFFFFFFFFFF).err = none ∧
      (withReal 0x7FEFFFFFFFFFFFFF).x.full (withReal 0x7FEFFFFFFFFFFFFF).extent = true ∧
      ¬ HasNonFinite (withReal 0x7FEFFFFFFFFFFFFF).x (withReal 0x7FEFFFFFFFFFFFFF).extent :=
  ⟨by decide +kernel, ⟨by decide, by decide +kernel, 0, by decide, _, rfl, by decide⟩, by decide,
    by decide +kernel, not_nonFinite (by decide +kernel)⟩

theorem test_witness_SamplesSurviveLdpxThenStpx :
    ready.err = none ∧ ready.p.full ready.extent = true ∧ ready.x.full ready.extent = true ∧
      ¬ HasNonFinite ready.x ready.extent :=
  ⟨by decide, by decide +kernel, by decide +kernel, not_nonFinite (by decide +kernel)⟩

/-- A tie: 5/2 is 1/2 away from the integer it rounds to. -/
theorem test_witness_RoundingIsNearestTiesAway : |(rhaz (5 / 2) : ℚ) - 5 / 2| = 1 / 2 := by decide +kernel

theorem test_witness_QntRoundsThenPins :
    (State.reset.err = none ∧ State.reset.f.full State.reset.extent = false) ∧
    ((withReal 0x7FF8000000000000).err = none ∧
      (withReal 0x7FF8000000000000).f.full (withReal 0x7FF8000000000000).extent = true ∧
      HasNonFinite (withReal 0x7FF8000000000000).f (withReal 0x7FF8000000000000).extent) ∧
    (withReal 0xFFEFFFFFFFFFFFFF).err = none ∧
      (withReal 0xFFEFFFFFFFFFFFFF).f.full (withReal 0xFFEFFFFFFFFFFFFF).extent = true ∧
      ¬ HasNonFinite (withReal 0xFFEFFFFFFFFFFFFF).f (withReal 0xFFEFFFFFFFFFFFFF).extent :=
  ⟨by decide +kernel, ⟨by decide, by decide +kernel, 0, by decide, _, rfl, by decide⟩, by decide,
    by decide +kernel, not_nonFinite (by decide +kernel)⟩

theorem test_witness_DqtConvertsEveryInteger :
    ready.err = none ∧ ready.q.full ready.extent = true ∧ State.reset.q.full State.reset.extent = false := by
  decide +kernel

/-- The premises of both halves, and values at the bounds -128 and 127, on both sides of them, of the inner clauses. -/
theorem test_witness_QuantizerRoundTrips :
    (ready.err = none ∧ ready.f.full ready.extent = true ∧ ¬ HasNonFinite ready.f ready.extent ∧
      ready.q.full ready.extent = true) ∧
    ((-128 : Int) ≤ rhaz (-128) ∧ rhaz 127 ≤ 127) ∧ rhaz (-128.5) < -128 ∧ 127 < rhaz 127.5 :=
  ⟨⟨by decide, by decide +kernel, not_nonFinite (by decide +kernel), by decide +kernel⟩, by decide +kernel,
    by decide +kernel, by decide +kernel⟩

/-- Every clause, and the completing one at the bound 2^31 and with N at both ends of its range. -/
theorem test_witness_FdctApproximatesTheForwardTransform :
    ((sized 1).err = none ∧ 1 ≤ (sized 1).n ∧ (sized 1).n ≤ 16 ∧ (sized 1).x.full (sized 1).extent = false) ∧
    ((sized 16).err = none ∧ 1 ≤ (sized 16).n ∧ (sized 16).n ≤ 16 ∧ (sized 16).x.full (sized 16).extent = false) ∧
    ((withReal 0x41E0000000200000).x.full (withReal 0x41E0000000200000).extent = true ∧
      HasUnfit (withReal 0x41E0000000200000).x (withReal 0x41E0000000200000).extent) ∧
    (withReal 0x41E0000000000000).x.cells (withReal 0x41E0000000000000).extent = some [0x41E0000000000000] ∧
      ¬ HasUnfit (withReal 0x41E0000000000000).x (withReal 0x41E0000000000000).extent :=
  ⟨by decide +kernel, by decide +kernel,
    ⟨by decide +kernel, 0, by decide, _, rfl, .inr (by decide +kernel)⟩, by decide +kernel,
    not_unfit (by decide +kernel)⟩

theorem test_witness_IdctApproximatesTheInverseTransform :
    ((sized 1).err = none ∧ 1 ≤ (sized 1).n ∧ (sized 1).n ≤ 16 ∧ (sized 1).f.full (sized 1).extent = false) ∧
    ((sized 16).err = none ∧ 1 ≤ (sized 16).n ∧ (sized 16).n ≤ 16 ∧ (sized 16).f.full (sized 16).extent = false) ∧
    ((withReal 0xC1E0000000200000).f.full (withReal 0xC1E0000000200000).extent = true ∧
      HasUnfit (withReal 0xC1E0000000200000).f (withReal 0xC1E0000000200000).extent) ∧
    (withReal 0xC1E0000000000000).f.cells (withReal 0xC1E0000000000000).extent = some [0xC1E0000000000000] ∧
      ¬ HasUnfit (withReal 0xC1E0000000000000).f (withReal 0xC1E0000000000000).extent :=
  ⟨by decide +kernel, by decide +kernel,
    ⟨by decide +kernel, 0, by decide, _, rfl, .inr (by decide +kernel)⟩, by decide +kernel,
    not_unfit (by decide +kernel)⟩

theorem test_witness_ForwardTransformExactValues :
    1 ≤ 2 ∧ 0 < 2 ∧ 1 < 2 ∧ ((0, 1) : Nat × Nat) ≠ (0, 0) := by decide

theorem test_witness_InverseTransformExactValues : 1 ≤ 1 := by decide

theorem test_witness_TransformsAreExactInverses : 1 ≤ 1 ∧ 0 < 1 := by decide

/-- A unit of the suggested profile, N = 1, the sample 255, M = 255: every premise, and both clauses' own. -/
theorem test_witness_TransformRoundTripBound :
    ∃ unit : Dct, ready.err = none ∧ 1 ≤ ready.n ∧ ready.n ≤ 16 ∧
      ready.x.cells ready.extent = some [0x406FE00000000000] ∧
      (∀ c ∈ [(0x406FE00000000000 : F64)], F64.finite c = true ∧ |F64.val c| ≤ 255) ∧
      2 * (ready.n : ℚ) * 255 + 1 ≤ 2 ^ 31 ∧ unit.tol * max 1 255 ≤ 1 := by
  have fits : F64.finite 0x406FE00000000000 = true ∧ |F64.val 0x406FE00000000000| ≤ 255 := by decide +kernel
  have cells : ∀ c ∈ [(0x406FE00000000000 : F64)], F64.finite c = true ∧ |F64.val c| ≤ 255 :=
    fun c hc => List.mem_singleton.mp hc ▸ fits
  obtain ⟨unit, hu⟩ := exists_suggested_dct
  exact ⟨unit, by decide, by decide, by decide, by decide +kernel, cells,
    by norm_num [show ready.n = 1 from rfl], by norm_num [hu]⟩

/-- The first clause of the round-trip bound: on the same state some unit answers `OK` twice. -/
theorem test_witness_TransformRoundTripBound_completes :
    ∃ (unit : Dct) (t u : State), fdctWith unit ready = .next t ∧ idctWith unit t = .next u ∧
      u.answers = code .ok :: code .ok :: ready.answers := by
  obtain ⟨t, ht, h⟩ := next_of_ofNext (r := fdctWith Dct.coarsest ready)
    (f := fun t => ofNext (idctWith Dct.coarsest t)
      (fun u => u.answers == code .ok :: code .ok :: ready.answers) == some true) (by decide +kernel)
  obtain ⟨u, hu, ha⟩ := next_of_ofNext (by simpa using h)
  exact ⟨Dct.coarsest, t, u, ht, hu, by simpa using ha⟩

/-- The coefficients themselves are within 1/2 of themselves; for N = 1 and s = 0 the exact sample is 0. -/
theorem test_witness_ReconstructionErrorBound :
    (1 ≤ 1 ∧ ∀ u < 1, ∀ v < 1,
      |forwardExact 1 (fun _ _ => 0) u v - forwardExact 1 (fun _ _ => 0) u v| ≤ (1 / 2 : ℝ)) ∧
    (0 : ℝ) = (0 : BitVec 8).toNat ∧
    (F64.val 0 : ℝ) = inverseExact 1 (forwardExact 1 fun _ _ => 0) 0 0 := by
  have zero : F64.val 0 = 0 := by decide +kernel
  refine ⟨⟨le_refl 1, fun u _ v _ => by norm_num⟩, by simp, ?_⟩
  rw [zero]
  simp [inverseExact, forwardExact]

theorem test_witness_ScanOrderProperties : 1 ≤ 1 := by decide

theorem test_witness_ZzfReadsInScanOrder :
    ready.err = none ∧ ready.q.full ready.extent = true ∧ State.reset.q.full State.reset.extent = false := by
  decide +kernel

theorem test_witness_ZzuWritesInScanOrder :
    ready.err = none ∧ ready.z.full ready.extent = true ∧ State.reset.z.full State.reset.extent = false := by
  decide +kernel

theorem test_witness_ZigzagRoundTrips :
    ready.err = none ∧ ready.q.full ready.extent = true ∧ ready.z.full ready.extent = true := by decide +kernel

theorem test_witness_RleEncodeProperties : 1 ≤ ([0] : List Int).length ∧ ((0, 1) : Int × Nat) ∈ rleEncode [0] := by
  decide

theorem test_witness_RleWritesTheStream :
    (ready.err = none ∧ 1 ≤ ready.n ∧ ready.n ≤ 16 ∧ ready.z.cells ready.extent = some [0x8000]) ∧
    (sized 16).err = none ∧ 1 ≤ (sized 16).n ∧ (sized 16).n ≤ 16 ∧ (sized 16).z.full (sized 16).extent = false ∧
    (rleEncode [(0x8000 : BitVec 16)])[0]? = some (0x8000, 1) := by
  decide +kernel

/-- Each clause: an empty value, an empty count, a wrong sum, the right sum. -/
theorem test_witness_RldReplaysTheStream :
    (ready.err = none ∧ ({ ready with rv := [] } : State).rv.full ready.rlen.toNat = false) ∧
    ({ ready with rc := [] } : State).rc.full ready.rlen.toNat = false ∧
    (ready.rv.cells ready.rlen.toNat = some [7] ∧ ready.rc.cells ready.rlen.toNat = some [1] ∧
      (([1] : List (BitVec 16)).map BitVec.toNat).sum = ready.n * ready.n) ∧
    ({ ready with rc := [(0, 0)] } : State).rc.cells ready.rlen.toNat = some [0] ∧
      (([0] : List (BitVec 16)).map BitVec.toNat).sum ≠ ready.n * ready.n := by
  decide +kernel

theorem test_witness_RunLengthCodeIsLossless :
    ready.err = none ∧ 1 ≤ ready.n ∧ ready.n ≤ 16 ∧ ready.z.full ready.extent = true ∧
      ready.rv.cells ready.rlen.toNat = some [7] ∧ ready.rc.cells ready.rlen.toNat = some [1] ∧
      (([1] : List (BitVec 16)).map BitVec.toNat).sum = ready.n * ready.n := by
  decide +kernel

/-- The ends of both address ranges, the first cell outside the extent of N = 1, and N = 16. -/
theorem test_witness_UnmappedAccessesAnswerUnmapped :
    (6 ≤ (0x006 : Addr).toNat ∧ (0x006 : Addr).toNat ≤ 0xFF) ∧
    (6 ≤ (0x0FF : Addr).toNat ∧ (0x0FF : Addr).toNat ≤ 0xFF) ∧ 0x800 ≤ (0x800 : Addr).toNat ∧
    0x800 ≤ (0xFFF : Addr).toNat ∧
    (BufId.z.stream = false ∧ ready.n * ready.n ≤ (1 : BitVec 8).toNat) ∧ (sized 16).n = 16 := by decide

/-- Mapped cells, the last of an extent and the last of a stream buffer, one empty and one not. -/
theorem test_witness_CellReads :
    (ready.n * ready.n = 1 ∧ (0 : BitVec 8).toNat < ready.n * ready.n ∧ (ready.buffer .z).get 0 = some 0x8000 ∧
      BufId.z.signed = true) ∧
    ((ready.buffer .rc).get 0 = some 1 ∧ BufId.rc.signed = false) ∧
    BufId.rc.stream = true ∧ (ready.buffer .rc).get (255 : BitVec 8).toNat = none := by decide +kernel

/-- Data at the bounds of every clause: 255 and 256, -2^15 and -2^15 - 1, 2^15 - 1 and 2^15. -/
theorem test_witness_CellWrites :
    ((0 : BitVec 8).toNat < ready.n * ready.n ∧ BufId.rv.stream = true) ∧
    (BufId.p.signed = false ∧ 2 ^ BufId.p.width ≤ (256 : Data).toNat ∧ (255 : Data).toNat < 2 ^ BufId.p.width) ∧
    (BufId.q.signed = true ∧ ¬ (-2 ^ 15 ≤ (32768 : Data).toInt ∧ (32768 : Data).toInt < 2 ^ 15) ∧
      ¬ (-2 ^ 15 ≤ (-32769 : Data).toInt ∧ (-32769 : Data).toInt < 2 ^ 15) ∧
      (-2 ^ 15 ≤ (-32768 : Data).toInt ∧ (-32768 : Data).toInt < 2 ^ 15) ∧
      -2 ^ 15 ≤ (32767 : Data).toInt ∧ (32767 : Data).toInt < 2 ^ 15) := by decide +kernel

/-- An access error and the refusal of a locked engine. -/
theorem test_witness_RefusedAccessesChangeNothing :
    (∃ t : State, perform (.read 0x100) State.reset = .next t ∧ t.answers = code .invalid :: State.reset.answers) ∧
    (∃ t : State, perform (.write 0x000 1) lockedState = .next t ∧
      t.answers = code .locked :: lockedState.answers) ∧
    HostEvent.read 0x100 ≠ .hardReset ∧ HostEvent.write 0x000 1 ≠ .hardReset := by
  refine ⟨⟨_, rfl, by decide +kernel⟩, ?_, by decide, by decide⟩
  obtain ⟨t, ht, h⟩ := next_of_ofNext (r := perform (.write 0x000 1) lockedState)
    (f := fun t => t.answers == code .locked :: lockedState.answers) (by decide +kernel)
  exact ⟨t, ht, by simpa using h⟩

/-- A value for each clause, 4 the first with a bit of [63:2]. -/
theorem test_witness_CtrlWrites :
    (4 : Data).extractLsb' 2 62 ≠ 0 ∧ (0 : Data) = 0 ∧ (3 : Data) = 3 ∧ (2 : Data) = 2 := by decide

theorem test_witness_BsizeAccess :
    (1 ≤ (1 : Data).toNat ∧ (16 : Data).toNat ≤ 16) ∧ (0 : Data).toNat = 0 ∧ 16 < (17 : Data).toNat := by decide

theorem test_witness_RlenAccess : (0 : Data).toNat ≤ 256 ∧ (256 : Data).toNat ≤ 256 ∧ 256 < (257 : Data).toNat := by
  decide

theorem test_witness_WideCommandDataIsRefused : (0x100000000 : Data).extractLsb' 32 32 ≠ 0 := by decide

theorem test_witness_LockReachesOnlyCommandWrites :
    ((0x002 : Addr) ≠ 0x001 ∧ (0x002 : Addr) ≠ 0x005) ∧ (0x003 : Addr) ≠ 0x000 ∧ (0x003 : Addr) ≠ 0x002 := by
  decide

theorem test_witness_RepeatedCommandsChangeNothing :
    ∃ t : State, exec .zzf ready = .next t ∧ t.answers = code .ok :: ready.answers := by
  obtain ⟨t, ht, h⟩ := next_of_ofNext (r := exec .zzf ready)
    (f := fun t => t.answers == code .ok :: ready.answers) (by decide +kernel)
  exact ⟨t, ht, by simpa using h⟩

theorem test_witness_TileOrder : 1 ≤ 8 ∧ 8 ∣ 16 ∧ 8 ∣ 0 := by decide

/-- Each way to fail the check: N = 0, N = -1, N = 17, a width and a height that N does not divide. -/
theorem test_witness_ShapeErrorsTouchNothing :
    ¬ ((1 : Int) ≤ 0 ∧ (0 : Int) ≤ 16 ∧ (0 : Int) ∣ 0 ∧ (0 : Int) ∣ 0) ∧
    ¬ ((1 : Int) ≤ -1 ∧ (-1 : Int) ≤ 16 ∧ (-1 : Int) ∣ 8 ∧ (-1 : Int) ∣ 8) ∧
    ¬ ((1 : Int) ≤ 17 ∧ (17 : Int) ≤ 16 ∧ (17 : Int) ∣ 17 ∧ (17 : Int) ∣ 17) ∧
    ¬ ((1 : Int) ≤ 8 ∧ (8 : Int) ≤ 16 ∧ (8 : Int) ∣ 12 ∧ (8 : Int) ∣ 16) ∧
    ¬ ((1 : Int) ≤ 8 ∧ (8 : Int) ≤ 16 ∧ (8 : Int) ∣ 16 ∧ (8 : Int) ∣ 12) := by decide

theorem test_witness_ExtractionLoadsTheTile :
    (1 ≤ (sized 1).n ∧ (sized 16).n ≤ 16) ∧ 1 ≤ (sized 16).n ∧ (sized 1).n ≤ 16 := by decide

/-- A 4 by 4 image of N = 2. -/
def image4 : EncodedImage := { n := 2, w := 4, h := 4, blocks := [] }

/-- The last cell of N = 1 and the first beyond it; N = 16 has its extent of 256. -/
theorem test_witness_ExtractionLoadsTheTile_frame :
    (sized 1).extent ≤ 1 ∧ ¬ (sized 1).extent ≤ 0 ∧ (sized 16).extent ≤ 256 := by decide

/-- Each way an offset can be wrong; the block at the last good offset (2,2) is not rejected. -/
theorem test_witness_BadOffsetsAreRejected :
    ({ x := 1, y := 0, pairs := [] } : EncodedBlock).x % image4.n ≠ 0 ∧
    ({ x := 0, y := 3, pairs := [] } : EncodedBlock).y % image4.n ≠ 0 ∧
    image4.w < ({ x := 4, y := 0, pairs := [] } : EncodedBlock).x + image4.n ∧
    image4.h < ({ x := 0, y := 4, pairs := [] } : EncodedBlock).y + image4.n ∧
    ({ x := -2, y := 0, pairs := [] } : EncodedBlock).x < 0 ∧ ({ x := 0, y := -2, pairs := [] } : EncodedBlock).y < 0 ∧
    offsetOk image4 { x := 2, y := 2, pairs := [] } = true := by decide

theorem test_witness_PassesEndAtTheFirstError :
    ∃ (t u : State) (data : List Data), transactAll [.read 0x003] State.reset = .done data t ∧
      perform (.read 0x100) t = .next u ∧ u.answers = code .invalid :: t.answers ∧ Response.invalid ≠ .ok :=
  ⟨_, _, _, rfl, rfl, rfl, by decide⟩

/-- N at both ends of its range, over rasters of one tile. -/
theorem test_witness_EncodePassAlwaysSucceeds :
    State.reset.err = none ∧ ((1 : Int) ≤ 1 ∧ (1 : Int) ≤ 16 ∧ (1 : Int) ∣ (Raster.blank 1 1).width ∧ (1 : Int) ∣ (Raster.blank 1 1).height) ∧
      (1 : Int) ≤ 16 ∧ (16 : Int) ≤ 16 ∧ (16 : Int) ∣ (Raster.blank 16 16).width ∧
      (16 : Int) ∣ (Raster.blank 16 16).height := by decide +kernel

/-- An image of one block at N = 1, its value at the lower bound, with a pair of count 0. -/
theorem test_witness_DecodePassOfWellFormedImageSucceeds :
    State.reset.err = none ∧ (1 : Int) ≤ 1 ∧ (1 : Int) ≤ 16 ∧ (1 : Int) ∣ 1 ∧ (0 : Int) ≤ 1 ∧
      ∀ b ∈ [({ x := 0, y := 0, pairs := [(-32768, 1), (32767, 0)] } : EncodedBlock)],
        1 ∣ b.x ∧ 1 ∣ b.y ∧ 0 ≤ b.x ∧ 0 ≤ b.y ∧ b.x + 1 ≤ 1 ∧ b.y + 1 ≤ 1 ∧ b.pairs.length ≤ 256 ∧ b.total = 1 * 1 ∧
          ∀ c ∈ b.pairs, -32768 ≤ c.1 ∧ c.1 ≤ 32767 ∧ 0 ≤ c.2 ∧ c.2 < 65536 := by decide +kernel

/-- Of an image with two blocks, the second over the first: no later block covers the second's tile, and none at all
covers the position (1, 0). -/
theorem test_witness_DecodePassOfWellFormedImageSucceeds_samples :
    (∀ b ∈ ([] : List EncodedBlock), ¬ b.Covers 1 0 0) ∧
    ∀ b ∈ [({ x := 0, y := 0, pairs := [(1, 1)] } : EncodedBlock), { x := 0, y := 0, pairs := [(2, 1)] }],
      ¬ b.Covers 1 1 0 := by
  simp [EncodedBlock.Covers]

/-- The suggested unit, N = 1 and the sample 255. -/
theorem test_witness_FlatBlocksSurviveBothChains :
    ∃ unit : Dct, ready.err = none ∧ 1 ≤ ready.n ∧ ready.n ≤ 16 ∧
      (∀ k < ready.extent, ready.p.get k = some 255) ∧
      unit.tol * max 1 (ready.n * (255 : BitVec 8).toNat) < 1 / 2 := by
  obtain ⟨unit, hu⟩ := exists_suggested_dct
  refine ⟨unit, by decide, by decide, by decide, by decide +kernel, ?_⟩
  rw [hu, show ready.n = 1 from rfl, show (255 : BitVec 8).toNat = 255 from rfl]
  norm_num

end Sys2Proof.Tests
end

/-! # The state, its invariants and its registers

The effects of a transaction are said once, as the relation `Effect`; the invariants of rule R37 and the frame of the
error latch are read off it. -/

namespace Sys2Proof.Machine

open Sys2Proof.Claims

/-! ### Registers at the port -/

/-- The address of a register names that register (R41). -/
theorem place_address (r : Reg) : place r.address = .reg r := by cases r <;> rfl

/-- An offset of page 0 that names a register is the address of that register (R41). -/
theorem eq_address_of_regAt {offset : Nat} {r : Reg} (h : regAt offset = .reg r) : offset = r.address.toNat := by
  unfold regAt at h
  split at h <;> cases h <;> rfl

/-- Only the address of a register names it (R41). -/
theorem eq_address_of_place {a : Addr} {r : Reg} (h : place a = .reg r) : a = r.address := by
  have hpage : (a.extractLsb' 8 4).toNat = 0 ∧ regAt (a.extractLsb' 0 8).toNat = .reg r := by
    simp only [place] at h
    split at h
    case h_1 hp => exact ⟨hp, h⟩
    all_goals cases h
  obtain ⟨hp, hr⟩ := hpage
  have hoff := eq_address_of_regAt hr
  apply BitVec.eq_of_toNat_eq
  simp only [BitVec.extractLsb'_toNat, Nat.shiftRight_eq_div_pow] at hp hoff
  omega

theorem hostRead_address (r : Reg) (s : State) : hostRead r.address s = readReg r s := by
  unfold hostRead; rw [place_address]

theorem hostWrite_address (r : Reg) (d : Data) (s : State) : hostWrite r.address d s = writeReg r d s := by
  unfold hostWrite; rw [place_address]

theorem hostWrite_cmd (d : Data) (s : State) : hostWrite 0x000 d s = writeCmd d s := hostWrite_address .cmd d s

theorem hostWrite_ctrl (d : Data) (s : State) : hostWrite 0x002 d s = .next (writeCtrl d s) :=
  hostWrite_address .ctrl d s

theorem hostWrite_bsize (d : Data) (s : State) : hostWrite 0x003 d s = .next (writeBsize d s) :=
  hostWrite_address .bsize d s

theorem hostWrite_rlen (d : Data) (s : State) : hostWrite 0x004 d s = .next (writeRlen d s) :=
  hostWrite_address .rlen d s

/-! ### Command words -/

/-- A word is its three fields, one after another (R65). -/
theorem fields_append (w : CmdWord) : zeroField w ++ BitVec.ofBool (dirField w) ++ stageField w = w := by
  apply BitVec.eq_of_getLsbD_eq
  intro i hi
  simp only [zeroField, dirField, stageField, BitVec.getLsbD_append, BitVec.getLsbD_extractLsb', BitVec.getLsbD_ofBool]
  rcases Nat.lt_or_ge i 3 with h | h
  · simp [h]
  · by_cases h3 : i = 3
    · subst h3; simp
    · have h1 : ¬ i - 3 < 1 := by omega
      have h2 : i - 3 - 1 < 28 := by omega
      have h4 : 4 + (i - 3 - 1) = i := by omega
      simp [Nat.not_lt.mpr h, h1, h2, h4]

/-- The row of the opcode map is found by its own direction and stage (R66). -/
theorem instrOf_eq_some {dir : Bool} {stage : Nat} {i : Instr} (h : instrOf dir stage = some i) :
    i.dir = dir ∧ i.stage.toNat = stage := by
  unfold instrOf at h
  split at h <;> cases h <;> exact ⟨rfl, rfl⟩

/-- A word that decodes to a command is the command's word (R67). -/
theorem encode_of_decode {w : CmdWord} {i : Instr} (h : decode w = .ok i) : encode i = w := by
  unfold decode at h
  split at h
  case isTrue hz =>
    split at h <;> cases h
    case h_1 hrow =>
      obtain ⟨hdir, hstage⟩ := instrOf_eq_some hrow
      rw [encode, hdir, BitVec.eq_of_toNat_eq hstage, ← hz, fields_append]
  case isFalse => cases h

/-! ### Writes of the registers -/

/-- The legal values of `CTRL`: bits [63:2] are zero (R28). -/
theorem ctrl_value {d : Data} (h : d.extractLsb' 2 62 = 0) : d = 0 ∨ d = 1 ∨ d = 2 ∨ d = 3 := by
  have := congrArg BitVec.toNat h
  simp only [BitVec.extractLsb'_toNat, Nat.shiftRight_eq_div_pow, BitVec.ofNat_eq_ofNat, BitVec.toNat_ofNat] at this
  simp only [← BitVec.toNat_inj, BitVec.ofNat_eq_ofNat, BitVec.toNat_ofNat]
  have := d.isLt
  omega

theorem writeCtrl_range {d : Data} (h : d.extractLsb' 2 62 ≠ 0) (s : State) : writeCtrl d s = s.respond .range :=
  if_pos (by simpa using h)

theorem writeCtrl_zero (s : State) : writeCtrl 0 s = s.respond .ok := rfl

theorem writeCtrl_clear (s : State) : writeCtrl 2 s = s.clearError.respond .ok := rfl

/-- Bit 0 of `CTRL` is the soft reset, with or without bit 1 (R28). -/
theorem writeCtrl_reset {d : Data} (h : d.extractLsb' 2 62 = 0) (h0 : d.getLsbD 0 = true) (s : State) :
    writeCtrl d s = s.resetEngine.respond .ok := by
  simp [writeCtrl, h, h0]

theorem writeBsize_ok {d : Data} (h1 : 1 ≤ d.toNat) (h16 : d.toNat ≤ 16) (s : State) :
    writeBsize d s = (s.setBsize (d.setWidth 5)).respond .ok := if_pos ⟨h1, h16⟩

theorem writeBsize_range {d : Data} (h : d.toNat = 0 ∨ 16 < d.toNat) (s : State) :
    writeBsize d s = s.respond .range := if_neg (show ¬ (1 ≤ d.toNat ∧ d.toNat ≤ 16) by omega)

theorem writeRlen_ok {d : Data} (h : d.toNat ≤ 256) (s : State) :
    writeRlen d s = (s.setRlen (d.setWidth 9)).respond .ok := if_pos h

theorem writeRlen_range {d : Data} (h : 256 < d.toNat) (s : State) : writeRlen d s = s.respond .range :=
  if_neg (show ¬ d.toNat ≤ 256 by omega)

theorem toNat_setWidth_of_lt {w v : Nat} {d : BitVec w} (h : d.toNat < 2 ^ v) : (d.setWidth v).toNat = d.toNat := by
  rw [BitVec.toNat_setWidth, Nat.mod_eq_of_lt h]

theorem writeCmd_command {d : Data} (h : d.extractLsb' 32 32 = 0) (s : State) :
    writeCmd d s = performWord (d.extractLsb' 0 32) s := by simp [writeCmd, commandData, h]

theorem writeCmd_range {d : Data} (h : d.extractLsb' 32 32 ≠ 0) (s : State) :
    writeCmd d s = .next (s.respond .range) :=
  if_neg (by simpa [commandData] using h)

/-- Command write data without a bit above 31 is the number its word is (R64). -/
theorem toNat_commandWord {d : Data} (h : d.extractLsb' 32 32 = 0) : (d.extractLsb' 0 32).toNat = d.toNat := by
  have := congrArg BitVec.toNat h
  simp only [BitVec.extractLsb'_toNat, Nat.shiftRight_eq_div_pow, BitVec.ofNat_eq_ofNat, BitVec.toNat_ofNat] at this ⊢
  have := d.isLt
  omega

/-! ### Buffers by name -/

@[simp] theorem State.respond_buffer (s : State) (r : Response) (b : BufId) : (s.respond r).buffer b = s.buffer b := by
  cases b <;> rfl

@[simp] theorem State.setBsize_buffer (s : State) (size : BitVec 5) (b : BufId) : (s.setBsize size).buffer b = [] := by
  cases b <;> rfl

@[simp] theorem State.reset_buffer (b : BufId) : State.reset.buffer b = [] := by cases b <;> rfl

/-- A stream changes no buffer but `RV` and `RC`. -/
theorem State.setStream_buffer (s : State) (pairs : List (BitVec 16 × Nat)) {b : BufId} (h : b.stream = false) :
    (s.setStream pairs).buffer b = s.buffer b := by
  cases b
  case rv | rc => cases h
  all_goals rfl

/-- Every buffer is in canonical form below its limit (R21, R23). -/
theorem memory_wf_iff {s : State} : Memory.wf s ↔ ∀ b : BufId, (s.buffer b).wf (s.limit b) := by
  constructor
  · rintro ⟨hp, hx, hf, hq, hz, hrv, hrc⟩ b
    cases b
    exacts [hp, hx, hf, hq, hz, hrv, hrc]
  · exact fun h => ⟨h .p, h .x, h .f, h .q, h .z, h .rv, h .rc⟩

/-! ### The scan visits every cell once -/

theorem nodup_diagonalAscending (n i : Nat) : (diagonalAscending n i).Nodup :=
  List.nodup_range.map fun _ _ h => Nat.add_left_cancel h

theorem nodup_diagonal (n i : Nat) : (diagonal n i).Nodup := by
  refine List.Nodup.map (fun _ _ h => (Prod.mk.inj h).1) ?_
  split
  · exact nodup_diagonalAscending n i
  · exact List.nodup_reverse.mpr (nodup_diagonalAscending n i)

/-- A position lies on one diagonal only, the one of its coordinate sum (R100). -/
theorem sum_of_mem_diagonal {n i : Nat} {c : Nat × Nat} (h : c ∈ diagonal n i) : c.1 + c.2 = i := by
  obtain ⟨⟨-, hle⟩, h2⟩ := mem_diagonal.mp h
  omega

theorem nodup_scanOrder (n : Nat) : (scanOrder n).Nodup := by
  refine List.nodup_flatMap.mpr ⟨fun i _ => nodup_diagonal n i, List.nodup_range.imp ?_⟩
  exact fun hij c hi hj => hij ((sum_of_mem_diagonal hi).symm.trans (sum_of_mem_diagonal hj))

theorem length_scanOrder (n : Nat) : (scanOrder n).length = n * n := by
  have h : (scanOrder n).toFinset = Finset.range n ×ˢ Finset.range n := by
    ext c; simp [mem_scanOrder]
  rw [← List.toFinset_card_of_nodup (nodup_scanOrder n), h, Finset.card_product, Finset.card_range]

/-- The scan has as many indices as the extent has cells (R102). -/
@[simp] theorem length_zidx (n : Nat) : (zidx n).length = n * n := by
  rw [zidx, List.length_map, length_scanOrder]

/-! ### The run-length code is no longer than its sequence -/

theorem length_rleLoop_le {α : Type} [DecidableEq α] (val : α) (cnt : Nat) (rest : List α) :
    (rleLoop val cnt rest).length ≤ rest.length + 1 := by
  induction rest generalizing val cnt with
  | nil => exact Nat.le_refl 1
  | cons x rest ih =>
    rw [rleLoop_cons]
    split
    · exact (ih val (cnt + 1)).trans (by simp)
    · simpa using ih x 1

theorem length_rleEncode_le {α : Type} [DecidableEq α] (l : List α) : (rleEncode l).length ≤ l.length := by
  cases l with
  | nil => exact Nat.le_refl 0
  | cons x rest => exact length_rleLoop_le x 1 rest

/-! ### What a command writes -/

/-- What a command that passes its checks does to the state: a run of cell writes inside the extent of its one
destination, or for `RLE` a new stream of at most N² pairs (R66, R108). -/
inductive Writes (s : State) : Instr → State → Prop
  | block {i : Instr} (b : BufId) (cells : List (Nat × BitVec b.width)) (hdest : destinations i = [b])
      (hmatrix : b.stream = false) (hcells : ∀ c ∈ cells, c.1 < s.extent) :
      Writes s i (s.setBuffer b ((s.buffer b).writes cells))
  | stream (pairs : List (BitVec 16 × Nat)) (hlen : pairs.length ≤ s.extent) : Writes s .rle (s.setStream pairs)

/-- A fill within the extent is a run of writes within it. -/
theorem Writes.fill {s : State} {i : Instr} (b : BufId) (values : List (BitVec b.width)) (hdest : destinations i = [b])
    (hmatrix : b.stream = false) (hlen : values.length ≤ s.extent) :
    Writes s i (s.setBuffer b ((s.buffer b).fill values)) :=
  .block b _ hdest hmatrix fun _ hc => (List.mem_range.mp (List.of_mem_zip hc).1).trans_le hlen

/-- Every command that passes its checks writes its destination only. -/
theorem body_writes {i : Instr} {s t : State} (h : body i s = .ok t) : Writes s i t := by
  cases i with
  | ldpx =>
    obtain ⟨samples, hc, rfl⟩ := body_ldpx.mp h
    exact .fill .x _ rfl rfl ((List.length_map _).trans (Buffer.cells_length hc)).le
  | fdct =>
    obtain ⟨cells, -, -, rfl⟩ := body_fdct.mp h
    exact .fill .f _ rfl rfl (length_resultCells _ _).le
  | qnt =>
    obtain ⟨coefficients, hc, -, rfl⟩ := body_qnt.mp h
    exact .fill .q _ rfl rfl (List.length_mapIdx.trans (Buffer.cells_length hc)).le
  | zzf =>
    obtain ⟨matrix, -, rfl⟩ := body_zzf.mp h
    exact .fill .z _ rfl rfl ((List.length_map _).trans (length_zidx _)).le
  | rle =>
    obtain ⟨sequence, hc, rfl⟩ := body_rle.mp h
    exact .stream _ ((length_rleEncode_le _).trans_eq (Buffer.cells_length hc))
  | stpx =>
    obtain ⟨reals, hc, -, rfl⟩ := body_stpx.mp h
    exact .fill .p _ rfl rfl ((List.length_map _).trans (Buffer.cells_length hc)).le
  | idct =>
    obtain ⟨cells, -, -, rfl⟩ := body_idct.mp h
    exact .fill .x _ rfl rfl (length_resultCells _ _).le
  | dqt =>
    obtain ⟨integers, hc, rfl⟩ := body_dqt.mp h
    exact .fill .f _ rfl rfl ((List.length_map _).trans (Buffer.cells_length hc)).le
  | zzu =>
    obtain ⟨sequence, -, rfl⟩ := body_zzu.mp h
    exact .block .q _ rfl rfl fun c hc => zidx_lt (List.of_mem_zip hc).1
  | rld =>
    obtain ⟨pairs, -, hsum, rfl⟩ := body_rld.mp h
    exact .fill .z _ rfl rfl ((length_rleDecode _).trans hsum).le

/-- A run of writes inside an extent leaves every cell beyond it alone. -/
theorem Buffer.get_writes_beyond {width extent k : Nat} {cells : List (Nat × BitVec width)} (b : Buffer width)
    (hcells : ∀ c ∈ cells, c.1 < extent) (hk : extent ≤ k) : (b.writes cells).get k = b.get k := by
  refine Buffer.get_writes_other b fun hmem => ?_
  obtain ⟨c, hc, rfl⟩ := List.mem_map.mp hmem
  exact absurd (hcells c hc) (Nat.not_lt.mpr hk)

section Frame

variable {s t : State} {i : Instr}

/-- The registers and the port that no write of a command touches; `RLEN` is written by `RLE` (R24). -/
theorem Writes.registers (h : Writes s i t) : t.bsize = s.bsize ∧ t.pending = s.pending ∧ t.answers = s.answers ∧
    t.err = s.err ∧ t.ecmd = s.ecmd ∧ (i ≠ .rle → t.rlen = s.rlen) := by
  cases h with
  | block b cells =>
    obtain ⟨hbsize, hrlen, herr, hecmd, hpending, hanswers⟩ :=
      s.setBuffer_registers b ((s.buffer b).writes cells)
    exact ⟨hbsize, hpending, hanswers, herr, hecmd, fun _ => hrlen⟩
  | stream pairs => exact ⟨rfl, rfl, rfl, rfl, rfl, fun hi => absurd rfl hi⟩

/-- A buffer that is no destination of the command is unchanged (R66). -/
theorem Writes.buffer_other (h : Writes s i t) {b : BufId} (hb : b ∉ destinations i) : t.buffer b = s.buffer b := by
  cases h with
  | block c cells hdest =>
    rw [hdest, List.mem_singleton] at hb
    exact s.buffer_setBuffer_other _ (Ne.symm hb)
  | stream pairs =>
    have hmatrix : b.stream = false := by revert hb; cases b <;> decide
    exact s.setStream_buffer pairs hmatrix

/-- Every command but `RLE` leaves each cell beyond the extent alone (R24). -/
theorem Writes.get_beyond (h : Writes s i t) (hi : i ≠ .rle) (b : BufId) {k : Nat} (hk : s.extent ≤ k) :
    (t.buffer b).get k = (s.buffer b).get k := by
  cases h with
  | block c cells _ _ hcells =>
    by_cases hbc : c = b
    · subst hbc
      rw [State.buffer_setBuffer, Buffer.get_writes_beyond _ hcells hk]
    · rw [State.buffer_setBuffer_other _ _ hbc]
  | stream pairs => exact absurd rfl hi

end Frame

/-- Everything a command does to the state: with an answer other than `OK` it changes at most the error latch, with `OK`
it makes its writes (R146). -/
theorem exec_writes {i : Instr} {s t : State} (h : exec i s = .next t) :
    (∃ r ≠ Response.ok, ∃ err ecmd, t = { s with err := err, ecmd := ecmd, answers := code r :: s.answers }) ∨
      ∃ u, Writes s i u ∧ t = u.respond .ok := by
  rcases exec_cases i s with ⟨-, hx⟩ | ⟨-, e, -, hx⟩ | ⟨-, u, hu, hx⟩ <;> cases hx.symm.trans h
  · exact .inl ⟨.locked, nofun, s.err, s.ecmd, rfl⟩
  · exact .inl ⟨.error e, nofun, some e, encode i, rfl⟩
  · exact .inr ⟨u, body_writes hu, rfl⟩

/-! ### The effect of one transaction -/

/-- What one event can do to the engine: the answer alone, or one of the eight changes of state. Every change of the
error latch is a `raise` of a command write, a clearing or a reset (R27, R31). -/
inductive Effect (s : State) : HostEvent → State → Prop
  /-- A read, a refused access or command, or a write of 0 to `CTRL`. -/
  | answered {e : HostEvent} (a : Answer) : Effect s e { s with answers := a :: s.answers }
  | hardReset : Effect s .hardReset s.resetEngine
  | softReset {d : Data} (hd : d.toNat ∈ [1, 3]) : Effect s (.write 0x002 d) (s.resetEngine.respond .ok)
  | clearError : Effect s (.write 0x002 2) (s.clearError.respond .ok)
  | resize {d : Data} (h1 : 1 ≤ d.toNat) (h16 : d.toNat ≤ 16) :
      Effect s (.write 0x003 d) ((s.setBsize (d.setWidth 5)).respond .ok)
  | setLength {d : Data} (h : d.toNat ≤ 256) : Effect s (.write 0x004 d) ((s.setRlen (d.setWidth 9)).respond .ok)
  | setCell {e : HostEvent} (b : BufId) {k : Nat} (v : BitVec b.width) (hk : k < s.limit b) :
      Effect s e ((s.setBuffer b ((s.buffer b).set k v)).respond .ok)
  | raised {d : Data} {w : CmdWord} (err : CmdError) (hunlocked : s.err = none) (hw : w.toNat = d.toNat) :
      Effect s (.write 0x000 d) (s.raise err w)
  | completed {d : Data} {i : Instr} {t : State} (hunlocked : s.err = none) (hwrites : Writes s i t) :
      Effect s (.write 0x000 d) (t.respond .ok)

theorem effect_read (a : Addr) (s : State) : Effect s (.read a) (hostRead a s) := by
  rcases hostRead_cases a s with ⟨d, hd⟩ | ⟨r, -, hr⟩
  · rw [hd]; exact .answered _
  · rw [hr]; exact .answered _

theorem effect_writeCell (e : HostEvent) (b : BufId) (k : Nat) (d : Data) (s : State) :
    Effect s e (writeCell b k d s) := by
  unfold writeCell
  split
  case isTrue hk =>
    split
    · exact .setCell b _ hk
    · exact .answered _
  case isFalse => exact .answered _

theorem effect_writeCtrl (d : Data) (s : State) : Effect s (.write 0x002 d) (writeCtrl d s) := by
  by_cases hd : d.extractLsb' 2 62 = 0
  · rcases ctrl_value hd with rfl | rfl | rfl | rfl
    · exact .answered _
    · exact .softReset (by decide)
    · exact .clearError
    · exact .softReset (by decide)
  · rw [writeCtrl_range hd]; exact .answered _

theorem effect_writeBsize (d : Data) (s : State) : Effect s (.write 0x003 d) (writeBsize d s) := by
  by_cases h : 1 ≤ d.toNat ∧ d.toNat ≤ 16
  · rw [writeBsize_ok h.1 h.2]; exact .resize h.1 h.2
  · rw [writeBsize_range (by omega)]; exact .answered _

theorem effect_writeRlen (d : Data) (s : State) : Effect s (.write 0x004 d) (writeRlen d s) := by
  rcases Nat.lt_or_ge 256 d.toNat with h | h
  · rw [writeRlen_range h]; exact .answered _
  · rw [writeRlen_ok h]; exact .setLength h

/-- The effect of a command word written to `CMD`, whose number is the write data's. -/
theorem effect_performWord {d : Data} {w : CmdWord} {s t : State} (hw : w.toNat = d.toNat)
    (h : performWord w s = .next t) : Effect s (.write 0x000 d) t := by
  rcases performWord_cases w s with ⟨i, hi, hp⟩ | ⟨-, hp⟩ <;> rw [hp] at h
  · rcases exec_cases i s with ⟨-, hx⟩ | ⟨hs, e, -, hx⟩ | ⟨hs, u, hu, hx⟩ <;> cases hx.symm.trans h
    · exact .answered _
    · rw [encode_of_decode hi]; exact .raised e hs hw
    · exact .completed hs (body_writes hu)
  · by_cases hs : s.err = none
    · cases (illegalWord_unlocked hs).symm.trans h
      exact .raised .illCmd hs hw
    · cases (illegalWord_locked hs).symm.trans h
      exact .answered _

/-- Every transaction, and the hard reset, has one of the effects. -/
theorem perform_effect {e : HostEvent} {s t : State} (h : perform e s = .next t) : Effect s e t := by
  cases e with
  | read a => cases h; exact effect_read a s
  | hardReset => cases h; exact .hardReset
  | write a d =>
    simp only [perform, hostWrite] at h
    split at h
    case h_1 r hplace =>
      cases eq_address_of_place hplace
      cases r with
      | cmd =>
        by_cases hd : d.extractLsb' 32 32 = 0
        · exact effect_performWord (toNat_commandWord hd) ((writeCmd_command hd s).symm.trans h)
        · cases (writeCmd_range hd s).symm.trans h
          exact .answered _
      | status | ecmd => cases h; exact .answered _
      | ctrl => cases h; exact effect_writeCtrl d s
      | bsize => cases h; exact effect_writeBsize d s
      | rlen => cases h; exact effect_writeRlen d s
    case h_2 b k hplace => cases h; exact effect_writeCell _ b k d s
    case h_3 => cases h; exact .answered _

/-- `ERR` and `ECMD` change by a reset, by clearing, and by the latch of a command write (R27, R31). -/
theorem Effect.latch_changed {s t : State} {e : HostEvent} (h : Effect s e t)
    (hchanged : ¬ (t.err = s.err ∧ t.ecmd = s.ecmd)) :
    (t.err = none ∧ t.ecmd = 0 ∧ (e = .hardReset ∨ ∃ d, e = .write 0x002 d ∧ d.toNat ∈ [1, 2, 3])) ∨
      ∃ d, e = .write 0x000 d ∧ s.err = none ∧ t.err ≠ none ∧ t.ecmd.toNat = d.toNat := by
  cases h with
  | answered | resize | setLength => exact absurd ⟨rfl, rfl⟩ hchanged
  | hardReset => exact .inl ⟨rfl, rfl, .inl rfl⟩
  | softReset hd => exact .inl ⟨rfl, rfl, .inr ⟨_, rfl, (by decide : [1, 3] ⊆ [1, 2, 3]) hd⟩⟩
  | clearError => exact .inl ⟨rfl, rfl, .inr ⟨_, rfl, by decide⟩⟩
  | setCell b v hk =>
    obtain ⟨-, -, herr, hecmd, -, -⟩ := s.setBuffer_registers b ((s.buffer b).set _ v)
    exact absurd ⟨herr, hecmd⟩ hchanged
  | raised err hunlocked hw => exact .inr ⟨_, rfl, hunlocked, nofun, hw⟩
  | completed _ hwrites =>
    obtain ⟨-, -, -, herr, hecmd, -⟩ := hwrites.registers
    exact absurd ⟨herr, hecmd⟩ hchanged

/-! ### The invariants -/

theorem engineInv_reset : EngineInv State.reset :=
  ⟨by decide, by decide, by decide, fun _ => rfl, reset_memory_wf⟩

/-- The invariants speak of the engine, not of the answers. -/
theorem EngineInv.respond {s : State} (h : EngineInv s) (r : Response) : EngineInv (s.respond r) := h

theorem EngineInv.buffer_wf {s : State} (h : EngineInv s) (b : BufId) : (s.buffer b).wf (s.limit b) := by
  obtain ⟨-, -, -, -, hmem⟩ := h
  exact memory_wf_iff.mp hmem b

/-- A matrix buffer or a stream buffer replaced by one in canonical form. -/
theorem EngineInv.setBuffer {s : State} (h : EngineInv s) (b : BufId) {cells : Buffer b.width}
    (hcells : cells.wf (s.limit b)) : EngineInv (s.setBuffer b cells) := by
  obtain ⟨h1, h16, hlen, hlatch, hmem⟩ := h
  obtain ⟨-, hrlen, herr, hecmd, -, -⟩ := s.setBuffer_registers b cells
  refine ⟨by simpa using h1, by simpa using h16, hrlen ▸ hlen, fun he => hecmd.trans (hlatch (herr ▸ he)), ?_⟩
  refine memory_wf_iff.mpr fun c => ?_
  rw [State.setBuffer_limit]
  by_cases hbc : b = c
  · subst hbc; rwa [State.buffer_setBuffer]
  · rw [State.buffer_setBuffer_other _ _ hbc]
    exact memory_wf_iff.mp hmem c

/-- Under the invariants no extent is larger than a buffer (R9, R22). -/
theorem EngineInv.extent_le {s : State} (h : EngineInv s) : s.extent ≤ 256 := by
  obtain ⟨-, h16, -⟩ := h
  exact Nat.mul_le_mul h16 h16

/-- A stream that fits the stream buffers. -/
theorem EngineInv.setStream {s : State} (h : EngineInv s) {pairs : List (BitVec 16 × Nat)}
    (hlen : pairs.length ≤ 256) : EngineInv (s.setStream pairs) := by
  obtain ⟨h1, h16, -, hlatch, hp, hx, hf, hq, hz, -, -⟩ := h
  have hrlen : (BitVec.ofNat 9 pairs.length).toNat ≤ 256 := by
    rw [BitVec.toNat_ofNat]; exact (Nat.mod_le _ _).trans hlen
  exact ⟨h1, h16, hrlen, hlatch, hp, hx, hf, hq, hz,
    Buffer.wf_fill (Buffer.wf_nil _) ((List.length_map _).trans_le hlen),
    Buffer.wf_fill (Buffer.wf_nil _) ((List.length_map _).trans_le hlen)⟩

/-- The writes of a command keep the invariants. -/
theorem Writes.engineInv {s t : State} {i : Instr} (h : Writes s i t) (hs : EngineInv s) : EngineInv t := by
  cases h with
  | block b cells _ hmatrix hcells =>
    have hlimit : s.limit b = s.extent := by simp [State.limit, hmatrix]
    exact hs.setBuffer b (Buffer.wf_writes (hlimit ▸ hcells) (hs.buffer_wf b))
  | stream pairs hlen => exact hs.setStream (hlen.trans hs.extent_le)

theorem EngineInv.setBsize {s : State} (h : EngineInv s) {size : BitVec 5} (h1 : 1 ≤ size.toNat)
    (h16 : size.toNat ≤ 16) : EngineInv (s.setBsize size) := by
  obtain ⟨-, -, -, hlatch, -⟩ := h
  exact ⟨h1, h16, Nat.zero_le _, hlatch, memory_wf_iff.mpr fun b => by simpa using Buffer.wf_nil _⟩

theorem EngineInv.setRlen {s : State} (h : EngineInv s) {len : BitVec 9} (hlen : len.toNat ≤ 256) :
    EngineInv (s.setRlen len) := by
  obtain ⟨h1, h16, -, hlatch, hmem⟩ := h
  exact ⟨h1, h16, hlen, hlatch, hmem⟩

theorem EngineInv.raise {s : State} (h : EngineInv s) (e : CmdError) (w : CmdWord) : EngineInv (s.raise e w) := by
  obtain ⟨h1, h16, hlen, -, hmem⟩ := h
  exact ⟨h1, h16, hlen, nofun, hmem⟩

theorem EngineInv.clearError {s : State} (h : EngineInv s) : EngineInv s.clearError := by
  obtain ⟨h1, h16, hlen, -, hmem⟩ := h
  exact ⟨h1, h16, hlen, fun _ => rfl, hmem⟩

/-- Every effect of a transaction keeps the invariants (R37). -/
theorem Effect.engineInv {s t : State} {e : HostEvent} (h : Effect s e t) (hs : EngineInv s) : EngineInv t := by
  cases h with
  | answered a => exact hs
  | hardReset => exact engineInv_reset
  | softReset => exact engineInv_reset
  | clearError => exact hs.clearError.respond _
  | resize h1 h16 =>
    rw [← toNat_setWidth_of_lt (v := 5) (by omega)] at h1 h16
    exact (hs.setBsize h1 h16).respond _
  | setLength hlen =>
    rw [← toNat_setWidth_of_lt (v := 9) (by omega)] at hlen
    exact (hs.setRlen hlen).respond _
  | setCell b v hk => exact (hs.setBuffer b (Buffer.wf_set v (hs.buffer_wf b) hk)).respond _
  | raised err => exact hs.raise err _
  | completed _ hwrites => exact (hwrites.engineInv hs).respond _

theorem step_of_pending {s : State} {e : HostEvent} {rest : List HostEvent} (h : s.pending = e :: rest) :
    step s = perform e (s.taken rest) := by
  unfold step nextEvent; rw [h]

theorem step_idle {s : State} (h : s.pending = []) : step s = .next s := by
  unfold step nextEvent; rw [h]

theorem step_engineInv {s t : State} (hs : EngineInv s) (h : step s = .next t) : EngineInv t := by
  rcases hp : s.pending with _ | ⟨e, rest⟩
  · cases (step_idle hp).symm.trans h
    exact hs
  · exact (perform_effect ((step_of_pending hp).symm.trans h)).engineInv hs

/-- What a step keeps, a run keeps. -/
theorem run_keeps {M : Host.Core} {P : M.State → Prop} (hstep : ∀ s t, P s → M.step s = .next t → P t)
    {steps : Nat} {s t : M.State} (hs : P s) (h : M.run steps s = .next t) : P t := by
  induction steps generalizing s with
  | zero => cases h; exact hs
  | succ k ih =>
    unfold Host.Core.run at h
    split at h
    case h_1 u hu => exact ih (hstep s u hs hu) h
    all_goals cases h

/-- `ERR` reads 0 to 4 (R27). -/
theorem toNat_errField_le (s : State) : (errField s).toNat ≤ 4 := by
  unfold errField
  split
  · decide
  · next e _ => cases e <;> decide

/-- Under the invariants every cell beyond the extent is empty (R23). -/
theorem EngineInv.get_beyond {s : State} (h : EngineInv s) {b : BufId} (hb : b.stream = false) {k : Nat}
    (hk : s.extent ≤ k) : (s.buffer b).get k = none :=
  Buffer.get_of_wf (h.buffer_wf b) (by simpa [State.limit, hb] using hk)

/-! ### A command as the next transaction -/

/-- A command's word, zero-extended and written to `CMD`, performs the command (R26, R75). -/
theorem hostWrite_command {d : Data} {i : Instr} (hd : d.extractLsb' 32 32 = 0)
    (hi : decode (d.extractLsb' 0 32) = .ok i) (s : State) : hostWrite 0x000 d s = exec i s := by
  rw [hostWrite_cmd, writeCmd_command hd, performWord, hi]

theorem decodeTableWord_eq_some {nbits w : Nat} {i : Instr} (h : decodeTableWord nbits w = some i) :
    w % 2 ^ nbits < 2 ^ 32 ∧ decode (BitVec.ofNat 32 (w % 2 ^ nbits)) = .ok i := by
  simp only [decodeTableWord] at h
  split at h
  case isTrue hlt =>
    refine ⟨hlt, ?_⟩
    rcases hdec : decode (BitVec.ofNat 32 (w % 2 ^ nbits)) with r | j <;> rw [hdec] at h <;> cases h
    rfl
  case isFalse => cases h

/-- A datum below 2^32 has zeros in bits [63:32] and itself in bits [31:0] (R64). -/
theorem halves_of_lt {m : Nat} (h : m < 2 ^ 32) :
    (BitVec.ofNat 64 m).extractLsb' 32 32 = 0 ∧ (BitVec.ofNat 64 m).extractLsb' 0 32 = BitVec.ofNat 32 m := by
  constructor <;> apply BitVec.eq_of_toNat_eq <;>
    simp only [BitVec.extractLsb'_toNat, BitVec.toNat_ofNat, Nat.shiftRight_eq_div_pow, BitVec.ofNat_eq_ofNat] <;>
    omega

/-! ### STATUS -/

theorem Buffer.full_iff_ne_none {width : Nat} {b : Buffer width} {count : Nat} :
    b.full count = true ↔ ∀ k < count, b.get k ≠ none := by
  simp [Buffer.full_iff, Option.isSome_iff_ne_none]

theorem streamFull_iff {s : State} :
    streamFull s = true ↔ ∀ k < s.rlen.toNat, s.rv.get k ≠ none ∧ s.rc.get k ≠ none := by
  rw [streamFull, Bool.and_eq_true, Buffer.full_iff_ne_none, Buffer.full_iff_ne_none]
  exact forall₂_and.symm

theorem lockBit_iff {s : State} : lockBit s = true ↔ s.err ≠ none := by
  unfold lockBit errField
  rcases s.err with _ | e
  · decide
  · cases e <;> decide

theorem statusWord_err (s : State) : (statusWord s).extractLsb' 0 4 = errField s := by
  apply BitVec.eq_of_getLsbD_eq
  intro i hi
  rw [BitVec.getLsbD_extractLsb', statusWord, BitVec.getLsbD_append]
  simp [hi]

/-- The bits of `STATUS` above `ERR`, from bit 4 on (R27). -/
theorem getLsbD_statusWord (s : State) {i : Nat} (hi : 4 ≤ i) : (statusWord s).getLsbD i =
    [lockBit s, false, false, false, s.p.full s.extent, s.x.full s.extent, s.f.full s.extent, s.q.full s.extent,
      s.z.full s.extent, streamFull s].getD (i - 4) false := by
  obtain ⟨j, rfl⟩ := Nat.exists_eq_add_of_le hi
  unfold statusWord
  iterate 9 rw [BitVec.getLsbD_append]
  rcases j with _ | _ | _ | _ | _ | _ | _ | _ | _ | _ | j <;> simp

theorem statusWord_reserved_low (s : State) : (statusWord s).extractLsb' 5 3 = 0 := by
  apply BitVec.eq_of_getLsbD_eq
  intro i hi
  rw [BitVec.getLsbD_extractLsb', getLsbD_statusWord s (by omega)]
  interval_cases i <;> rfl

theorem statusWord_reserved_high (s : State) : (statusWord s).extractLsb' 14 50 = 0 := by
  apply BitVec.eq_of_getLsbD_eq
  intro i hi
  rw [BitVec.getLsbD_extractLsb', getLsbD_statusWord s (by omega), List.getD_eq_default _ _ (by simp; omega)]
  simp

end Sys2Proof.Machine

/-! # The statements of the state, its registers and its invariants -/

namespace Sys2Proof.Proofs

open Sys2Proof.Machine Sys2Proof.Claims

/-- Settles O8: every event has one of the effects of `Effect`, and each keeps the invariants. -/
theorem stepKeepsTheInvariants : Obligations.StepKeepsTheInvariants := fun _ _ => step_engineInv

/-- Settles O9, by induction on the number of steps: the reset state meets the invariants and every step keeps them. -/
theorem reachableStatesMeetTheInvariants : Obligations.ReachableStatesMeetTheInvariants := by
  intro events steps t h
  have hstart : EngineInv { State.reset with pending := events } := engineInv_reset
  have hinv : EngineInv t :=
    run_keeps (M := Sys2Proof.core) (P := EngineInv) (fun _ _ => step_engineInv) hstart h
  exact ⟨hinv, toNat_errField_le t, fun b hb k hk => hinv.get_beyond hb hk⟩

/-- Settles O13: the latch is read off the effects of an event. -/
theorem onlyThreeEventsWriteTheLatch : Obligations.OnlyThreeEventsWriteTheLatch :=
  fun _ _ _ h => (perform_effect h).latch_changed

/-- Settles O15: a command that is refused or raises an error writes no cell; one that completes writes a run of cells
inside the extent of its destination, or the stream. -/
theorem commandsWriteOnlyTheirDestination : Obligations.CommandsWriteOnlyTheirDestination := by
  intro i s t h
  rcases exec_writes h with ⟨r, hr, err, ecmd, rfl⟩ | ⟨u, hw, rfl⟩
  · have hcells : SameCells s { s with err := err, ecmd := ecmd, answers := code r :: s.answers } :=
      fun b k => by cases b <;> rfl
    exact ⟨rfl, rfl, fun _ => rfl, fun b _ => hcells b, fun _ b k _ => hcells b k, code r, rfl, rfl,
      fun hok => absurd hok hr, fun _ => ⟨hcells, rfl⟩⟩
  · obtain ⟨hbsize, hpending, hanswers, herr, hecmd, hrlen⟩ := hw.registers
    refine ⟨hbsize, hpending, hrlen, fun b hb k => ?_, fun hi b k hk => ?_, code .ok, congrArg _ hanswers, rfl,
      fun _ => ⟨herr, hecmd⟩, fun hok => absurd rfl hok⟩
    · rw [State.respond_buffer, hw.buffer_other hb]
    · rw [State.respond_buffer, hw.get_beyond hi b hk]

/-- Settles O46, from the equation of the bits of `STATUS`. -/
theorem statusFields : Obligations.StatusFields := by
  refine fun s => ⟨statusWord s, rfl, ?_, ?_, statusWord_reserved_low s, ?_, ?_, ?_, ?_, ?_, ?_,
    statusWord_reserved_high s⟩
  · rw [statusWord_err, errField]
    rcases s.err with _ | _ | _ | _ | _ <;> rfl
  all_goals rw [getLsbD_statusWord s (by decide)]
  exacts [lockBit_iff, Buffer.full_iff_ne_none, Buffer.full_iff_ne_none, Buffer.full_iff_ne_none,
    Buffer.full_iff_ne_none, Buffer.full_iff_ne_none, streamFull_iff]

/-- Settles O48: the write is accepted for 1 to 16 and then makes every buffer the empty list. -/
theorem bsizeAccess : Obligations.BsizeAccess := by
  refine fun s => ⟨fun d h1 h16 => ?_, fun d hd => ?_, s.bsize.setWidth 64,
    toNat_setWidth_of_lt (by have := s.bsize.isLt; omega), hostRead_address .bsize s⟩
  · refine ⟨(s.setBsize (d.setWidth 5)).respond .ok, ?_, toNat_setWidth_of_lt (by omega), fun b k => ?_,
      rfl, rfl, rfl, rfl, rfl⟩
    · rw [hostWrite_bsize, writeBsize_ok h1 h16]
    · rw [State.respond_buffer, State.setBsize_buffer, Buffer.get_nil]
  · rw [hostWrite_bsize, writeBsize_range hd]; rfl

/-- Settles O49: the write is accepted for 0 to 256 and sets the register alone. -/
theorem rlenAccess : Obligations.RlenAccess := by
  refine fun s => ⟨fun d hd => ?_, fun d hd => ?_, s.rlen.setWidth 64,
    toNat_setWidth_of_lt (by have := s.rlen.isLt; omega), hostRead_address .rlen s⟩
  · refine ⟨(s.setRlen (d.setWidth 9)).respond .ok, ?_, toNat_setWidth_of_lt (by omega), rfl⟩
    rw [hostWrite_rlen, writeRlen_ok hd]
  · rw [hostWrite_rlen, writeRlen_range hd]; rfl

/-- Settles O4: the step takes the command write off the list and performs its word. -/
theorem stepRunsTheDecodedCommand : Obligations.StepRunsTheDecodedCommand := by
  refine ⟨fun s d rest i hp hd hi => ?_, fun s => step_idle, fun s nbits w i h => ?_⟩
  · rw [step_of_pending hp]
    exact hostWrite_command hd hi _
  · obtain ⟨hlt, hi⟩ := decodeTableWord_eq_some h
    obtain ⟨hhigh, hlow⟩ := halves_of_lt hlt
    exact hostWrite_command hhigh (hlow ▸ hi) s

/-- Settles O6: both resets are `State.resetEngine`. -/
theorem resetValues : Obligations.ResetValues := by
  refine ⟨fun s => ⟨rfl, fun d hd h0 => ?_⟩, fun b k => ?_, rfl, rfl, rfl, rfl, ?_⟩
  · rw [hostWrite_ctrl, writeCtrl_reset hd h0]; rfl
  · rw [State.reset_buffer, Buffer.get_nil]
  · have hstatus : statusWord State.reset = 0x2000 := by decide
    exact (hostRead_address .status _).trans (congrArg State.reset.respondData hstatus)

/-- Settles O7, by evaluating the registers and the empty buffers of the reset state. -/
theorem resetSatisfiesTheInvariants : Obligations.ResetSatisfiesTheInvariants := engineInv_reset

/-- Settles O47: one equation of `writeCtrl` for each kind of write. -/
theorem ctrlWrites : Obligations.CtrlWrites := by
  refine fun s d => ⟨hostRead_address .ctrl s, fun hd => ?_, ?_, fun hd => ?_, ?_⟩
  · rw [hostWrite_ctrl, writeCtrl_range hd]; rfl
  · rintro rfl
    rw [hostWrite_ctrl, writeCtrl_zero]; rfl
  · have hbits : d.extractLsb' 2 62 = 0 ∧ d.getLsbD 0 = true := by rcases hd with rfl | rfl <;> decide
    obtain ⟨hhigh, h0⟩ := hbits
    rw [hostWrite_ctrl, writeCtrl_reset hhigh h0]; rfl
  · rintro rfl
    rw [hostWrite_ctrl, writeCtrl_clear]; rfl

end Sys2Proof.Proofs

/-! # The accesses of the host port

One equation per kind of access to a cell, which data a cell holds, what the error latch commutes with, and that a
repeated command makes the same writes again. -/

namespace Sys2Proof.Machine

open Sys2Proof.Claims

/-! ### Cells at the port -/

/-- The address of a cell names that cell (R41). -/
theorem place_cellAddress (b : BufId) (k : BitVec 8) : place (b.address k) = .cell b k.toNat := by
  have hpage : (b.address k).extractLsb' 8 4 = b.page := BitVec.extractLsb'_append_eq_left
  have hoffset : (b.address k).extractLsb' 0 8 = k := BitVec.extractLsb'_append_eq_right
  rw [place, hpage, hoffset]
  cases b <;> rfl

/-- An address that names a cell lies on the page of its buffer (R41). -/
theorem page_of_place_cell {a : Addr} {b : BufId} {k : Nat} (h : place a = .cell b k) :
    a.toNat / 256 = b.page.toNat := by
  have hpage : (a.extractLsb' 8 4).toNat = b.page.toNat := by
    simp only [place] at h
    split at h
    case h_1 => exact absurd h (regAt_ne_cell _ _ _)
    case h_9 => cases h
    all_goals
      rename_i hp
      cases h
      exact hp
  rw [BitVec.extractLsb'_toNat, Nat.shiftRight_eq_div_pow] at hpage
  omega

/-- The holes of the window: the rest of page 0, and the pages 8 to 15 (R41, R47). -/
theorem place_unmapped {a : Addr} (ha : (6 ≤ a.toNat ∧ a.toNat ≤ 0xFF) ∨ 0x800 ≤ a.toNat) :
    place a = .unmapped := by
  rcases h : place a with r | ⟨b, k⟩ | _
  · have hr : r.address.toNat ≤ 5 := by cases r <;> decide
    rw [eq_address_of_place h] at ha
    omega
  · have hpage : 1 ≤ b.page.toNat ∧ b.page.toNat ≤ 7 := by cases b <;> decide
    have := page_of_place_cell h
    omega
  · rfl

theorem hostRead_unmapped {a : Addr} (h : place a = .unmapped) (s : State) : hostRead a s = s.respond .unmapped := by
  unfold hostRead; rw [h]

theorem hostWrite_unmapped {a : Addr} (h : place a = .unmapped) (d : Data) (s : State) :
    hostWrite a d s = .next (s.respond .unmapped) := by
  unfold hostWrite; rw [h]

theorem hostRead_cellAddress (b : BufId) (k : BitVec 8) (s : State) :
    hostRead (b.address k) s = readCell b k.toNat s := by
  unfold hostRead; rw [place_cellAddress]

theorem hostWrite_cellAddress (b : BufId) (k : BitVec 8) (d : Data) (s : State) :
    hostWrite (b.address k) d s = .next (writeCell b k.toNat d s) := by
  unfold hostWrite; rw [place_cellAddress]

section Cell

variable {s : State} {b : BufId} {k : Nat}

theorem readCell_unmapped (hk : s.limit b ≤ k) : readCell b k s = s.respond .unmapped :=
  if_neg (Nat.not_lt.mpr hk)

theorem readCell_empty (hk : k < s.limit b) (h : (s.buffer b).get k = none) :
    readCell b k s = s.respond .invalid := by
  unfold readCell; rw [if_pos hk, h]

theorem readCell_value (hk : k < s.limit b) {v : BitVec b.width} (h : (s.buffer b).get k = some v) :
    readCell b k s = s.respondData (portImage b v) := by
  unfold readCell; rw [if_pos hk, h]

theorem writeCell_unmapped (hk : s.limit b ≤ k) (d : Data) : writeCell b k d s = s.respond .unmapped :=
  if_neg (Nat.not_lt.mpr hk)

theorem writeCell_range (hk : k < s.limit b) {d : Data} (h : ofPort b d = none) :
    writeCell b k d s = s.respond .range := by
  unfold writeCell; rw [if_pos hk, h]

theorem writeCell_value (hk : k < s.limit b) {d : Data} {v : BitVec b.width} (h : ofPort b d = some v) :
    writeCell b k d s = (s.setBuffer b ((s.buffer b).set k v)).respond .ok := by
  unfold writeCell; rw [if_pos hk, h]

/-- The mapped cells of a matrix buffer are those of the extent (R41). -/
theorem limit_of_matrix (s : State) (hb : b.stream = false) : s.limit b = s.n * s.n := by
  simp [State.limit, hb, State.extent]

/-- Which cells the port maps: all 256 of a stream buffer, those of the extent of another (R41). -/
theorem lt_limit (s : State) {k : BitVec 8} (hk : b.stream = true ∨ k.toNat < s.n * s.n) : k.toNat < s.limit b := by
  rcases hb : b.stream with _ | _
  · rw [limit_of_matrix s hb]
    simpa [hb] using hk
  · rw [State.limit, if_pos hb]; exact k.isLt

/-- A write of a cell changes no other cell (R51). -/
theorem get_setBuffer_other (v : BitVec b.width) {c : BufId} {j : Nat} (h : (c, j) ≠ (b, k)) :
    ((s.setBuffer b ((s.buffer b).set k v)).buffer c).get j = (s.buffer c).get j := by
  by_cases hbc : b = c
  · subst hbc
    have hkj : k ≠ j := fun e => h (e ▸ rfl)
    rw [State.buffer_setBuffer, Buffer.get_set_other _ _ hkj]
  · rw [State.buffer_setBuffer_other _ _ hbc]

end Cell

/-! ### The data a cell holds -/

theorem BufId.width_le (b : BufId) : b.width ≤ 64 := by cases b <;> decide

theorem BufId.width_of_signed {b : BufId} (hb : b.signed = true) : b.width = 16 := by
  revert hb; cases b <;> decide

/-- The port image of a signed cell is its sign extension (R42). -/
theorem toInt_portImage {b : BufId} (hb : b.signed = true) (v : BitVec b.width) : (portImage b v).toInt = v.toInt := by
  rw [portImage, if_pos hb, BitVec.toInt_signExtend_of_le b.width_le]

/-- The port image of any other cell is its zero extension (R42). -/
theorem toNat_portImage {b : BufId} (hb : b.signed = false) (v : BitVec b.width) : (portImage b v).toNat = v.toNat := by
  rw [portImage, if_neg (by simp [hb]), BitVec.toNat_setWidth_of_le b.width_le]

/-- Data is accepted exactly when cutting it to the cell's width loses nothing (R50). -/
theorem ofPort_isSome_iff {b : BufId} {d : Data} :
    (ofPort b d).isSome = true ↔ portImage b (d.setWidth b.width) = d := by
  simp [ofPort]

theorem ofPort_isSome_iff_of_unsigned {b : BufId} (hb : b.signed = false) {d : Data} :
    (ofPort b d).isSome = true ↔ d.toNat < 2 ^ b.width := by
  rw [ofPort_isSome_iff, ← BitVec.toNat_inj, toNat_portImage hb, BitVec.toNat_setWidth,
    Nat.mod_eq_iff_lt (by positivity)]

theorem ofPort_isSome_iff_of_signed {b : BufId} (hb : b.signed = true) {d : Data} :
    (ofPort b d).isSome = true ↔ -2 ^ 15 ≤ d.toInt ∧ d.toInt < 2 ^ 15 := by
  rw [ofPort_isSome_iff, ← BitVec.toInt_inj, toInt_portImage hb, BitVec.toInt_setWidth, BufId.width_of_signed hb]
  rw [Int.bmod_def, BitVec.toInt_eq_toNat_cond]
  have := d.isLt
  split <;> split <;> omega

/-! ### The answers to a write -/

theorem exec_answers (i : Instr) (s : State) : ∃ t c, exec i s = .next t ∧ t.answers = code c :: s.answers := by
  rcases exec_cases i s with ⟨-, hx⟩ | ⟨-, e, -, hx⟩ | ⟨-, u, hu, hx⟩
  · exact ⟨_, .locked, hx, rfl⟩
  · exact ⟨_, .error e, hx, rfl⟩
  · obtain ⟨-, -, hanswers, -⟩ := (body_writes hu).registers
    exact ⟨_, .ok, hx, congrArg _ hanswers⟩

theorem illegalWord_answers (w : CmdWord) (s : State) :
    ∃ t c, illegalWord w s = .next t ∧ t.answers = code c :: s.answers := by
  by_cases hs : s.err = none
  · exact ⟨_, .error .illCmd, illegalWord_unlocked hs, rfl⟩
  · exact ⟨_, .locked, illegalWord_locked hs, rfl⟩

theorem writeCmd_answers (d : Data) (s : State) :
    ∃ t c, writeCmd d s = .next t ∧ t.answers = code c :: s.answers := by
  by_cases hd : d.extractLsb' 32 32 = 0
  · rw [writeCmd_command hd]
    rcases performWord_cases (d.extractLsb' 0 32) s with ⟨i, -, hp⟩ | ⟨-, hp⟩ <;> rw [hp]
    · exact exec_answers i s
    · exact illegalWord_answers _ s
  · exact ⟨_, .range, writeCmd_range hd s, rfl⟩

theorem writeCtrl_answers (d : Data) (s : State) : ∃ c, (writeCtrl d s).answers = code c :: s.answers := by
  by_cases hd : d.extractLsb' 2 62 = 0
  · rcases ctrl_value hd with rfl | rfl | rfl | rfl <;> exact ⟨.ok, rfl⟩
  · rw [writeCtrl_range hd]; exact ⟨.range, rfl⟩

theorem writeBsize_answers (d : Data) (s : State) : ∃ c, (writeBsize d s).answers = code c :: s.answers := by
  by_cases h : 1 ≤ d.toNat ∧ d.toNat ≤ 16
  · rw [writeBsize_ok h.1 h.2]; exact ⟨.ok, rfl⟩
  · rw [writeBsize_range (by omega)]; exact ⟨.range, rfl⟩

theorem writeRlen_answers (d : Data) (s : State) : ∃ c, (writeRlen d s).answers = code c :: s.answers := by
  rcases Nat.lt_or_ge 256 d.toNat with h | h
  · rw [writeRlen_range h]; exact ⟨.range, rfl⟩
  · rw [writeRlen_ok h]; exact ⟨.ok, rfl⟩

theorem writeCell_answers (b : BufId) (k : Nat) (d : Data) (s : State) :
    ∃ c, (writeCell b k d s).answers = code c :: s.answers := by
  rcases Nat.lt_or_ge k (s.limit b) with hk | hk
  · rcases hv : ofPort b d with _ | v
    · rw [writeCell_range hk hv]; exact ⟨.range, rfl⟩
    · obtain ⟨-, -, -, -, -, hanswers⟩ := s.setBuffer_registers b ((s.buffer b).set k v)
      rw [writeCell_value hk hv]
      exact ⟨.ok, congrArg _ hanswers⟩
  · rw [writeCell_unmapped hk]; exact ⟨.unmapped, rfl⟩

/-- A write gives a next state and one answer, a response code alone (R43). -/
theorem hostWrite_answers (a : Addr) (d : Data) (s : State) :
    ∃ t c, hostWrite a d s = .next t ∧ t.answers = code c :: s.answers := by
  unfold hostWrite
  rcases place a with r | ⟨b, k⟩ | _
  · cases r with
    | cmd => exact writeCmd_answers d s
    | status | ecmd => exact ⟨_, .access, rfl, rfl⟩
    | ctrl => exact ⟨_, (writeCtrl_answers d s).imp fun _ h => ⟨rfl, h⟩⟩
    | bsize => exact ⟨_, (writeBsize_answers d s).imp fun _ h => ⟨rfl, h⟩⟩
    | rlen => exact ⟨_, (writeRlen_answers d s).imp fun _ h => ⟨rfl, h⟩⟩
  · exact ⟨_, (writeCell_answers b k d s).imp fun _ h => ⟨rfl, h⟩⟩
  · exact ⟨_, .unmapped, rfl, rfl⟩

/-- Data stands beside the code `OK` only (R43, R49). -/
theorem data_of_code_ne_ok {e : HostEvent} {s t : State} {r : Answer} (h : perform e s = .next t)
    (he : e ≠ .hardReset) (hr : t.answers = r :: s.answers) (hcode : r.code ≠ .ok) : r.data = none := by
  cases e with
  | read a =>
    cases h
    rcases hostRead_cases a s with ⟨d, hd⟩ | ⟨c, -, hc⟩
    · rw [hd] at hr
      cases hr
      exact absurd rfl hcode
    · rw [hc] at hr
      cases hr
      rfl
  | write a d =>
    obtain ⟨u, c, hu, hanswers⟩ := hostWrite_answers a d s
    cases hu.symm.trans h
    cases hanswers.symm.trans hr
    rfl
  | hardReset => exact absurd rfl he

/-- An effect whose answer is no command error and not `OK` is the answer alone (R46). -/
theorem Effect.refused {e : HostEvent} {s t : State} {r : Answer} (h : Effect s e t) (he : e ≠ .hardReset)
    (hr : t.answers = r :: s.answers) (hok : r.code ≠ .ok) (herror : ∀ err, r.code ≠ .error err) :
    t = { s with answers := r :: s.answers } := by
  cases h with
  | answered a => cases hr; rfl
  | hardReset => exact absurd rfl he
  | softReset | clearError | resize | setLength | setCell | completed =>
    have hcode := congrArg Answer.code (List.cons.inj hr).1
    exact absurd hcode.symm hok
  | raised err =>
    cases hr
    exact absurd rfl (herror err)

/-! ### The error latch and the other accesses -/

section Latch

variable (s : State) (e : CmdError) (w : CmdWord)

@[simp] theorem State.latch_buffer (b : BufId) : (s.latch e w).buffer b = s.buffer b := by cases b <;> rfl

@[simp] theorem State.latch_limit (b : BufId) : (s.latch e w).limit b = s.limit b := rfl

theorem State.latch_setBuffer (b : BufId) (cells : Buffer b.width) :
    (s.latch e w).setBuffer b cells = (s.setBuffer b cells).latch e w := by cases b <;> rfl

theorem readCell_latch (b : BufId) (k : Nat) : readCell b k (s.latch e w) = (readCell b k s).latch e w := by
  unfold readCell
  rw [State.latch_limit, State.latch_buffer]
  split
  · split <;> rfl
  · rfl

theorem writeCell_latch (b : BufId) (k : Nat) (d : Data) :
    writeCell b k d (s.latch e w) = (writeCell b k d s).latch e w := by
  unfold writeCell
  rw [State.latch_limit, State.latch_buffer]
  split
  · split
    · rw [State.latch_setBuffer]; rfl
    · rfl
  · rfl

theorem writeBsize_latch (d : Data) : writeBsize d (s.latch e w) = (writeBsize d s).latch e w := by
  unfold writeBsize; split <;> rfl

theorem writeRlen_latch (d : Data) : writeRlen d (s.latch e w) = (writeRlen d s).latch e w := by
  unfold writeRlen; split <;> rfl

/-- A read of any address but `STATUS` and `ECMD` does not see the latch (R61). -/
theorem hostRead_latch {a : Addr} (hstatus : a ≠ 0x001) (hecmd : a ≠ 0x005) :
    hostRead a (s.latch e w) = (hostRead a s).latch e w := by
  unfold hostRead
  rcases hp : place a with r | ⟨b, k⟩ | _
  · cases eq_address_of_place hp
    cases r with
    | status => exact absurd rfl hstatus
    | ecmd => exact absurd rfl hecmd
    | cmd | ctrl | bsize | rlen => rfl
  · exact readCell_latch s e w b k
  · rfl

/-- A write of any address but `CMD` and `CTRL` neither sees the latch nor changes it (R61). -/
theorem hostWrite_latch {a : Addr} (d : Data) (hcmd : a ≠ 0x000) (hctrl : a ≠ 0x002) :
    ∃ t, hostWrite a d s = .next t ∧ hostWrite a d (s.latch e w) = .next (t.latch e w) := by
  unfold hostWrite
  rcases hp : place a with r | ⟨b, k⟩ | _
  · cases eq_address_of_place hp
    cases r with
    | cmd => exact absurd rfl hcmd
    | ctrl => exact absurd rfl hctrl
    | status | ecmd => exact ⟨_, rfl, rfl⟩
    | bsize => exact ⟨_, rfl, congrArg _ (writeBsize_latch s e w d)⟩
    | rlen => exact ⟨_, rfl, congrArg _ (writeRlen_latch s e w d)⟩
  · exact ⟨_, rfl, congrArg _ (writeCell_latch s e w b k d)⟩
  · exact ⟨_, rfl, rfl⟩

end Latch

/-! ### A command repeated at once -/

/-- After a run of writes a cell the run names holds the same in any two buffers, and so does a cell in which they
agree. -/
theorem Buffer.get_writes_congr {width j : Nat} {cells : List (Nat × BitVec width)} {b c : Buffer width}
    (h : j ∈ cells.map Prod.fst ∨ b.get j = c.get j) : (b.writes cells).get j = (c.writes cells).get j := by
  induction cells generalizing b c with
  | nil => simpa using h
  | cons d rest ih =>
    rw [Buffer.writes_cons, Buffer.writes_cons]
    apply ih
    rw [List.map_cons, List.mem_cons] at h
    rw [Buffer.get_set, Buffer.get_set]
    split
    · exact .inr rfl
    · next hne => exact h.imp_left fun hj => hj.resolve_left (Ne.symm hne)

/-- A run of writes made a second time changes no cell. -/
@[simp] theorem Buffer.get_writes_writes {width : Nat} (b : Buffer width) (cells : List (Nat × BitVec width))
    (j : Nat) : ((b.writes cells).writes cells).get j = (b.writes cells).get j := by
  by_cases hj : j ∈ cells.map Prod.fst
  · exact Buffer.get_writes_congr (.inl hj)
  · exact Buffer.get_writes_other _ hj

/-- A fill made a second time changes no cell. -/
@[simp] theorem Buffer.get_fill_fill {width : Nat} (b : Buffer width) (values : List (BitVec width)) (j : Nat) :
    ((b.fill values).fill values).get j = (b.fill values).get j := Buffer.get_writes_writes b _ j

/-- The seven buffers of rule R13, each read alike. -/
theorem sameCells_iff {s t : State} : SameCells s t ↔
    (∀ k, t.p.get k = s.p.get k) ∧ (∀ k, t.x.get k = s.x.get k) ∧ (∀ k, t.f.get k = s.f.get k) ∧
      (∀ k, t.q.get k = s.q.get k) ∧ (∀ k, t.z.get k = s.z.get k) ∧ (∀ k, t.rv.get k = s.rv.get k) ∧
      ∀ k, t.rc.get k = s.rc.get k := by
  constructor
  · exact fun h => ⟨h .p, h .x, h .f, h .q, h .z, h .rv, h .rc⟩
  · rintro ⟨hp, hx, hf, hq, hz, hrv, hrc⟩ b
    cases b
    exacts [hp, hx, hf, hq, hz, hrv, hrc]

/-- No command writes its own source, so a command that passed its checks passes them again and makes the same writes
(R63, R66). -/
theorem body_repeated {i : Instr} {s t : State} (h : body i s = .ok t) :
    ∃ u, body i (t.respond .ok) = .ok u ∧ SameCells t u ∧ u.rlen = t.rlen := by
  cases i with
  | ldpx =>
    obtain ⟨samples, hc, rfl⟩ := body_ldpx.mp h
    exact ⟨_, body_ldpx.mpr ⟨samples, by simpa using hc, rfl⟩, by simp [sameCells_iff], by simp⟩
  | fdct =>
    obtain ⟨cells, hc, hfit, rfl⟩ := body_fdct.mp h
    exact ⟨_, body_fdct.mpr ⟨cells, by simpa using hc, hfit, rfl⟩, by simp [sameCells_iff], by simp⟩
  | qnt =>
    obtain ⟨coefficients, hc, hfinite, rfl⟩ := body_qnt.mp h
    exact ⟨_, body_qnt.mpr ⟨coefficients, by simpa using hc, hfinite, rfl⟩, by simp [sameCells_iff], by simp⟩
  | zzf =>
    obtain ⟨matrix, hc, rfl⟩ := body_zzf.mp h
    exact ⟨_, body_zzf.mpr ⟨matrix, by simpa using hc, rfl⟩, by simp [sameCells_iff], by simp⟩
  | rle =>
    obtain ⟨sequence, hc, rfl⟩ := body_rle.mp h
    exact ⟨_, body_rle.mpr ⟨sequence, by simpa using hc, rfl⟩, by simp [sameCells_iff], by simp⟩
  | stpx =>
    obtain ⟨reals, hc, hfinite, rfl⟩ := body_stpx.mp h
    exact ⟨_, body_stpx.mpr ⟨reals, by simpa using hc, hfinite, rfl⟩, by simp [sameCells_iff], by simp⟩
  | idct =>
    obtain ⟨cells, hc, hfit, rfl⟩ := body_idct.mp h
    exact ⟨_, body_idct.mpr ⟨cells, by simpa using hc, hfit, rfl⟩, by simp [sameCells_iff], by simp⟩
  | dqt =>
    obtain ⟨integers, hc, rfl⟩ := body_dqt.mp h
    exact ⟨_, body_dqt.mpr ⟨integers, by simpa using hc, rfl⟩, by simp [sameCells_iff], by simp⟩
  | zzu =>
    obtain ⟨sequence, hc, rfl⟩ := body_zzu.mp h
    exact ⟨_, body_zzu.mpr ⟨sequence, by simpa using hc, rfl⟩, by simp [sameCells_iff], by simp⟩
  | rld =>
    obtain ⟨pairs, hsource, hsum, rfl⟩ := body_rld.mp h
    exact ⟨_, body_rld.mpr ⟨pairs, hsource, by simpa using hsum, rfl⟩, by simp [sameCells_iff], by simp⟩

/-- A command that answered `OK` was not locked, passed its checks and made its writes (R146). -/
theorem exec_completed {i : Instr} {s t : State} (h : exec i s = .next t) (hok : t.answers = code .ok :: s.answers) :
    s.err = none ∧ ∃ u, body i s = .ok u ∧ t = u.respond .ok := by
  rcases exec_cases i s with ⟨-, hx⟩ | ⟨-, e, -, hx⟩ | ⟨hs, u, hu, hx⟩ <;> cases hx.symm.trans h
  · cases hok
  · cases hok
  · exact ⟨hs, u, hu, rfl⟩

end Sys2Proof.Machine

/-! # The statements of the host port -/

namespace Sys2Proof.Proofs

open Sys2Proof.Machine Sys2Proof.Claims

/-- Settles O40: the address map for the holes, the limit of a matrix buffer for the cells beyond the extent. -/
theorem unmappedAccessesAnswerUnmapped : Obligations.UnmappedAccessesAnswerUnmapped := by
  refine ⟨fun a d s ha => ?_, fun b k d s hb hk => ?_, fun k s hn => ?_⟩
  · exact ⟨hostRead_unmapped (place_unmapped ha) s, hostWrite_unmapped (place_unmapped ha) d s⟩
  · rw [← limit_of_matrix s hb] at hk
    rw [hostRead_cellAddress, hostWrite_cellAddress, readCell_unmapped hk, writeCell_unmapped hk]
    exact ⟨rfl, rfl⟩
  · rw [hn]; exact k.isLt

/-- Settles O42: the two answers to a read of a mapped cell, and the number its port image is. -/
theorem cellReads : Obligations.CellReads := by
  intro b k s hk
  have hlimit := lt_limit s hk
  rw [hostRead_cellAddress]
  exact ⟨readCell_empty hlimit, fun v hv => ⟨portImage b v, readCell_value hlimit hv,
    fun hb => toInt_portImage hb v, fun hb => toNat_portImage hb v⟩⟩

/-- Settles O43: a write of a mapped cell is accepted exactly when the data is the port image of a value, and the value
stored has the data as its port image. -/
theorem cellWrites : Obligations.CellWrites := by
  intro b k d s hk
  have hlimit := lt_limit s hk
  rw [hostWrite_cellAddress]
  refine ⟨fun hd => ?_, fun hd => ?_⟩
  · have hnone : ofPort b d = none := by
      rw [← Option.not_isSome_iff_eq_none]
      rcases hd with ⟨hb, hd⟩ | ⟨hb, hd⟩
      · rw [ofPort_isSome_iff_of_unsigned hb]; exact Nat.not_lt.mpr hd
      · rwa [ofPort_isSome_iff_of_signed hb]
    rw [writeCell_range hlimit hnone]; rfl
  · have hsome : (ofPort b d).isSome = true := by
      rcases hd with ⟨hb, hd⟩ | ⟨hb, hd⟩
      · exact (ofPort_isSome_iff_of_unsigned hb).mpr hd
      · exact (ofPort_isSome_iff_of_signed hb).mpr hd
    obtain ⟨v, hv⟩ := Option.isSome_iff_exists.mp hsome
    obtain ⟨hbsize, hrlen, herr, hecmd, hpending, hanswers⟩ :=
      s.setBuffer_registers b ((s.buffer b).set k.toNat v)
    refine ⟨(s.setBuffer b ((s.buffer b).set k.toNat v)).respond .ok, congrArg _ (writeCell_value hlimit hv),
      congrArg _ hanswers, ?_, fun c j hcj => ?_, hbsize, hrlen, herr, hecmd, hpending⟩
    · have hget : (((s.setBuffer b ((s.buffer b).set k.toNat v)).respond .ok).buffer b).get k.toNat = some v := by
        rw [State.respond_buffer, State.buffer_setBuffer, Buffer.get_set_self]
      have hmapped : k.toNat < ((s.setBuffer b ((s.buffer b).set k.toNat v)).respond .ok).limit b :=
        (s.setBuffer_limit b b _).symm ▸ hlimit
      rw [hostRead_cellAddress, readCell_value hmapped hget, portImage_of_ofPort hv]
      rfl
    · rw [State.respond_buffer, get_setBuffer_other v hcj]

/-- Settles O45: by its effect such a transaction is the answer alone, and a code other than `OK` has no data. -/
theorem refusedAccessesChangeNothing : Obligations.RefusedAccessesChangeNothing := by
  intro e s t r h he hr hcode
  have hok : r.code ≠ .ok := fun hc => absurd (hc ▸ hcode) (by decide)
  have herror : ∀ err, r.code ≠ .error err := fun err hc => absurd (hc ▸ hcode) (by simp)
  exact ⟨data_of_code_ne_ok h he hr hok, (perform_effect h).refused he hr hok herror⟩

/-- Settles O51: every such access commutes with setting the latch. -/
theorem lockReachesOnlyCommandWrites : Obligations.LockReachesOnlyCommandWrites :=
  ⟨fun _ s e w hstatus hecmd => hostRead_latch s e w hstatus hecmd,
    fun _ d s e w hcmd hctrl => hostWrite_latch s e w d hcmd hctrl⟩

/-- Settles O52: no command writes its own source, so the second performance makes the writes of the first. -/
theorem repeatedCommandsChangeNothing : Obligations.RepeatedCommandsChangeNothing := by
  intro i s t h hok
  obtain ⟨hunlocked, v, hv, rfl⟩ := exec_completed h hok
  obtain ⟨-, -, -, herr, -, -⟩ := (body_writes hv).registers
  obtain ⟨u, hu, hcells, hrlen⟩ := body_repeated hv
  obtain ⟨hbsize, hpending, hanswers, herr', hecmd, -⟩ := (body_writes hu).registers
  refine ⟨u.respond .ok, exec_of_ok (herr.trans hunlocked) hu, congrArg _ hanswers, fun b k => ?_, hbsize, hrlen,
    herr', hecmd, hpending⟩
  rw [State.respond_buffer, State.respond_buffer]
  exact hcells b k

/-- Settles O41: the arms of the write-only registers on a read and of the read-only ones on a write. -/
theorem wrongDirectionAnswersAccess : Obligations.WrongDirectionAnswersAccess :=
  fun d s => ⟨hostRead_address .cmd s, hostRead_address .ctrl s, hostWrite_address .status d s,
    hostWrite_address .ecmd d s⟩

/-- Settles O44: a read is its answer, with data or a code alone. -/
theorem readsHaveNoSideEffects : Obligations.ReadsHaveNoSideEffects := by
  intro a s
  rcases hostRead_cases a s with ⟨d, hd⟩ | ⟨r, -, hr⟩
  · exact ⟨{ code := .ok, data := some d }, hd⟩
  · exact ⟨code r, hr⟩

/-- Settles O50: the check of bits [63:32] stands before the lock and the decoder. -/
theorem wideCommandDataIsRefused : Obligations.WideCommandDataIsRefused := by
  refine fun s d => ⟨fun hd => ?_, s.ecmd.setWidth 64, toNat_setWidth_of_lt (by have := s.ecmd.isLt; omega),
    hostRead_address .ecmd s⟩
  rw [hostWrite_cmd, writeCmd_range hd]; rfl

end Sys2Proof.Proofs

/-! # The command words

The decoder is the inverse of the encoder on the ten words of rule R66 (R67); the words it refuses are the illegal ones
of rule R69. -/

namespace Sys2Proof.Machine

/-! ### The rows of the opcode map -/

/-- Every command has one of the stage numbers 1 to 5 (R66). -/
theorem toNat_stage_bounds (i : Instr) : 1 ≤ i.stage.toNat ∧ i.stage.toNat ≤ 5 := by cases i <;> decide

/-- The opcode map has a row for each direction and each of the stages 1 to 5, and no other (R66). -/
theorem exists_instrOf_eq_some {dir : Bool} {stage : Nat} :
    (∃ i, instrOf dir stage = some i) ↔ 1 ≤ stage ∧ stage ≤ 5 := by
  constructor
  · rintro ⟨i, hi⟩
    obtain ⟨-, rfl⟩ := instrOf_eq_some hi
    exact toNat_stage_bounds i
  · rintro ⟨h1, h5⟩
    interval_cases stage <;> cases dir <;> exact ⟨_, rfl⟩

/-! ### The decoder and the encoder -/

@[simp] theorem dirField_encode (i : Instr) : dirField (encode i) = i.dir := by cases i <;> rfl

@[simp] theorem stageField_encode (i : Instr) : stageField (encode i) = i.stage := by cases i <;> rfl

@[simp] theorem decode_encode (i : Instr) : decode (encode i) = .ok i := by cases i <;> rfl

/-- A word is the command whose word it equals (R67). -/
theorem decode_eq_ok_iff {w : CmdWord} {i : Instr} : decode w = .ok i ↔ w = encode i :=
  ⟨fun h => (encode_of_decode h).symm, fun h => h ▸ decode_encode i⟩

/-- The decoder by the fields of the word: bits [31:4] are 0 and the other two name the row (R67). -/
theorem decode_eq_ok_iff_instrOf {w : CmdWord} {i : Instr} :
    decode w = .ok i ↔ zeroField w = 0 ∧ instrOf (dirField w) (stageField w).toNat = some i := by
  unfold decode
  by_cases hz : zeroField w = 0
  · rw [if_pos hz]
    rcases instrOf (dirField w) (stageField w).toNat with _ | j <;> simp [hz]
  · rw [if_neg hz]
    exact ⟨nofun, fun h => absurd h.1 hz⟩

/-- A word is some command exactly when its field `zero` is 0 and its field `stage` is 1 to 5 (R67). -/
theorem exists_decode_eq_ok {w : CmdWord} :
    (∃ i, decode w = .ok i) ↔ zeroField w = 0 ∧ 1 ≤ (stageField w).toNat ∧ (stageField w).toNat ≤ 5 := by
  simp only [decode_eq_ok_iff_instrOf, exists_and_left, exists_instrOf_eq_some]

/-! ### Illegal words -/

/-- A word is illegal exactly when it is no command's word (R67). -/
theorem exists_decode_eq_error {w : CmdWord} : (∃ r, decode w = .error r) ↔ ∀ i, w ≠ encode i := by
  simp only [Ne, ← decode_eq_ok_iff]
  rcases decode w with r | i <;> simp

/-- The two cases of an illegal word (R69). -/
theorem exists_decode_eq_error_iff_fields {w : CmdWord} :
    (∃ r, decode w = .error r) ↔ zeroField w ≠ 0 ∨ (stageField w).toNat ∈ [0, 6, 7] := by
  have hlt : (stageField w).toNat < 8 := (stageField w).isLt
  have hstage : (stageField w).toNat ∈ [0, 6, 7] ↔ ¬ (1 ≤ (stageField w).toNat ∧ (stageField w).toNat ≤ 5) := by
    simp only [List.mem_cons, List.not_mem_nil, or_false]
    omega
  have herror : (∃ r, decode w = .error r) ↔ ¬ ∃ i, decode w = .ok i := by
    simp only [exists_decode_eq_error, decode_eq_ok_iff, not_exists, Ne]
  rw [herror, exists_decode_eq_ok, hstage, ← not_and_or]

/-! ### A word written to `CMD` -/

/-- A zero-extended word is command write data of that word (R64). -/
theorem halves_of_setWidth (w : CmdWord) :
    (w.setWidth 64).extractLsb' 32 32 = 0 ∧ (w.setWidth 64).extractLsb' 0 32 = w := by
  have hhalves := halves_of_lt w.isLt
  rwa [BitVec.ofNat_toNat, BitVec.ofNat_toNat, BitVec.setWidth_eq] at hhalves

theorem hostWrite_word (w : CmdWord) (s : State) : hostWrite 0x000 (w.setWidth 64) s = performWord w s := by
  obtain ⟨hhigh, hlow⟩ := halves_of_setWidth w
  rw [hostWrite_cmd, writeCmd_command hhigh, hlow]

theorem performWord_of_error {w : CmdWord} {r : Illegal} (h : decode w = .error r) (s : State) :
    performWord w s = illegalWord w s := by rw [performWord, h]

end Sys2Proof.Machine

/-! # The statements of the encoding -/

namespace Sys2Proof.Proofs

open Sys2Proof.Machine

/-- Settles O2: the encoder is the decoder's inverse, and the fields of a command's word are its direction and stage. -/
theorem decodeReadsExactlyTheOpcodeMap : Obligations.DecodeReadsExactlyTheOpcodeMap := by
  refine ⟨fun _ _ => decode_eq_ok_iff, fun _ => exists_decode_eq_ok, fun w i h => ?_,
    fun _ => exists_decode_eq_error⟩
  obtain rfl := decode_eq_ok_iff.mp h
  exact ⟨(dirField_encode i).symm, (stageField_encode i).symm⟩

/-- Settles O3: such a word decodes to no command, and an unlocked engine raises the error on it. -/
theorem illegalWordsRaiseIllcmd : Obligations.IllegalWordsRaiseIllcmd := by
  refine ⟨fun s w hs hw => ?_, fun w => exists_decode_eq_error_iff_fields.symm.trans exists_decode_eq_error⟩
  obtain ⟨r, hr⟩ := exists_decode_eq_error_iff_fields.mpr hw
  rw [hostWrite_word, performWord_of_error hr, illegalWord_unlocked hs]
  rfl

/-- Settles O1: each word by evaluating the encoder, and each decoding because the word is the encoder's. -/
theorem opcodeMapWords : Obligations.OpcodeMapWords := by
  refine ⟨by decide, ?_⟩
  exact ⟨decode_encode .ldpx, decode_encode .fdct, decode_encode .qnt, decode_encode .zzf, decode_encode .rle,
    decode_encode .stpx, decode_encode .idct, decode_encode .dqt, decode_encode .zzu, decode_encode .rld⟩

end Sys2Proof.Proofs

/-! # The exact transforms

The discrete cosine basis is orthonormal, so its matrix is inverse to its transpose; the two exact transforms are
products with that matrix on both sides (R78, R85), and what they do to a block follows from matrix algebra. -/

namespace Sys2Proof.Machine

open Matrix

/-! ### The cosines -/

@[simp] theorem wave_zero (n x : Nat) : wave n x 0 = 1 := by simp [wave]

@[simp] theorem scale_zero : scale 0 = √2 / 2 := (if_pos rfl).trans (Real.sqrt_div_self').symm

theorem scale_of_ne_zero {i : Nat} (hi : i ≠ 0) : scale i = 1 := if_neg hi

theorem scale_zero_mul_self : scale 0 * scale 0 = 1 / 2 := by
  rw [scale_zero, div_mul_div_comm, Real.mul_self_sqrt (by norm_num)]
  norm_num

/-- The cosine of frequency u is that of u times the angle of frequency 1. -/
theorem wave_eq (n x u : Nat) : wave n x u = Real.cos (u * ((2 * x + 1) * Real.pi / (2 * n))) := by
  rw [wave]; congr 1; ring

/-- A product of two cosines is the mean of the cosines of the sum and of the difference. -/
theorem wave_mul_wave (n x : Nat) {u v : Nat} (h : v ≤ u) :
    wave n x u * wave n x v = (wave n x (u + v) + wave n x (u - v)) / 2 := by
  rw [wave_eq, wave_eq, wave_eq, wave_eq, Nat.cast_add, Nat.cast_sub h, add_mul (u : ℝ), sub_mul (u : ℝ),
    Real.cos_add, Real.cos_sub]
  ring

/-- The cosines of one frequency, from 1 to 2N - 1, sum to 0: times twice the sine of the half angle the sum
telescopes to a sine of a multiple of π. -/
theorem sum_wave {n u : Nat} (h0 : u ≠ 0) (hu : u < 2 * n) : ∑ x ∈ Finset.range n, wave n x u = 0 := by
  have hn : (0 : ℝ) < 2 * n := by exact_mod_cast (show 0 < 2 * n by omega)
  set θ : ℝ := u * Real.pi / (2 * n) with hθ
  have hpos : 0 < θ := by positivity
  have hlt : θ < Real.pi := by
    rw [hθ, div_lt_iff₀ hn, mul_comm]
    exact mul_lt_mul_of_pos_left (by exact_mod_cast hu) Real.pi_pos
  have hterm (x : Nat) : 2 * Real.sin θ * wave n x u =
      Real.sin (2 * ((x + 1 : Nat) : ℝ) * θ) - Real.sin (2 * (x : ℝ) * θ) := by
    have hwave : wave n x u = Real.cos ((2 * x + 1) * θ) := by rw [wave, hθ]; congr 1; ring
    rw [hwave, Real.two_mul_sin_mul_cos]
    push_cast
    rw [show (2 * ((x : ℝ) + 1)) * θ = θ + (2 * x + 1) * θ by ring,
      show 2 * (x : ℝ) * θ = -(θ - (2 * x + 1) * θ) by ring, Real.sin_neg]
    ring
  have htop : 2 * (n : ℝ) * θ = u * Real.pi := mul_div_cancel₀ _ hn.ne'
  have hsum : 2 * Real.sin θ * ∑ x ∈ Finset.range n, wave n x u = 0 := by
    rw [Finset.mul_sum, Finset.sum_congr rfl fun x _ => hterm x,
      Finset.sum_range_sub fun x : Nat => Real.sin (2 * (x : ℝ) * θ), htop]
    simp [Real.sin_nat_mul_pi]
  have hsin := Real.sin_pos_of_pos_of_lt_pi hpos hlt
  exact (mul_eq_zero.mp hsum).resolve_left (by positivity)

/-- Different frequencies below N are orthogonal. -/
theorem sum_wave_mul_wave_of_ne {n u v : Nat} (hu : u < n) (hv : v < n) (h : u ≠ v) :
    ∑ x ∈ Finset.range n, wave n x u * wave n x v = 0 := by
  wlog hvu : v < u generalizing u v
  · simpa only [mul_comm] using this hv hu h.symm (by omega)
  · simp only [wave_mul_wave _ _ hvu.le]
    rw [← Finset.sum_div, Finset.sum_add_distrib, sum_wave (by omega) (by omega), sum_wave (by omega) (by omega)]
    simp

/-- The square of a scaled cosine sums to N/2, of the frequency 0 too. -/
theorem sum_scaled_wave_sq {n u : Nat} (hu : u < n) :
    scale u * scale u * ∑ x ∈ Finset.range n, wave n x u * wave n x u = n / 2 := by
  by_cases h0 : u = 0
  · subst h0
    simp only [scale_zero_mul_self, wave_zero, mul_one, Finset.sum_const, Finset.card_range, nsmul_eq_mul]
    ring
  · simp only [scale_of_ne_zero h0, wave_mul_wave _ _ le_rfl]
    rw [← Finset.sum_div, Finset.sum_add_distrib, sum_wave (by omega) (by omega)]
    simp

/-! ### The transforms as matrix products -/

/-- The orthonormal cosine matrix: row u is the frequency u, column x the sample x. -/
noncomputable def dctMatrix (n : Nat) : Matrix (Fin n) (Fin n) ℝ :=
  Matrix.of fun u x => √(2 / n) * scale u * wave n x u

/-- The N×N block of a real matrix. -/
def blockMatrix (n : Nat) (s : Nat → Nat → ℝ) : Matrix (Fin n) (Fin n) ℝ := Matrix.of fun x y => s x y

/-- Two entries of the cosine matrix give the factor of both transforms before the sample or the coefficient. -/
theorem dctMatrix_mul_dctMatrix (n : Nat) (u x v y : Fin n) :
    dctMatrix n u x * dctMatrix n v y = 2 / n * scale u * scale v * wave n x u * wave n y v := by
  have hroot : √(2 / (n : ℝ)) * √(2 / n) = 2 / n := Real.mul_self_sqrt (by positivity)
  calc _ = √(2 / (n : ℝ)) * √(2 / n) * scale u * scale v * wave n x u * wave n y v := by
        simp only [dctMatrix, Matrix.of_apply]; ring
    _ = _ := by rw [hroot]

theorem dctMatrix_mul_transpose (n : Nat) : dctMatrix n * (dctMatrix n)ᵀ = 1 := by
  ext u v
  have hn : (n : ℝ) ≠ 0 := by exact_mod_cast u.pos.ne'
  have hentry : (dctMatrix n * (dctMatrix n)ᵀ) u v =
      2 / n * (scale u * scale v * ∑ x ∈ Finset.range n, wave n x u * wave n x v) := by
    simp only [Matrix.mul_apply, Matrix.transpose_apply, dctMatrix_mul_dctMatrix, Finset.sum_range, Finset.mul_sum]
    exact Finset.sum_congr rfl fun x _ => by ring
  rw [hentry]
  by_cases huv : u = v
  · subst huv
    rw [sum_scaled_wave_sq u.isLt, Matrix.one_apply_eq]
    field_simp
  · rw [sum_wave_mul_wave_of_ne u.isLt v.isLt (Fin.val_ne_of_ne huv), Matrix.one_apply_ne huv]
    simp

theorem dctMatrix_transpose_mul (n : Nat) : (dctMatrix n)ᵀ * dctMatrix n = 1 :=
  mul_eq_one_comm.mp (dctMatrix_mul_transpose n)

/-- The forward transform multiplies by the cosine matrix on both sides (R78). -/
theorem blockMatrix_forwardExact (n : Nat) (s : Nat → Nat → ℝ) :
    blockMatrix n (forwardExact n s) = dctMatrix n * blockMatrix n s * (dctMatrix n)ᵀ := by
  ext u v
  simp only [blockMatrix, Matrix.mul_apply, Matrix.of_apply, Matrix.transpose_apply, forwardExact, Finset.sum_range,
    Finset.sum_mul, Finset.mul_sum]
  rw [Finset.sum_comm]
  refine Finset.sum_congr rfl fun y _ => Finset.sum_congr rfl fun x _ => ?_
  rw [mul_right_comm (dctMatrix n _ _), dctMatrix_mul_dctMatrix]
  ring

/-- The inverse transform multiplies by the transposed cosine matrix on both sides (R85). -/
theorem blockMatrix_inverseExact (n : Nat) (c : Nat → Nat → ℝ) :
    blockMatrix n (inverseExact n c) = (dctMatrix n)ᵀ * blockMatrix n c * dctMatrix n := by
  ext x y
  simp only [blockMatrix, Matrix.mul_apply, Matrix.of_apply, Matrix.transpose_apply, inverseExact, Finset.sum_range,
    Finset.sum_mul, Finset.mul_sum]
  rw [Finset.sum_comm]
  refine Finset.sum_congr rfl fun v _ => Finset.sum_congr rfl fun u _ => ?_
  rw [mul_right_comm (dctMatrix n _ _), dctMatrix_mul_dctMatrix]
  ring

/-- The inverse transform undoes the forward one (R86). -/
theorem inverseExact_forwardExact {n x y : Nat} (s : Nat → Nat → ℝ) (hx : x < n) (hy : y < n) :
    inverseExact n (forwardExact n s) x y = s x y := by
  have h : blockMatrix n (inverseExact n (forwardExact n s)) = blockMatrix n s :=
    calc _ = ((dctMatrix n)ᵀ * dctMatrix n) * blockMatrix n s * ((dctMatrix n)ᵀ * dctMatrix n) := by
          simp only [blockMatrix_inverseExact, blockMatrix_forwardExact, Matrix.mul_assoc]
      _ = blockMatrix n s := by rw [dctMatrix_transpose_mul, Matrix.one_mul, Matrix.mul_one]
  exact congrFun (congrFun h ⟨x, hx⟩) ⟨y, hy⟩

/-- The forward transform undoes the inverse one (R86). -/
theorem forwardExact_inverseExact {n u v : Nat} (c : Nat → Nat → ℝ) (hu : u < n) (hv : v < n) :
    forwardExact n (inverseExact n c) u v = c u v := by
  have h : blockMatrix n (forwardExact n (inverseExact n c)) = blockMatrix n c :=
    calc _ = (dctMatrix n * (dctMatrix n)ᵀ) * blockMatrix n c * (dctMatrix n * (dctMatrix n)ᵀ) := by
          simp only [blockMatrix_inverseExact, blockMatrix_forwardExact, Matrix.mul_assoc]
      _ = blockMatrix n c := by rw [dctMatrix_mul_transpose, Matrix.one_mul, Matrix.mul_one]
  exact congrFun (congrFun h ⟨u, hu⟩) ⟨v, hv⟩

/-- The sum of squares of a block is a trace. -/
theorem trace_blockMatrix_transpose_mul (n : Nat) (s : Nat → Nat → ℝ) :
    ((blockMatrix n s)ᵀ * blockMatrix n s).trace = ∑ x ∈ Finset.range n, ∑ y ∈ Finset.range n, s x y ^ 2 := by
  simp only [Matrix.trace, Matrix.diag, Matrix.mul_apply, Matrix.transpose_apply, blockMatrix, Matrix.of_apply,
    Finset.sum_range, sq]
  exact Finset.sum_comm

/-- The forward transform preserves the sum of squares (R86). -/
theorem sum_forwardExact_sq (n : Nat) (s : Nat → Nat → ℝ) :
    ∑ u ∈ Finset.range n, ∑ v ∈ Finset.range n, forwardExact n s u v ^ 2 =
      ∑ x ∈ Finset.range n, ∑ y ∈ Finset.range n, s x y ^ 2 := by
  rw [← trace_blockMatrix_transpose_mul, ← trace_blockMatrix_transpose_mul, blockMatrix_forwardExact]
  set A := dctMatrix n
  set S := blockMatrix n s
  have hA : Aᵀ * A = 1 := dctMatrix_transpose_mul n
  calc ((A * S * Aᵀ)ᵀ * (A * S * Aᵀ)).trace
      = (A * (Sᵀ * (Aᵀ * A) * S * Aᵀ)).trace := by
        simp only [Matrix.transpose_mul, Matrix.transpose_transpose, Matrix.mul_assoc]
    _ = (Sᵀ * S * (Aᵀ * A)).trace := by
        rw [Matrix.trace_mul_comm, hA, Matrix.mul_one, Matrix.mul_assoc (Sᵀ * S), hA]
    _ = (Sᵀ * S).trace := by rw [hA, Matrix.mul_one]

/-! ### Linearity -/

theorem forwardExact_linear (n : Nat) (s t : Nat → Nat → ℝ) (α β : ℝ) (u v : Nat) :
    forwardExact n (fun x y => α * s x y + β * t x y) u v = α * forwardExact n s u v + β * forwardExact n t u v := by
  simp only [forwardExact, Finset.mul_sum, ← Finset.sum_add_distrib]
  refine Finset.sum_congr rfl fun x _ => Finset.sum_congr rfl fun y _ => ?_
  ring

theorem inverseExact_sub (n : Nat) (c d : Nat → Nat → ℝ) (x y : Nat) :
    inverseExact n (fun u v => c u v - d u v) x y = inverseExact n c x y - inverseExact n d x y := by
  simp only [inverseExact, Finset.mul_sum, ← Finset.sum_sub_distrib]
  refine Finset.sum_congr rfl fun u _ => Finset.sum_congr rfl fun v _ => ?_
  ring

/-- The inverse transform reads the entries below N only (R85). -/
theorem inverseExact_congr {n : Nat} {c d : Nat → Nat → ℝ} (h : ∀ u < n, ∀ v < n, c u v = d u v) :
    inverseExact n c = inverseExact n d := by
  funext x y
  unfold inverseExact
  congr 1
  refine Finset.sum_congr rfl fun u hu => Finset.sum_congr rfl fun v hv => ?_
  rw [h u (Finset.mem_range.mp hu) v (Finset.mem_range.mp hv)]

/-! ### Small blocks, constant blocks and a lone DC term -/

/-- The double sum of a constant block is a product of two sums. -/
theorem forwardExact_const (n : Nat) (k : ℝ) (u v : Nat) : forwardExact n (fun _ _ => k) u v =
    2 / n * scale u * scale v *
      (k * (∑ x ∈ Finset.range n, wave n x u) * ∑ y ∈ Finset.range n, wave n y v) := by
  rw [forwardExact, mul_assoc k, Finset.sum_mul_sum, Finset.mul_sum]
  simp only [Finset.mul_sum, mul_assoc]

/-- The DC coefficient of a constant block is N times its sample (R82). -/
theorem forwardExact_const_dc {n : Nat} (hn : 1 ≤ n) (k : ℝ) : forwardExact n (fun _ _ => k) 0 0 = n * k := by
  have hn' : (n : ℝ) ≠ 0 := by exact_mod_cast (show n ≠ 0 by omega)
  rw [forwardExact_const, mul_assoc (2 / (n : ℝ)), scale_zero_mul_self]
  simp only [wave_zero, Finset.sum_const, Finset.card_range, nsmul_eq_mul, mul_one]
  field_simp

/-- Every other coefficient of a constant block is 0 (R82). -/
theorem forwardExact_const_ac {n u v : Nat} (k : ℝ) (hu : u < n) (hv : v < n) (h : (u, v) ≠ (0, 0)) :
    forwardExact n (fun _ _ => k) u v = 0 := by
  rw [forwardExact_const]
  by_cases hu0 : u = 0
  · have hv0 : v ≠ 0 := fun hv0 => h (by rw [hu0, hv0])
    rw [sum_wave hv0 (by omega)]
    simp
  · rw [sum_wave hu0 (by omega)]
    simp

/-- A lone DC term d becomes d/N at every sample (R89). -/
theorem inverseExact_dc {n : Nat} (hn : 1 ≤ n) (d : ℝ) (x y : Nat) :
    inverseExact n (fun u v => if u = 0 ∧ v = 0 then d else 0) x y = d / n := by
  have hpos : 0 < n := hn
  have hterm : ∑ u ∈ Finset.range n, ∑ v ∈ Finset.range n,
      scale u * scale v * (if u = 0 ∧ v = 0 then d else 0) * wave n x u * wave n y v = scale 0 * scale 0 * d := by
    rw [Finset.sum_eq_single_of_mem 0 (Finset.mem_range.mpr hpos) fun u _ hu => by simp [hu],
      Finset.sum_eq_single_of_mem 0 (Finset.mem_range.mpr hpos) fun v _ hv => by simp [hv]]
    simp
  rw [inverseExact, hterm, scale_zero_mul_self]
  ring

theorem dctMatrix_one : dctMatrix 1 = 1 := by
  ext u x
  fin_cases u
  fin_cases x
  have h : √(2 : ℝ) * (√2 / 2) = 1 := by
    rw [← mul_div_assoc, Real.mul_self_sqrt (by norm_num), div_self (by norm_num)]
  simpa [dctMatrix] using h

/-- Both cosines of frequency 1 for N = 2. -/
theorem wave_two_one : wave 2 0 1 = √2 / 2 ∧ wave 2 1 1 = -(√2 / 2) := by
  simp only [wave_eq]
  refine ⟨Real.cos_pi_div_four ▸ congrArg Real.cos ?_, ?_⟩
  · norm_num
  · rw [← Real.cos_pi_div_four, ← Real.cos_pi_sub]
    congr 1
    norm_num
    ring

theorem dctMatrix_two : dctMatrix 2 = (√2 / 2) • !![1, 1; 1, -1] := by
  obtain ⟨h0, h1⟩ := wave_two_one
  ext u x
  fin_cases u <;> fin_cases x <;> simp [dctMatrix, h0, h1, scale_of_ne_zero]

theorem dctMatrix_two_transpose : (dctMatrix 2)ᵀ = dctMatrix 2 := by
  rw [dctMatrix_two]
  ext u x
  fin_cases u <;> fin_cases x <;> rfl

/-- The forward transform for N = 1 is the identity (R82). -/
theorem forwardExact_one (s : Nat → Nat → ℝ) : forwardExact 1 s 0 0 = s 0 0 := by
  have h : blockMatrix 1 (forwardExact 1 s) = blockMatrix 1 s := by
    rw [blockMatrix_forwardExact, dctMatrix_one, Matrix.transpose_one, Matrix.one_mul, Matrix.mul_one]
  exact congrFun (congrFun h 0) 0

/-- The forward transform for N = 2: half the sums and differences of the rows and columns (R82). -/
theorem blockMatrix_forwardExact_two (s : Nat → Nat → ℝ) : blockMatrix 2 (forwardExact 2 s) =
    !![(s 0 0 + s 1 0 + s 0 1 + s 1 1) / 2, (s 0 0 + s 1 0 - s 0 1 - s 1 1) / 2;
      (s 0 0 - s 1 0 + s 0 1 - s 1 1) / 2, (s 0 0 - s 1 0 - s 0 1 + s 1 1) / 2] := by
  have hroot : √2 / 2 * (√2 / 2) = (1 / 2 : ℝ) := by rw [← scale_zero, scale_zero_mul_self]
  rw [blockMatrix_forwardExact, dctMatrix_two_transpose, dctMatrix_two, Matrix.smul_mul, Matrix.smul_mul,
    Matrix.mul_smul, smul_smul, hroot, Matrix.eta_fin_two (blockMatrix 2 s), Matrix.mul_fin_two, Matrix.mul_fin_two]
  ext u v
  fin_cases u <;> fin_cases v <;> simp [blockMatrix] <;> ring

/-- Where the cosine matrix is symmetric the two transforms are the same. -/
theorem blockMatrix_inverseExact_of_symm {n : Nat} (h : (dctMatrix n)ᵀ = dctMatrix n) (c : Nat → Nat → ℝ) :
    blockMatrix n (inverseExact n c) = blockMatrix n (forwardExact n c) := by
  rw [blockMatrix_inverseExact, blockMatrix_forwardExact, h]

end Sys2Proof.Machine

/-! # The statements of the exact transforms -/

namespace Sys2Proof.Proofs

open Sys2Proof.Machine

/-- Settles O27: the cosine matrix is orthogonal. -/
theorem transformsAreExactInverses : Obligations.TransformsAreExactInverses :=
  fun n s _ => ⟨fun _ hx _ hy => inverseExact_forwardExact s hx hy,
    fun _ hu _ hv => forwardExact_inverseExact s hu hv, sum_forwardExact_sq n s⟩

/-- Settles O25: the cosine matrix for N = 1 and N = 2, and the cosine sums for a constant block. -/
theorem forwardTransformExactValues : Obligations.ForwardTransformExactValues := by
  refine ⟨forwardExact_one, fun s => ?_, fun n k hn => ⟨forwardExact_const_dc hn k, fun u hu v hv huv =>
    forwardExact_const_ac k hu hv huv⟩, forwardExact_linear⟩
  have h (u v : Fin 2) := congrFun (congrFun (blockMatrix_forwardExact_two s) u) v
  exact ⟨h 0 0, h 1 0, h 0 1, h 1 1⟩

/-- Settles O26: for N = 1 and N = 2 the cosine matrix is symmetric, so the values are the forward ones. -/
theorem inverseTransformExactValues : Obligations.InverseTransformExactValues := by
  refine ⟨fun c => ?_, fun c => ?_, fun n d x y hn => inverseExact_dc hn d x y⟩
  · have h := blockMatrix_inverseExact_of_symm (by rw [dctMatrix_one, Matrix.transpose_one]) c
    exact (congrFun (congrFun h 0) 0).trans (forwardExact_one c)
  · have h (x y : Fin 2) := congrFun (congrFun
      ((blockMatrix_inverseExact_of_symm dctMatrix_two_transpose c).trans (blockMatrix_forwardExact_two c)) x) y
    exact ⟨h 0 0, h 1 0, h 0 1, h 1 1⟩

end Sys2Proof.Proofs

/-! # The commands that read reals

The four of them share one body, the empty check, the numeric check of rule R81 and the writes; what the two transforms
then do to the cells is said for every transform unit. -/

namespace Sys2Proof.Machine

open Sys2Proof.Claims

/-! ### The body with a numeric check -/

/-- The body of a command that reads reals: the empty check, the numeric check, then the writes (R75, R81). -/
def realBody (b : Buffer 64) (count : Nat) (accepts : F64 → Bool) (write : List F64 → State) :
    Except CmdError State := do
  let cells ← source b count
  numeric accepts cells
  .ok (write cells)

section RealBody

variable {b : Buffer 64} {count : Nat} {accepts : F64 → Bool} {write : List F64 → State} {cells : List F64}

theorem realBody_empty (h : b.full count = false) : realBody b count accepts write = .error .empty :=
  except_bind_error.mpr (.inl (source_of_not_full h))

theorem realBody_num (hc : b.cells count = some cells) (h : cells.all accepts = false) :
    realBody b count accepts write = .error .num :=
  except_bind_error.mpr (.inr ⟨cells, source_ok.mpr hc, except_bind_error.mpr (.inl (numeric_error.mpr ⟨rfl, h⟩))⟩)

theorem realBody_ok (hc : b.cells count = some cells) (h : cells.all accepts = true) :
    realBody b count accepts write = .ok (write cells) :=
  except_bind_ok.mpr ⟨cells, source_ok.mpr hc, except_bind_ok.mpr ⟨(), numeric_ok.mpr h, rfl⟩⟩

/-- The numeric check fails exactly when it does not accept some cell of the extent. -/
theorem all_eq_false_iff (hc : b.cells count = some cells) :
    cells.all accepts = false ↔ ∃ k < count, ∃ c, b.get k = some c ∧ accepts c = false := by
  rw [List.all_eq_false]
  constructor
  · rintro ⟨c, hmem, hfail⟩
    obtain ⟨k, hk, rfl⟩ := List.mem_iff_getElem.mp hmem
    exact ⟨k, Buffer.cells_length hc ▸ hk, _, Buffer.get_of_cells hc hk, by simpa using hfail⟩
  · rintro ⟨k, hk, c, hget, hfail⟩
    rw [← Buffer.cells_length hc] at hk
    rw [Buffer.get_of_cells hc hk] at hget
    cases hget
    exact ⟨_, List.getElem_mem hk, by simpa using hfail⟩

end RealBody

theorem F64.finite_eq_false_iff {c : F64} : F64.finite c = false ↔ F64.exponent c = 0x7FF := by
  simp [F64.finite]

theorem F64.transformable_eq_false_iff {c : F64} :
    F64.transformable c = false ↔ F64.exponent c = 0x7FF ∨ 2 ^ 31 < |F64.val c| := by
  rw [F64.transformable, Bool.and_eq_false_iff, F64.finite_eq_false_iff, decide_eq_false_iff_not, not_le, xmax]

theorem hasNonFinite_iff {b : Buffer 64} {count : Nat} {cells : List F64} (hc : b.cells count = some cells) :
    HasNonFinite b count ↔ cells.all F64.finite = false := by
  simp only [all_eq_false_iff hc, HasNonFinite, F64.finite_eq_false_iff]

theorem hasUnfit_iff {b : Buffer 64} {count : Nat} {cells : List F64} (hc : b.cells count = some cells) :
    HasUnfit b count ↔ cells.all F64.transformable = false := by
  simp only [all_eq_false_iff hc, HasUnfit, F64.transformable_eq_false_iff]

theorem all_transformable_of_not_hasUnfit {b : Buffer 64} {count : Nat} {cells : List F64}
    (hc : b.cells count = some cells) (h : ¬ HasUnfit b count) : cells.all F64.transformable = true := by
  rwa [hasUnfit_iff hc, Bool.not_eq_false] at h

/-! ### The end of a command, in the words of the statements -/

theorem raises_of_error {i : Instr} {s : State} {e : CmdError} (hs : s.err = none) (hb : body i s = .error e) :
    Raises i s e := exec_of_error hs hb

theorem completes_of_ok {i : Instr} {s t : State} (hs : s.err = none) (hb : body i s = .ok t) : Completes i s := by
  obtain ⟨-, -, hanswers, -⟩ := (body_writes hb).registers
  exact ⟨t.respond .ok, exec_of_ok hs hb, congrArg _ hanswers⟩

/-- With a full source the numeric check decides between `E_NUM` and `OK`. -/
theorem raises_num_and_completes {i : Instr} {s : State} {b : Buffer 64} {count : Nat} {accepts : F64 → Bool}
    {write : List F64 → State} {Fails : Prop} (hs : s.err = none) (hbody : body i s = realBody b count accepts write)
    (hfails : ∀ {cells}, b.cells count = some cells → (Fails ↔ cells.all accepts = false))
    (hfull : b.full count = true) : (Fails → Raises i s .num) ∧ (¬ Fails → Completes i s) := by
  obtain ⟨cells, hc⟩ := Buffer.full_iff_cells.mp hfull
  rw [hfails hc, Bool.not_eq_false]
  exact ⟨fun h => raises_of_error hs (hbody.trans (realBody_num hc h)),
    fun h => completes_of_ok hs (hbody.trans (realBody_ok hc h))⟩

/-! ### The transforms of any unit -/

@[simp] theorem get_fill_resultCells (b : Buffer 64) {count : Nat} (result : Nat → F64) {k : Nat}
    (hk : k < count) : (b.fill (resultCells count result)).get k = some (result k) := by
  rw [Buffer.get_fill_lt _ (by simpa using hk), getElem_resultCells]

section Transform

variable {unit : Dct} {s : State} {cells : List F64}

/-- The state after an FDCT that completes (R77). -/
theorem fdctWith_ok (hs : s.err = none) (hc : s.x.cells s.extent = some cells)
    (hfit : cells.all F64.transformable = true) : fdctWith unit s =
      .next ((s.setF (s.f.fill (resultCells s.extent (unit.fdct s.n cells)))).respond .ok) :=
  (congrArg (command .fdct s) (realBody_ok hc hfit)).trans (command_ok _ hs)

/-- The state after an IDCT that completes (R84). -/
theorem idctWith_ok (hs : s.err = none) (hc : s.f.cells s.extent = some cells)
    (hfit : cells.all F64.transformable = true) : idctWith unit s =
      .next ((s.setX (s.x.fill (resultCells s.extent (unit.idct s.n cells)))).respond .ok) :=
  (congrArg (command .idct s) (realBody_ok hc hfit)).trans (command_ok _ hs)

theorem idctWith_num (hs : s.err = none) (hc : s.f.cells s.extent = some cells)
    (hunfit : cells.all F64.transformable = false) :
    idctWith unit s = .next (s.raise .num (encode .idct)) :=
  (congrArg (command .idct s) (realBody_num hc hunfit)).trans (command_error _ hs)

end Transform

end Sys2Proof.Machine

/-! # The statements of the commands that read reals -/

namespace Sys2Proof.Proofs

open Sys2Proof.Machine Sys2Proof.Claims

/-- Settles O14: the four commands have the body `realBody`, each with its own numeric check. -/
theorem unfitRealsRaiseNum : Obligations.UnfitRealsRaiseNum := fun _ hs =>
  ⟨raises_num_and_completes hs rfl hasUnfit_iff, raises_num_and_completes hs rfl hasUnfit_iff,
    raises_num_and_completes hs rfl hasNonFinite_iff, raises_num_and_completes hs rfl hasNonFinite_iff⟩

/-- Settles O23: the written cells are the unit's results, and the unit conforms to rule R80. -/
theorem fdctApproximatesTheForwardTransform : Obligations.FdctApproximatesTheForwardTransform := by
  refine ⟨rfl, fun s hs h1 h16 => ⟨fun hempty => raises_of_error hs (realBody_empty hempty), fun hfull => ?_,
    fun cells hc hunfit => ?_⟩⟩
  · exact (raises_num_and_completes hs rfl hasUnfit_iff hfull).left
  · have hfit := all_transformable_of_not_hasUnfit hc hunfit
    refine ⟨_, fdctWith_ok hs hc hfit, rfl, fun u hu v hv => ?_, fun k hk => Buffer.get_fill_ge _ (by simpa using hk)⟩
    obtain ⟨hfinite, haccurate⟩ := Config.dct.fdct_conforms s.n cells h1 h16 (Buffer.cells_length hc) hfit u hu v hv
    exact ⟨_, get_fill_resultCells _ _ (idx_lt hu hv), rfl, hfinite, haccurate⟩

/-- Settles O24: the written cells are the unit's results, and the unit conforms to rule R87. -/
theorem idctApproximatesTheInverseTransform : Obligations.IdctApproximatesTheInverseTransform := by
  refine ⟨rfl, fun s hs h1 h16 => ⟨fun hempty => raises_of_error hs (realBody_empty hempty), fun hfull => ?_,
    fun cells hc hunfit => ?_⟩⟩
  · exact (raises_num_and_completes hs rfl hasUnfit_iff hfull).left
  · have hfit := all_transformable_of_not_hasUnfit hc hunfit
    refine ⟨_, idctWith_ok hs hc hfit, rfl, fun x hx y hy => ?_, fun k hk => Buffer.get_fill_ge _ (by simpa using hk)⟩
    obtain ⟨hfinite, haccurate⟩ := Config.dct.idct_conforms s.n cells h1 h16 (Buffer.cells_length hc) hfit x hx y hy
    exact ⟨_, get_fill_resultCells _ _ (idx_lt hx hy), rfl, hfinite, haccurate⟩

end Sys2Proof.Proofs

/-! # The round trip of the two transforms

Both results are accurate within the tolerance of their own source's magnitude, and the inverse transform spreads an
error of its source by the factor 2N at most (R83, R88). -/

namespace Sys2Proof.Machine

open Sys2Proof.Claims

/-! ### Positions and cells -/

/-- Every cell of the extent is the cell of a matrix position (R22). -/
theorem exists_idx_eq {n k : Nat} (hk : k < n * n) : ∃ a < n, ∃ b < n, idx n a b = k := by
  have hn : 0 < n := Nat.pos_of_ne_zero fun h => by simp [h] at hk
  exact ⟨k % n, Nat.mod_lt _ hn, k / n, Nat.div_lt_of_lt_mul hk, Nat.div_add_mod' k n⟩

theorem mem_resultCells {count : Nat} {result : Nat → F64} {c : F64} :
    c ∈ resultCells count result ↔ ∃ k < count, result k = c := by
  simp [resultCells]

/-- The matrix of the cells of a result has the result's values as its entries. -/
theorem matrixOf_resultCells {n a b : Nat} (result : Nat → F64) (ha : a < n) (hb : b < n) :
    matrixOf n (resultCells (n * n) result) a b = F64.val (result (idx n a b)) := by
  have hk : idx n a b < (resultCells (n * n) result).length := by simpa using idx_lt ha hb
  rw [matrixOf, List.getD_eq_getElem _ _ hk, getElem_resultCells]

theorem largest_le_of_forall {cells : List F64} {m : ℚ} (h0 : 0 ≤ m) (h : ∀ c ∈ cells, |F64.val c| ≤ m) :
    largest cells ≤ m := by
  induction cells with
  | nil => exact h0
  | cons c rest ih =>
    exact max_le (h c List.mem_cons_self) (ih fun d hd => h d (List.mem_cons_of_mem _ hd))

theorem all_transformable_of_forall {cells : List F64} {m : ℚ} (hm : m ≤ 2 ^ 31)
    (h : ∀ c ∈ cells, F64.finite c = true ∧ |F64.val c| ≤ m) : cells.all F64.transformable = true := by
  rw [List.all_eq_true]
  intro c hc
  obtain ⟨hfinite, hval⟩ := h c hc
  rw [F64.transformable, hfinite, Bool.true_and, decide_eq_true_eq, xmax]
  exact hval.trans hm

/-! ### The error of the inverse transform -/

/-- A real matrix cut off at N: 0 outside the N×N block. -/
def cutOff (n : Nat) (c : Nat → Nat → ℝ) (u v : Nat) : ℝ := if u < n ∧ v < n then c u v else 0

theorem inverseExact_cutOff (n : Nat) (c : Nat → Nat → ℝ) : inverseExact n (cutOff n c) = inverseExact n c :=
  inverseExact_congr fun _ hu _ hv => if_pos ⟨hu, hv⟩

theorem abs_cutOff_le {n : Nat} {c : Nat → Nat → ℝ} {e : ℝ} (h0 : 0 ≤ e) (h : ∀ u < n, ∀ v < n, |c u v| ≤ e)
    (u v : Nat) : |cutOff n c u v| ≤ e := by
  unfold cutOff
  split
  case isTrue huv => exact h u huv.1 v huv.2
  case isFalse => rwa [abs_zero]

/-- Coefficients off by at most e give samples off by at most 2N·e (R83). -/
theorem abs_inverseExact_sub_le {n : Nat} (hn : 1 ≤ n) {c d : Nat → Nat → ℝ} {e : ℝ}
    (h : ∀ u < n, ∀ v < n, |c u v - d u v| ≤ e) (x y : Nat) :
    |inverseExact n c x y - inverseExact n d x y| ≤ 2 * n * e := by
  have h0 : 0 ≤ e := (abs_nonneg _).trans (h 0 hn 0 hn)
  rw [← inverseExact_sub, ← inverseExact_cutOff]
  exact abs_inverseExact_le hn (abs_cutOff_le h0 h) x y

/-! ### Conforming results -/

section Conforms

variable {n : Nat} {tol m m' B : ℚ} {exact : Nat → Nat → ℝ} {cells : List F64} {g h : Nat → F64}

/-- A result that conforms for one magnitude of the source conforms for every larger one. -/
theorem Conforms.mono (htol : 0 ≤ tol) (hm : m ≤ m') (hg : Conforms tol n exact m g) :
    Conforms tol n exact m' g := fun a ha b hb => by
  obtain ⟨hfinite, haccurate⟩ := hg a ha b hb
  refine ⟨hfinite, haccurate.trans ?_⟩
  exact_mod_cast mul_le_mul_of_nonneg_left (max_le_max le_rfl hm) htol

/-- The cells of a conforming result are finite and exceed the bound of the exact matrix by the tolerance at most. -/
theorem Conforms.cells_le (hg : Conforms tol n exact m g) (hexact : ∀ a b, |exact a b| ≤ (B : ℝ)) :
    ∀ c ∈ resultCells (n * n) g, F64.finite c = true ∧ |F64.val c| ≤ B + tol * max 1 m := by
  intro c hc
  obtain ⟨k, hk, rfl⟩ := mem_resultCells.mp hc
  obtain ⟨a, ha, b, hb, rfl⟩ := exists_idx_eq hk
  obtain ⟨hfinite, haccurate⟩ := hg a ha b hb
  refine ⟨hfinite, ?_⟩
  have htriangle := abs_add_le ((F64.val (g (idx n a b)) : ℝ) - exact a b) (exact a b)
  rw [sub_add_cancel] at htriangle
  have hval : |(F64.val (g (idx n a b)) : ℝ)| ≤ ((B + tol * max 1 m : ℚ) : ℝ) := by
    rw [Rat.cast_add]
    linarith [hexact a b]
  exact_mod_cast hval

/-- The bound of rule R88 for one cell: the error of the inverse transform itself, and 2N times the error of the
coefficients it was given. -/
theorem abs_val_sub_le_of_conforms (hn : 1 ≤ n) (hg : Conforms tol n (forwardExact n (matrixOf n cells)) m g)
    (hh : Conforms tol n (inverseExact n (matrixOf n (resultCells (n * n) g))) m' h) {k : Nat} (hk : k < n * n) :
    |F64.val (h k) - F64.val (cells.getD k 0)| ≤ 2 * n * tol * max 1 m + tol * max 1 m' := by
  obtain ⟨x, hx, y, hy, rfl⟩ := exists_idx_eq hk
  obtain ⟨-, hinverse⟩ := hh x hx y hy
  have hcoefficients : ∀ u < n, ∀ v < n, |matrixOf n (resultCells (n * n) g) u v -
      forwardExact n (matrixOf n cells) u v| ≤ ((tol * max 1 m : ℚ) : ℝ) := fun u hu v hv => by
    rw [matrixOf_resultCells g hu hv]
    exact (hg u hu v hv).2
  have hspread := abs_inverseExact_sub_le hn hcoefficients x y
  rw [inverseExact_forwardExact _ hx hy] at hspread
  have htriangle := abs_sub_le (F64.val (h (idx n x y)) : ℝ)
    (inverseExact n (matrixOf n (resultCells (n * n) g)) x y) (matrixOf n cells x y)
  have hbound : |(F64.val (h (idx n x y)) : ℝ) - matrixOf n cells x y| ≤
      ((2 * n * tol * max 1 m + tol * max 1 m' : ℚ) : ℝ) := by
    push_cast at hinverse hspread ⊢
    linarith
  rw [matrixOf] at hbound
  exact_mod_cast hbound

end Conforms

/-! ### FDCT, then IDCT -/

/-- The cells that FDCT leaves in `F`. -/
def fdctCells (unit : Dct) (s : State) (cells : List F64) : List F64 :=
  resultCells s.extent (unit.fdct s.n cells)

/-- The state after an FDCT that completes. -/
def afterFdct (unit : Dct) (s : State) (cells : List F64) : State :=
  (s.setF (s.f.fill (fdctCells unit s cells))).respond .ok

theorem cells_afterFdct (unit : Dct) (s : State) (cells : List F64) :
    (afterFdct unit s cells).f.cells (afterFdct unit s cells).extent = some (fdctCells unit s cells) := by
  have h := Buffer.cells_fill s.f (fdctCells unit s cells)
  rwa [fdctCells, length_resultCells] at h

section RoundTrip

variable {unit : Dct} {s : State} {cells : List F64} {m : ℚ}

/-- What is known of a source of magnitude at most m: it passes the check, and its coefficients are conforming, finite
and of magnitude at most 2N·m and the tolerance (R83). -/
theorem fdctCells_bounds (h1 : 1 ≤ s.n) (h16 : s.n ≤ 16) (hc : s.x.cells s.extent = some cells)
    (hcells : ∀ c ∈ cells, F64.finite c = true ∧ |F64.val c| ≤ m) (hm : 2 * s.n * m + 1 ≤ 2 ^ 31) :
    cells.all F64.transformable = true ∧
      Conforms unit.tol s.n (forwardExact s.n (matrixOf s.n cells)) m (unit.fdct s.n cells) ∧
      (∀ c ∈ fdctCells unit s cells, F64.finite c = true ∧ |F64.val c| ≤ 2 * s.n * m + unit.tol * max 1 m) ∧
      largest (fdctCells unit s cells) ≤ 2 * s.n * m + unit.tol * max 1 m := by
  have hlen : cells.length = s.n * s.n := Buffer.cells_length hc
  have hm0 : 0 ≤ m := by
    obtain ⟨c, hmem⟩ : ∃ c, c ∈ cells := List.exists_mem_of_length_pos (by rw [hlen]; positivity)
    exact (abs_nonneg _).trans (hcells c hmem).2
  have hn : (1 : ℚ) ≤ s.n := by exact_mod_cast h1
  have hm31 : m ≤ 2 ^ 31 := by nlinarith
  have hlargest : largest cells ≤ m := largest_le_of_forall hm0 fun c hmem => (hcells c hmem).2
  have hfit := all_transformable_of_forall hm31 hcells
  have hforward := (unit.fdct_conforms s.n cells h1 h16 hlen hfit).mono unit.tol_nonneg hlargest
  have hexact : ∀ a b, |forwardExact s.n (matrixOf s.n cells) a b| ≤ ((2 * s.n * m : ℚ) : ℝ) := by
    push_cast
    exact abs_forwardExact_le h1 fun x y => (abs_matrixOf_le s.n cells x y).trans (by exact_mod_cast hlargest)
  have hcoefficients := hforward.cells_le hexact
  have htol := unit.tol_nonneg
  exact ⟨hfit, hforward, hcoefficients,
    largest_le_of_forall (by positivity) fun c hmem => (hcoefficients c hmem).2⟩

end RoundTrip

end Sys2Proof.Machine

/-! # The statement of the round trip -/

namespace Sys2Proof.Proofs

open Sys2Proof.Machine Sys2Proof.Claims

/-- Settles O28: FDCT completes on every such source, IDCT when the coefficients pass its check, and the accuracies of
the two results give the bound. -/
theorem transformRoundTripBound : Obligations.TransformRoundTripBound := by
  intro unit s cells m hs h1 h16 hc hcells hm
  obtain ⟨hfit, hforward, hcoefficients, hlargest⟩ := fdctCells_bounds (unit := unit) h1 h16 hc hcells hm
  have hfdct : fdctWith unit s = .next (afterFdct unit s cells) := fdctWith_ok hs hc hfit
  have hc' := cells_afterFdct unit s cells
  refine ⟨fun t u ht hu hanswers k hk => ?_, fun htol => ?_⟩
  · cases hfdct.symm.trans ht
    rcases hfit' : (fdctCells unit s cells).all F64.transformable with _ | _
    · cases (idctWith_num (s := afterFdct unit s cells) hs hc' hfit').symm.trans hu
      cases hanswers
    · cases (idctWith_ok (s := afterFdct unit s cells) hs hc' hfit').symm.trans hu
      have hlen : cells.length = s.n * s.n := Buffer.cells_length hc
      have hlt : k < cells.length := hlen ▸ hk
      have hinverse := (unit.idct_conforms s.n _ h1 h16 (length_resultCells _ _) hfit').mono unit.tol_nonneg hlargest
      have hbound := abs_val_sub_le_of_conforms h1 hforward hinverse hk
      rw [List.getD_eq_getElem _ _ hlt] at hbound
      exact ⟨_, _, Buffer.get_of_cells hc hlt, get_fill_resultCells _ _ hk, hbound⟩
  · have hfit' := all_transformable_of_forall (by linarith) hcoefficients
    exact ⟨_, _, hfdct, idctWith_ok (s := afterFdct unit s cells) hs hc' hfit', rfl⟩

end Sys2Proof.Proofs

/-! # The quantizer

The rounding is nearest with ties away from zero (R92); a quantized cell holds the rounded and pinned value, and a
dequantized one the integer's own (R91, R96). What the two commands do to the state is said once each, and a round trip
is one after the other (R97). -/

namespace Sys2Proof.Machine

open Sys2Proof.Claims

/-! ### Rounding -/

/-- From 0 upwards the rounding is off by at most 1/2, and by 1/2 only upwards (R92). -/
theorem rhaz_sub_of_nonneg {r : ℚ} (h : 0 ≤ r) : -(1 / 2) < (rhaz r : ℚ) - r ∧ (rhaz r : ℚ) - r ≤ 1 / 2 := by
  rw [rhaz, if_neg h.not_gt]
  constructor
  · linarith [Int.lt_floor_add_one (r + 1 / 2)]
  · linarith [Int.floor_le (r + 1 / 2)]

/-- Below 0 the rounding is off by at most 1/2, and by 1/2 only downwards (R92). -/
theorem rhaz_sub_of_neg {r : ℚ} (h : r < 0) : -(1 / 2) ≤ (rhaz r : ℚ) - r ∧ (rhaz r : ℚ) - r < 1 / 2 := by
  rw [rhaz, if_pos h, Int.cast_neg]
  constructor
  · linarith [Int.floor_le (-r + 1 / 2)]
  · linarith [Int.lt_floor_add_one (-r + 1 / 2)]

theorem abs_rhaz_sub_le (r : ℚ) : |(rhaz r : ℚ) - r| ≤ 1 / 2 := by
  rw [abs_le]
  rcases le_or_gt 0 r with h | h
  · exact ⟨(rhaz_sub_of_nonneg h).1.le, (rhaz_sub_of_nonneg h).2⟩
  · exact ⟨(rhaz_sub_of_neg h).1, (rhaz_sub_of_neg h).2.le⟩

/-- A tie goes away from zero: up from 0 upwards, down below (R92). -/
theorem abs_lt_abs_rhaz_of_tie {r : ℚ} (htie : |(rhaz r : ℚ) - r| = 1 / 2) : |r| < |(rhaz r : ℚ)| := by
  rcases le_or_gt 0 r with h | h <;> rcases eq_or_eq_neg_of_abs_eq htie with heq | heq
  · rw [abs_of_nonneg h, abs_of_nonneg (by linarith)]
    linarith
  · exact absurd heq (rhaz_sub_of_nonneg h).1.ne'
  · exact absurd heq (rhaz_sub_of_neg h).2.ne
  · rw [abs_of_neg h, abs_of_neg (by linarith)]
    linarith

/-! ### Pinning -/

theorem sat_of_lt {i lo hi : Int} (h : i < lo) : sat i lo hi = lo := if_pos h

theorem sat_of_gt {i lo hi : Int} (hle : lo ≤ hi) (h : hi < i) : sat i lo hi = hi := by
  rw [sat, if_neg (by omega), if_pos h]

/-- The clamp leaves exactly the values between its bounds unchanged. -/
theorem sat_eq_self_iff {i lo hi : Int} (hle : lo ≤ hi) : sat i lo hi = i ↔ lo ≤ i ∧ i ≤ hi :=
  ⟨fun h => h ▸ sat_mem hle i, fun h => sat_of_mem h.1 h.2⟩

/-- The lower bound of the quantized cell k: 16 bits for the DC cell, 8 for every other (R93, R94). -/
def pinLow (k : Nat) : Int := if k = 0 then -32768 else -128

/-- The upper bound of the quantized cell k (R93, R94). -/
def pinHigh (k : Nat) : Int := if k = 0 then 32767 else 127

/-- The bounds of every cell lie inside 16 bits. -/
theorem pin_bounds (k : Nat) : -32768 ≤ pinLow k ∧ pinLow k ≤ pinHigh k ∧ pinHigh k ≤ 32767 := by
  unfold pinLow pinHigh
  split <;> decide

theorem sat_pin (i : Int) (k : Nat) :
    sat i (pinLow k) (pinHigh k) = if k = 0 then sat i (-32768) 32767 else sat i (-128) 127 := by
  unfold pinLow pinHigh
  split <;> rfl

/-! ### Cells -/

/-- A 16-bit integer lies in the signed range. -/
theorem toInt_bounds (v : BitVec 16) : -32768 ≤ v.toInt ∧ v.toInt ≤ 32767 :=
  ⟨BitVec.le_toInt v, Int.le_of_lt_add_one BitVec.toInt_lt⟩

/-- A quantized cell holds the rounded and pinned value: 16 bits hold it (R91, R95). -/
theorem toInt_quantizeCell (k : Nat) (c : F64) :
    (quantizeCell k c).toInt = sat (rhaz (F64.val c)) (pinLow k) (pinHigh k) := by
  obtain ⟨hlow, hle, hhigh⟩ := pin_bounds k
  obtain ⟨h1, h2⟩ := sat_mem hle (rhaz (F64.val c))
  rw [quantizeCell, ← sat_pin, BitVec.toInt_ofInt]
  exact Int.bmod_eq_of_le (by omega) (by omega)

theorem natAbs_toInt_le (v : BitVec 16) : v.toInt.natAbs ≤ 2 ^ 53 := by
  have := toInt_bounds v
  omega

@[simp] theorem val_dequantizeCell (v : BitVec 16) : F64.val (dequantizeCell v) = v.toInt :=
  F64.val_ofInt (natAbs_toInt_le v)

@[simp] theorem finite_dequantizeCell (v : BitVec 16) : F64.finite (dequantizeCell v) = true :=
  F64.finite_ofInt (natAbs_toInt_le v)

theorem dequantizeCell_zero : dequantizeCell 0 = 0 := rfl

/-- A 16-bit integer comes back from its real exactly when it is inside the 8-bit range or in the DC cell (R97). -/
theorem quantizeCell_dequantizeCell_iff {k : Nat} {v : BitVec 16} :
    quantizeCell k (dequantizeCell v) = v ↔ (0 < k → -128 ≤ v.toInt ∧ v.toInt ≤ 127) := by
  obtain ⟨-, hle, -⟩ := pin_bounds k
  rw [← BitVec.toInt_inj, toInt_quantizeCell, val_dequantizeCell, rhaz_intCast, sat_eq_self_iff hle]
  rcases Nat.eq_zero_or_pos k with rfl | hk
  · exact iff_of_true (toInt_bounds v) nofun
  · rw [pinLow, pinHigh, if_neg hk.ne', if_neg hk.ne']
    exact ⟨fun h _ => h, fun h => h hk⟩

/-! ### Fills from a source extent -/

/-- The values of an extent by their cells. -/
theorem Buffer.getElem?_of_cells {width count k : Nat} {b : Buffer width} {cells : List (BitVec width)}
    (hc : b.cells count = some cells) (hk : k < count) : cells[k]? = b.get k := by
  rw [← Buffer.cells_length hc] at hk
  rw [Buffer.get_of_cells hc hk, List.getElem?_eq_getElem hk]

/-- A fill gives cell k the value k of the list. -/
theorem Buffer.get_fill_of_getElem? {width k : Nat} {values : List (BitVec width)} {v : BitVec width}
    (b : Buffer width) (h : values[k]? = some v) : (b.fill values).get k = some v := by
  obtain ⟨hk, rfl⟩ := List.getElem?_eq_some_iff.mp h
  exact Buffer.get_fill_lt b hk

/-- Every cell of an extent that is full holds a value. -/
theorem Buffer.exists_get {width count k : Nat} {b : Buffer width} (hfull : b.full count = true) (hk : k < count) :
    ∃ v, b.get k = some v :=
  Option.isSome_iff_exists.mp (Buffer.full_iff.mp hfull k hk)

/-! ### The numeric check -/

theorem all_finite_of_not_hasNonFinite {b : Buffer 64} {count : Nat} {cells : List F64}
    (hc : b.cells count = some cells) (h : ¬ HasNonFinite b count) : cells.all F64.finite = true := by
  rwa [hasNonFinite_iff hc, Bool.not_eq_false] at h

theorem all_finite_dequantizeCell (integers : List (BitVec 16)) :
    (integers.map dequantizeCell).all F64.finite = true := by
  simp

/-! ### The commands -/

/-- The state after a QNT that completes (R91). -/
def afterQnt (s : State) (coefficients : List F64) : State :=
  (s.setQ (s.q.fill (coefficients.mapIdx quantizeCell))).respond .ok

/-- The state after a DQT that completes (R96). -/
def afterDqt (s : State) (integers : List (BitVec 16)) : State :=
  (s.setF (s.f.fill (integers.map dequantizeCell))).respond .ok

section Commands

variable {s : State} {coefficients : List F64} {integers : List (BitVec 16)} {k : Nat}

theorem exec_qnt (hs : s.err = none) (hc : s.f.cells s.extent = some coefficients)
    (hfinite : coefficients.all F64.finite = true) : exec .qnt s = .next (afterQnt s coefficients) :=
  exec_of_ok hs (body_qnt.mpr ⟨coefficients, hc, hfinite, rfl⟩)

theorem exec_dqt (hs : s.err = none) (hc : s.q.cells s.extent = some integers) :
    exec .dqt s = .next (afterDqt s integers) :=
  exec_of_ok hs (body_dqt.mpr ⟨integers, hc, rfl⟩)

/-- QNT leaves in `Q` the quantized cells of `F`. -/
theorem cells_afterQnt (hc : s.f.cells s.extent = some coefficients) :
    (afterQnt s coefficients).q.cells (afterQnt s coefficients).extent = some (coefficients.mapIdx quantizeCell) := by
  have h := Buffer.cells_fill s.q (coefficients.mapIdx quantizeCell)
  rwa [List.length_mapIdx, Buffer.cells_length hc] at h

/-- DQT leaves in `F` the dequantized cells of `Q`. -/
theorem cells_afterDqt (hc : s.q.cells s.extent = some integers) :
    (afterDqt s integers).f.cells (afterDqt s integers).extent = some (integers.map dequantizeCell) := by
  have h := Buffer.cells_fill s.f (integers.map dequantizeCell)
  rwa [List.length_map, Buffer.cells_length hc] at h

theorem get_afterQnt {c : F64} (hc : s.f.cells s.extent = some coefficients) (hk : k < s.extent)
    (hget : s.f.get k = some c) : (afterQnt s coefficients).q.get k = some (quantizeCell k c) :=
  Buffer.get_fill_of_getElem? s.q (by rw [List.getElem?_mapIdx, Buffer.getElem?_of_cells hc hk, hget]; rfl)

theorem get_afterDqt {v : BitVec 16} (hc : s.q.cells s.extent = some integers) (hk : k < s.extent)
    (hget : s.q.get k = some v) : (afterDqt s integers).f.get k = some (dequantizeCell v) :=
  Buffer.get_fill_of_getElem? s.f (by rw [List.getElem?_map, Buffer.getElem?_of_cells hc hk, hget]; rfl)

theorem get_afterQnt_beyond (hc : s.f.cells s.extent = some coefficients) (hk : s.extent ≤ k) :
    (afterQnt s coefficients).q.get k = s.q.get k :=
  Buffer.get_fill_ge s.q (by rwa [List.length_mapIdx, Buffer.cells_length hc])

theorem get_afterDqt_beyond (hc : s.q.cells s.extent = some integers) (hk : s.extent ≤ k) :
    (afterDqt s integers).f.get k = s.f.get k :=
  Buffer.get_fill_ge s.f (by rwa [List.length_map, Buffer.cells_length hc])

/-- DQT, then QNT keeps a cell of `Q` exactly when it is inside the 8-bit range or the DC cell (R97). -/
theorem get_afterQnt_afterDqt_iff {v : BitVec 16} (hc : s.q.cells s.extent = some integers) (hk : k < s.extent)
    (hget : s.q.get k = some v) :
    (afterQnt (afterDqt s integers) (integers.map dequantizeCell)).q.get k = s.q.get k ↔
      (0 < k → -128 ≤ v.toInt ∧ v.toInt ≤ 127) := by
  rw [get_afterQnt (cells_afterDqt hc) hk (get_afterDqt hc hk hget), hget, Option.some_inj,
    quantizeCell_dequantizeCell_iff]

end Commands

end Sys2Proof.Machine

/-! # The statements of the quantizer -/

namespace Sys2Proof.Proofs

open Sys2Proof.Machine Sys2Proof.Claims

/-- Settles O19: on either side of 0 the rounding errs by at most 1/2, and by exactly 1/2 only away from 0. -/
theorem roundingIsNearestTiesAway : Obligations.RoundingIsNearestTiesAway := by
  refine ⟨abs_rhaz_sub_le, fun _ => abs_lt_abs_rhaz_of_tie, ?_⟩
  norm_num [rhaz]

/-- Settles O20: the checks of a command that reads reals, and the cells of the state after QNT. -/
theorem qntRoundsThenPins : Obligations.QntRoundsThenPins := by
  refine ⟨rfl, fun s hs => ⟨fun hempty => raises_of_error hs (realBody_empty hempty),
    fun hfull => (raises_num_and_completes hs rfl hasNonFinite_iff hfull).left, fun hfull hfinite => ?_⟩⟩
  obtain ⟨coefficients, hc⟩ := Buffer.full_iff_cells.mp hfull
  refine ⟨_, exec_qnt hs hc (all_finite_of_not_hasNonFinite hc hfinite), rfl, fun k hk => ?_,
    fun k => get_afterQnt_beyond hc⟩
  obtain ⟨c, hget⟩ := Buffer.exists_get hfull hk
  exact ⟨c, _, hget, get_afterQnt hc hk hget, (toInt_quantizeCell k c).trans (sat_pin _ k)⟩

/-- Settles O21: the empty check, and the cells of the state after DQT. -/
theorem dqtConvertsEveryInteger : Obligations.DqtConvertsEveryInteger := by
  refine ⟨rfl, fun s hs => ⟨fun hempty => ?_, fun hfull => ?_⟩⟩
  · exact raises_of_error hs (except_bind_error.mpr (.inl (source_of_not_full hempty)))
  · obtain ⟨integers, hc⟩ := Buffer.full_iff_cells.mp hfull
    refine ⟨_, exec_dqt hs hc, rfl, fun k hk => ?_, fun k => get_afterDqt_beyond hc⟩
    obtain ⟨v, hget⟩ := Buffer.exists_get hfull hk
    exact ⟨v, _, hget, get_afterDqt hc hk hget, finite_dequantizeCell v, val_dequantizeCell v,
      fun h => h ▸ dequantizeCell_zero⟩

/-- Settles O22: one state after the other, and each cell through the two conversions. -/
theorem quantizerRoundTrips : Obligations.QuantizerRoundTrips := by
  refine ⟨fun s hs hfull hfinite => ?_, fun s hs hfull => ?_⟩
  · obtain ⟨coefficients, hc⟩ := Buffer.full_iff_cells.mp hfull
    have hc' := cells_afterQnt hc
    refine ⟨_, _, exec_qnt hs hc (all_finite_of_not_hasNonFinite hc hfinite), exec_dqt hs hc', rfl, fun k hk => ?_⟩
    obtain ⟨c, hget⟩ := Buffer.exists_get hfull hk
    obtain ⟨-, hle, -⟩ := pin_bounds k
    have hval : F64.val (dequantizeCell (quantizeCell k c)) = sat (rhaz (F64.val c)) (pinLow k) (pinHigh k) := by
      rw [val_dequantizeCell, toInt_quantizeCell]
    refine ⟨c, _, pinLow k, pinHigh k, hget, get_afterDqt hc' hk (get_afterQnt hc hk hget), rfl, rfl, hval,
      fun hlow hhigh => ?_, fun hlow => ?_, fun hhigh => ?_⟩ <;> rw [hval]
    · rw [sat_of_mem hlow hhigh]; exact abs_rhaz_sub_le _
    · rw [sat_of_lt hlow]
    · rw [sat_of_gt hle hhigh]
  · obtain ⟨integers, hc⟩ := Buffer.full_iff_cells.mp hfull
    have hc' := cells_afterDqt hc
    refine ⟨_, _, exec_dqt hs hc, exec_qnt hs hc' (all_finite_dequantizeCell integers), rfl, ?_⟩
    constructor
    · exact fun h k v h0 hk hget => (get_afterQnt_afterDqt_iff hc hk hget).mp (h k) h0
    · intro h k
      rcases Nat.lt_or_ge k s.extent with hk | hk
      · obtain ⟨v, hget⟩ := Buffer.exists_get hfull hk
        exact (get_afterQnt_afterDqt_iff hc hk hget).mpr fun h0 => h k v h0 hk hget
      · exact get_afterQnt_beyond hc' hk

end Sys2Proof.Proofs

/-! # The zigzag scanner

The scan is its diagonals one after another. Each diagonal has a first and a last position, and on these rest where the
scan starts and ends and what happens at a turn (R101, R103). The scan's indices are the cells of the extent, each
once, so the two commands copy along a permutation and undo each other (R99, R104, R105). -/

namespace Sys2Proof.Machine

open Sys2Proof.Claims

/-! ### The first and the last position of a diagonal -/

theorem head?_diagonalAscending {n i : Nat} (hi : i < 2 * n - 1) :
    (diagonalAscending n i).head? = some (i + 1 - n) := by
  have hne : min i (n - 1) + 1 - (i + 1 - n) ≠ 0 := by omega
  simp [diagonalAscending, List.head?_range, hne]

theorem getLast?_diagonalAscending {n i : Nat} (hi : i < 2 * n - 1) :
    (diagonalAscending n i).getLast? = some (min i (n - 1)) := by
  have hne : min i (n - 1) + 1 - (i + 1 - n) ≠ 0 := by omega
  simp only [diagonalAscending, List.getLast?_map, List.getLast?_range, if_neg hne, Option.map_some, Option.some.injEq]
  omega

/-- The index u at which diagonal i starts: the lowest on an even diagonal, the highest on an odd one (R101). -/
def firstU (n i : Nat) : Nat := if i % 2 = 0 then i + 1 - n else min i (n - 1)

/-- The index u at which diagonal i ends (R101). -/
def lastU (n i : Nat) : Nat := if i % 2 = 0 then min i (n - 1) else i + 1 - n

theorem head?_diagonal {n i : Nat} (hi : i < 2 * n - 1) :
    (diagonal n i).head? = some (firstU n i, i - firstU n i) := by
  rw [diagonal, List.head?_map, firstU]
  split
  · rw [head?_diagonalAscending hi]; rfl
  · rw [List.head?_reverse, getLast?_diagonalAscending hi]; rfl

theorem getLast?_diagonal {n i : Nat} (hi : i < 2 * n - 1) :
    (diagonal n i).getLast? = some (lastU n i, i - lastU n i) := by
  rw [diagonal, List.getLast?_map, lastU]
  split
  · rw [getLast?_diagonalAscending hi]; rfl
  · rw [List.getLast?_reverse, head?_diagonalAscending hi]; rfl

theorem diagonal_ne_nil {n i : Nat} (hi : i < 2 * n - 1) : diagonal n i ≠ [] := by
  intro h
  have hhead := head?_diagonal hi
  rw [h] at hhead
  cases hhead

/-! ### The order of the scan -/

theorem pairwise_sum_scanOrder (n : Nat) : (scanOrder n).Pairwise fun c d => c.1 + c.2 ≤ d.1 + d.2 := by
  refine List.pairwise_flatMap.mpr ⟨fun i _ => ?_, List.pairwise_lt_range.imp fun hij c hc d hd => ?_⟩
  · refine List.pairwise_of_forall_mem_list fun c hc d hd => ?_
    rw [sum_of_mem_diagonal hc, sum_of_mem_diagonal hd]
  · rw [sum_of_mem_diagonal hc, sum_of_mem_diagonal hd]
    exact hij.le

/-- The scan starts where diagonal 0 does. -/
theorem head?_scanOrder {n : Nat} (hn : 1 ≤ n) : (scanOrder n).head? = some (0, 0) := by
  obtain ⟨m, hm⟩ : ∃ m, 2 * n - 1 = m + 1 := ⟨2 * n - 2, by omega⟩
  have h0 : firstU n 0 = 0 := by rw [firstU, if_pos rfl]; omega
  rw [scanOrder, hm, List.range_succ_eq_map, List.flatMap_cons, List.head?_append, head?_diagonal (by omega), h0]
  rfl

/-- The scan ends where diagonal 2n-2 does. -/
theorem getLast?_scanOrder {n : Nat} (hn : 1 ≤ n) : (scanOrder n).getLast? = some (n - 1, n - 1) := by
  have hm : 2 * n - 1 = (2 * n - 2) + 1 := by omega
  have hlast : lastU n (2 * n - 2) = n - 1 := by rw [lastU, if_pos (by omega)]; omega
  have hv : 2 * n - 2 - (n - 1) = n - 1 := by omega
  rw [scanOrder, hm, List.range_succ, List.flatMap_append, List.flatMap_singleton, List.getLast?_append,
    getLast?_diagonal (by omega), hlast, hv]
  rfl

/-- Consecutive positions of the scan: neighbours along a diagonal, or one step in u or in v at a turn (R103). -/
def Neighbours (c d : Nat × Nat) : Prop :=
  (d.1 = c.1 + 1 ∧ d.2 + 1 = c.2) ∨ (d.1 + 1 = c.1 ∧ d.2 = c.2 + 1) ∨
    (d.1 = c.1 + 1 ∧ d.2 = c.2) ∨ (d.1 = c.1 ∧ d.2 = c.2 + 1)

theorem isChain_diagonalAscending (n i : Nat) :
    List.IsChain (fun u w => w = u + 1 ∧ w ≤ i) (diagonalAscending n i) := by
  refine (List.isChain_map _).mpr ((List.isChain_range _ _).mpr fun m hm => ?_)
  omega

theorem isChain_diagonal (n i : Nat) : List.IsChain Neighbours (diagonal n i) := by
  refine (List.isChain_map _).mpr ?_
  split
  · refine (isChain_diagonalAscending n i).imp fun u w h => .inl ?_
    dsimp only
    omega
  · refine List.isChain_reverse.mpr ((isChain_diagonalAscending n i).imp fun u w h => .inr (.inl ?_))
    dsimp only
    omega

/-- A turn: the next diagonal starts one step in u or in v from where a diagonal ends (R103). -/
theorem neighbours_turn (n i : Nat) :
    Neighbours (lastU n i, i - lastU n i) (firstU n (i + 1), i + 1 - firstU n (i + 1)) := by
  refine .inr (.inr ?_)
  by_cases h : i % 2 = 0
  · have hnext : ¬ (i + 1) % 2 = 0 := by omega
    rw [lastU, firstU, if_pos h, if_neg hnext]
    dsimp only
    omega
  · have hnext : (i + 1) % 2 = 0 := by omega
    rw [lastU, firstU, if_neg h, if_pos hnext]
    dsimp only
    omega

theorem isChain_scanOrder (n : Nat) : List.IsChain Neighbours (scanOrder n) := by
  have hne : [] ∉ (List.range (2 * n - 1)).map (diagonal n) := by
    intro h
    obtain ⟨i, hi, hnil⟩ := List.mem_map.mp h
    exact diagonal_ne_nil (List.mem_range.mp hi) hnil
  rw [scanOrder, List.flatMap_def, List.isChain_flatten hne]
  constructor
  · intro l hl
    obtain ⟨i, -, rfl⟩ := List.mem_map.mp hl
    exact isChain_diagonal n i
  · refine (List.isChain_map _).mpr ((List.isChain_range _ _).mpr fun i hi c hc d hd => ?_)
    rw [getLast?_diagonal (by omega)] at hc
    rw [head?_diagonal (by omega)] at hd
    cases hc
    cases hd
    exact neighbours_turn n i

/-! ### The indices of the scan -/

/-- Distinct positions of the matrix have distinct cells (R22). -/
theorem idx_inj {n a b c d : Nat} (ha : a < n) (hc : c < n) (h : idx n a b = idx n c d) : a = c ∧ b = d := by
  have hmod := congrArg (· % n) h
  have hdiv := congrArg (· / n) h
  simp only [idx, Nat.mul_add_mod_self_right, Nat.mod_eq_of_lt ha, Nat.mod_eq_of_lt hc] at hmod
  simp only [idx, Nat.mul_comm _ n, Nat.mul_add_div (Nat.zero_lt_of_lt ha), Nat.div_eq_of_lt ha,
    Nat.div_eq_of_lt hc, Nat.add_zero] at hdiv
  exact ⟨hmod, hdiv⟩

theorem nodup_zidx (n : Nat) : (zidx n).Nodup := by
  refine List.Nodup.map_on (fun c hc d hd h => ?_) (nodup_scanOrder n)
  obtain ⟨h1, h2⟩ := idx_inj (mem_scanOrder.mp hc).1 (mem_scanOrder.mp hd).1 h
  exact Prod.ext h1 h2

/-- The indices of the scan are exactly the cells of the extent (R103). -/
theorem mem_zidx {n j : Nat} : j ∈ zidx n ↔ j < n * n := by
  refine ⟨zidx_lt, fun hj => ?_⟩
  obtain ⟨a, ha, b, hb, rfl⟩ := exists_idx_eq hj
  exact List.mem_map.mpr ⟨(a, b), mem_scanOrder.mpr ⟨ha, hb⟩, rfl⟩

theorem head?_zidx {n : Nat} (hn : 1 ≤ n) : (zidx n).head? = some 0 := by
  rw [zidx, List.head?_map, head?_scanOrder hn]
  simp [idx]

theorem getLast?_zidx {n : Nat} (hn : 1 ≤ n) : (zidx n).getLast? = some (n * n - 1) := by
  obtain ⟨m, rfl⟩ := Nat.exists_eq_add_of_le' hn
  rw [zidx, List.getLast?_map, getLast?_scanOrder hn]
  simp only [Option.map_some, Option.some.injEq, idx, Nat.add_sub_cancel]
  rw [Nat.add_one_mul, ← Nat.add_assoc, Nat.add_sub_cancel]

/-- The scan visits some cell of the extent at every step. -/
theorem exists_cell_of_step {n k : Nat} (hk : k < n * n) : ∃ j < n * n, (zidx n)[k]? = some j := by
  rw [← length_zidx n] at hk
  exact ⟨_, zidx_lt (List.getElem_mem hk), List.getElem?_eq_getElem hk⟩

/-- The scan visits every cell of the extent at some step. -/
theorem exists_step_of_cell {n j : Nat} (hj : j < n * n) : ∃ k < n * n, (zidx n)[k]? = some j := by
  obtain ⟨k, hk, h⟩ := List.mem_iff_getElem.mp (mem_zidx.mpr hj)
  exact ⟨k, length_zidx n ▸ hk, List.getElem?_eq_some_iff.mpr ⟨hk, h⟩⟩

/-! ### The commands -/

/-- The state after a ZZF that completes (R99). -/
def afterZzf (s : State) (matrix : List (BitVec 16)) : State :=
  (s.setZ (s.z.fill ((zidx s.n).map fun j => matrix.getD j 0))).respond .ok

/-- The state after a ZZU that completes (R104). -/
def afterZzu (s : State) (sequence : List (BitVec 16)) : State :=
  (s.setQ (s.q.writes ((zidx s.n).zip sequence))).respond .ok

section Commands

variable {s : State} {matrix sequence : List (BitVec 16)} {j k : Nat} {v : BitVec 16}

theorem exec_zzf (hs : s.err = none) (hc : s.q.cells s.extent = some matrix) :
    exec .zzf s = .next (afterZzf s matrix) :=
  exec_of_ok hs (body_zzf.mpr ⟨matrix, hc, rfl⟩)

theorem exec_zzu (hs : s.err = none) (hc : s.z.cells s.extent = some sequence) :
    exec .zzu s = .next (afterZzu s sequence) :=
  exec_of_ok hs (body_zzu.mpr ⟨sequence, hc, rfl⟩)

/-- ZZF copies the cell that the scan visits at step k into cell k. -/
theorem get_afterZzf (hc : s.q.cells s.extent = some matrix) (hj : (zidx s.n)[k]? = some j)
    (hget : s.q.get j = some v) : (afterZzf s matrix).z.get k = some v := by
  have hlt : j < s.extent := zidx_lt (List.mem_of_getElem? hj)
  have hv : matrix.getD j 0 = v := by
    rw [List.getD_eq_getElem?_getD, Buffer.getElem?_of_cells hc hlt, hget, Option.getD_some]
  exact Buffer.get_fill_of_getElem? s.z (by rw [List.getElem?_map, hj, Option.map_some, hv])

/-- ZZU copies cell k into the cell that the scan visits at step k. -/
theorem get_afterZzu (hc : s.z.cells s.extent = some sequence) (hj : (zidx s.n)[k]? = some j)
    (hget : s.z.get k = some v) : (afterZzu s sequence).q.get j = some v := by
  have hlen : (zidx s.n).length = sequence.length := (length_zidx _).trans (Buffer.cells_length hc).symm
  have hlt : k < s.n * s.n := length_zidx s.n ▸ (List.getElem?_eq_some_iff.mp hj).1
  refine Buffer.get_writes_mem s.q ?_ (List.mem_of_getElem? (i := k) ?_)
  · rw [List.map_fst_zip hlen.le]
    exact nodup_zidx s.n
  · exact List.getElem?_zip_eq_some.mpr ⟨hj, (Buffer.getElem?_of_cells hc hlt).trans hget⟩

theorem get_afterZzf_beyond (s : State) (matrix : List (BitVec 16)) (hk : s.extent ≤ k) :
    (afterZzf s matrix).z.get k = s.z.get k :=
  Buffer.get_fill_ge s.z (by rwa [List.length_map, length_zidx])

theorem get_afterZzu_beyond (s : State) (sequence : List (BitVec 16)) (hk : s.extent ≤ k) :
    (afterZzu s sequence).q.get k = s.q.get k :=
  Buffer.get_writes_beyond s.q (fun _ hc => zidx_lt (List.of_mem_zip hc).1) hk

/-- ZZF fills the extent of `Z`. -/
theorem full_afterZzf (hc : s.q.cells s.extent = some matrix) : (afterZzf s matrix).z.full s.extent = true := by
  refine Buffer.full_iff.mpr fun k hk => ?_
  obtain ⟨j, hj, hstep⟩ := exists_cell_of_step hk
  obtain ⟨v, hget⟩ := Buffer.exists_get (Buffer.full_iff_cells.mpr ⟨matrix, hc⟩) hj
  rw [get_afterZzf hc hstep hget, Option.isSome_some]

/-- ZZU fills the extent of `Q`. -/
theorem full_afterZzu (hc : s.z.cells s.extent = some sequence) : (afterZzu s sequence).q.full s.extent = true := by
  refine Buffer.full_iff.mpr fun j hj => ?_
  obtain ⟨k, hk, hstep⟩ := exists_step_of_cell hj
  obtain ⟨v, hget⟩ := Buffer.exists_get (Buffer.full_iff_cells.mpr ⟨sequence, hc⟩) hk
  rw [get_afterZzu hc hstep hget, Option.isSome_some]

/-- ZZU after ZZF puts every cell of `Q` back (R105). -/
theorem get_afterZzu_afterZzf (hc : s.q.cells s.extent = some matrix)
    (hc' : (afterZzf s matrix).z.cells s.extent = some sequence) (j : Nat) :
    (afterZzu (afterZzf s matrix) sequence).q.get j = s.q.get j := by
  rcases Nat.lt_or_ge j s.extent with hj | hj
  · obtain ⟨k, -, hstep⟩ := exists_step_of_cell hj
    obtain ⟨v, hget⟩ := Buffer.exists_get (Buffer.full_iff_cells.mpr ⟨matrix, hc⟩) hj
    rw [get_afterZzu hc' hstep (get_afterZzf hc hstep hget), hget]
  · exact get_afterZzu_beyond (afterZzf s matrix) sequence hj

/-- ZZF after ZZU puts every cell of `Z` back (R105). -/
theorem get_afterZzf_afterZzu (hc : s.z.cells s.extent = some sequence)
    (hc' : (afterZzu s sequence).q.cells s.extent = some matrix) (k : Nat) :
    (afterZzf (afterZzu s sequence) matrix).z.get k = s.z.get k := by
  rcases Nat.lt_or_ge k s.extent with hk | hk
  · obtain ⟨j, -, hstep⟩ := exists_cell_of_step hk
    obtain ⟨v, hget⟩ := Buffer.exists_get (Buffer.full_iff_cells.mpr ⟨sequence, hc⟩) hk
    rw [get_afterZzf hc' hstep (get_afterZzu hc hstep hget), hget]
  · exact get_afterZzf_beyond (afterZzu s sequence) matrix hk

end Commands

end Sys2Proof.Machine

/-! # The statements of the zigzag scanner -/

namespace Sys2Proof.Proofs

open Sys2Proof.Machine Sys2Proof.Claims

/-- Settles O31: the scan holds every position once, its sums follow the diagonals, and its neighbours are those along a
diagonal and at a turn. -/
theorem scanOrderProperties : Obligations.ScanOrderProperties := fun n hn =>
  ⟨⟨length_scanOrder n, nodup_scanOrder n, fun _ => mem_scanOrder, nodup_zidx n, fun _ => mem_zidx⟩,
    pairwise_sum_scanOrder n, ⟨head?_zidx hn, getLast?_zidx hn⟩, isChain_scanOrder n⟩

/-- Settles O32: the empty check, and the cells of the state after ZZF. -/
theorem zzfReadsInScanOrder : Obligations.ZzfReadsInScanOrder := by
  refine ⟨rfl, fun s hs => ⟨fun hempty => ?_, fun hfull => ?_⟩⟩
  · exact raises_of_error hs (except_bind_error.mpr (.inl (source_of_not_full hempty)))
  · obtain ⟨matrix, hc⟩ := Buffer.full_iff_cells.mp hfull
    refine ⟨_, exec_zzf hs hc, rfl, fun k hk => ?_, fun k => get_afterZzf_beyond s matrix⟩
    obtain ⟨j, hj, hstep⟩ := exists_cell_of_step hk
    obtain ⟨v, hget⟩ := Buffer.exists_get hfull hj
    exact ⟨j, v, hstep, hget, get_afterZzf hc hstep hget⟩

/-- Settles O33: the empty check, and the cells of the state after ZZU. -/
theorem zzuWritesInScanOrder : Obligations.ZzuWritesInScanOrder := by
  refine ⟨rfl, fun s hs => ⟨fun hempty => ?_, fun hfull => ?_⟩⟩
  · exact raises_of_error hs (except_bind_error.mpr (.inl (source_of_not_full hempty)))
  · obtain ⟨sequence, hc⟩ := Buffer.full_iff_cells.mp hfull
    refine ⟨_, exec_zzu hs hc, rfl, fun k hk => ?_, fun j => exists_step_of_cell,
      fun k => get_afterZzu_beyond s sequence⟩
    obtain ⟨j, -, hstep⟩ := exists_cell_of_step hk
    obtain ⟨v, hget⟩ := Buffer.exists_get hfull hk
    exact ⟨j, v, hstep, hget, get_afterZzu hc hstep hget⟩

/-- Settles O34: the first command fills the source of the second, which copies every cell back. -/
theorem zigzagRoundTrips : Obligations.ZigzagRoundTrips := by
  refine ⟨fun s hs hfull => ?_, fun s hs hfull => ?_⟩
  · obtain ⟨matrix, hc⟩ := Buffer.full_iff_cells.mp hfull
    obtain ⟨sequence, hc'⟩ := Buffer.full_iff_cells.mp (full_afterZzf hc)
    exact ⟨_, _, exec_zzf hs hc, exec_zzu hs hc', rfl, get_afterZzu_afterZzf hc hc'⟩
  · obtain ⟨sequence, hc⟩ := Buffer.full_iff_cells.mp hfull
    obtain ⟨matrix, hc'⟩ := Buffer.full_iff_cells.mp (full_afterZzu hc)
    exact ⟨_, _, exec_zzu hs hc, exec_zzf hs hc', rfl, get_afterZzf_afterZzu hc hc'⟩

/-- Settles O30: each table by evaluating the scan. -/
theorem scanOrderTables : Obligations.ScanOrderTables := by
  unfold Obligations.ScanOrderTables
  decide +kernel

end Sys2Proof.Proofs

/-! # The run-length coder

A run of the sequence is one pair of the code, so decoding undoes encoding, the code is canonical, and a canonical
stream is the code of what it decodes to (R110, R116). A stream written to the buffers is the stream that `RLD` reads,
which carries the two facts over to the engine (R108, R112). -/

namespace Sys2Proof.Machine

open Sys2Proof.Claims

/-! ### The run-length code -/

section Code

variable {α : Type} {pairs : List (α × Nat)} {c : α × Nat} {v : α} {cnt : Nat} {l : List α}

/-- Decoding concatenates the runs (R113). -/
theorem rleDecode_eq_flatMap (pairs : List (α × Nat)) :
    rleDecode pairs = pairs.flatMap fun c => List.replicate c.2 c.1 := by
  induction pairs with
  | nil => rfl
  | cons c rest ih => rw [rleDecode_cons, ih, List.flatMap_cons]

theorem canonical_nil : Canonical ([] : List (α × Nat)) := ⟨nofun, .nil⟩

/-- A pair prolongs a canonical stream to the left when its count is not zero and its value is not the next one. -/
theorem canonical_cons : Canonical (c :: pairs) ↔
    1 ≤ c.2 ∧ (∀ d ∈ pairs.head?, c.1 ≠ d.1) ∧ Canonical pairs := by
  simp only [Canonical, List.forall_mem_cons, List.isChain_cons]
  tauto

/-- A canonical stream decodes to a sequence that starts with its first value. -/
theorem head?_rleDecode (h : Canonical pairs) : (rleDecode pairs).head? = pairs.head?.map Prod.fst := by
  cases pairs with
  | nil => rfl
  | cons c rest =>
    obtain ⟨hpos, -, -⟩ := canonical_cons.mp h
    rw [rleDecode_cons, List.head?_append, List.head?_replicate, if_neg (Nat.ne_of_gt hpos)]
    rfl

/-- A count is at most the sum of all. -/
theorem count_le_countSum (h : c ∈ pairs) : c.2 ≤ countSum pairs :=
  List.single_le_sum (fun _ _ => Nat.zero_le _) _ (List.mem_map_of_mem h)

variable [DecidableEq α]

/-- The first pair of the loop carries the running value. -/
theorem fst_of_mem_head?_rleLoop : ∀ d ∈ (rleLoop v cnt l).head?, d.1 = v := by
  induction l generalizing cnt with
  | nil => simp [rleLoop]
  | cons x rest ih =>
    rw [rleLoop_cons]
    split
    · exact ih
    · simp

/-- The loop spells the run it has counted and then the rest (R109). -/
theorem rleDecode_rleLoop (v : α) (cnt : Nat) (l : List α) :
    rleDecode (rleLoop v cnt l) = List.replicate cnt v ++ l := by
  induction l generalizing v cnt with
  | nil => simp [rleLoop]
  | cons x rest ih =>
    rw [rleLoop_cons]
    split
    case isTrue h => rw [ih, List.replicate_succ', List.append_assoc, h]; rfl
    case isFalse => rw [rleDecode_cons, ih]; rfl

theorem canonical_rleLoop (hcnt : 1 ≤ cnt) : Canonical (rleLoop v cnt l) := by
  induction l generalizing v cnt with
  | nil => exact canonical_cons.mpr ⟨hcnt, nofun, canonical_nil⟩
  | cons x rest ih =>
    rw [rleLoop_cons]
    split
    case isTrue => exact ih (Nat.le_add_left 1 cnt)
    case isFalse h =>
      refine canonical_cons.mpr ⟨hcnt, fun d hd => ?_, ih (Nat.le_refl 1)⟩
      rw [fst_of_mem_head?_rleLoop d hd]
      exact Ne.symm h

/-- The loop counts on through a run of its value. -/
theorem rleLoop_replicate_append (v : α) (cnt m : Nat) (l : List α) :
    rleLoop v cnt (List.replicate m v ++ l) = rleLoop v (cnt + m) l := by
  induction m generalizing cnt with
  | zero => rfl
  | succ m ih => rw [List.replicate_succ, List.cons_append, rleLoop_cons, if_pos rfl, ih, Nat.add_right_comm]; rfl

/-- The loop closes its pair when the value changes or the sequence ends. -/
theorem rleLoop_of_head_ne (h : ∀ x ∈ l.head?, x ≠ v) : rleLoop v cnt l = (v, cnt) :: rleEncode l := by
  cases l with
  | nil => rfl
  | cons x rest => rw [rleLoop_cons, if_neg (h x rfl), rleEncode_cons]

/-- A run that the rest does not prolong is one pair. -/
theorem rleEncode_replicate_append (hcnt : 1 ≤ cnt) (h : ∀ x ∈ l.head?, x ≠ v) :
    rleEncode (List.replicate cnt v ++ l) = (v, cnt) :: rleEncode l := by
  obtain ⟨m, rfl⟩ := Nat.exists_eq_add_of_le hcnt
  rw [Nat.add_comm, List.replicate_succ, List.cons_append, rleEncode_cons, rleLoop_replicate_append,
    rleLoop_of_head_ne h, Nat.add_comm]

/-- Decoding undoes encoding (R116). -/
theorem rleDecode_rleEncode (l : List α) : rleDecode (rleEncode l) = l := by
  cases l with
  | nil => rfl
  | cons x rest => exact rleDecode_rleLoop x 1 rest

theorem countSum_rleEncode (l : List α) : countSum (rleEncode l) = l.length := by
  rw [← length_rleDecode, rleDecode_rleEncode]

/-- The run-length code is canonical (R110). -/
theorem canonical_rleEncode (l : List α) : Canonical (rleEncode l) := by
  cases l with
  | nil => exact canonical_nil
  | cons x rest => exact canonical_rleLoop (Nat.le_refl 1)

theorem rleEncode_rleDecode (h : Canonical pairs) : rleEncode (rleDecode pairs) = pairs := by
  induction pairs with
  | nil => rfl
  | cons c rest ih =>
    obtain ⟨hpos, hne, hrest⟩ := canonical_cons.mp h
    rw [rleDecode_cons, rleEncode_replicate_append hpos, ih hrest]
    rw [head?_rleDecode hrest, Option.forall_mem_map]
    exact fun d hd => (hne d hd).symm

/-- Encoding undoes decoding for the canonical streams only (R116). -/
theorem rleEncode_rleDecode_iff : rleEncode (rleDecode pairs) = pairs ↔ Canonical pairs :=
  ⟨fun h => h ▸ canonical_rleEncode _, rleEncode_rleDecode⟩

theorem count_le_of_mem_rleEncode (h : c ∈ rleEncode l) : c.2 ≤ l.length :=
  (count_le_countSum h).trans_eq (countSum_rleEncode l)

/-- A sequence that is not empty has a code that is not empty. -/
theorem length_rleEncode_pos (h : 1 ≤ l.length) : 1 ≤ (rleEncode l).length := by
  refine List.length_pos_iff.mpr fun hnil => ?_
  rw [← countSum_rleEncode, hnil] at h
  exact absurd h (Nat.not_succ_le_zero 0)

end Code

/-! ### Streams in the buffers -/

/-- A fill of the empty buffer holds the list and nothing else. -/
theorem Buffer.get_fill_nil {width : Nat} (values : List (BitVec width)) (k : Nat) :
    (Buffer.fill [] values).get k = values[k]? := by
  rw [Buffer.get_fill]
  split
  case isTrue hk => exact (List.getElem?_eq_getElem hk).symm
  case isFalse hk => exact (List.getElem?_eq_none (Nat.not_lt.mp hk)).symm

/-- A stream that the buffers can hold: at most 256 pairs, their counts of 16 bits (R21, R30). -/
def Storable (pairs : List (BitVec 16 × Nat)) : Prop :=
  pairs.length ≤ 256 ∧ ∀ c ∈ pairs, c.2 < 2 ^ 16

section Stream

variable {s t : State} {pairs pairs' : List (BitVec 16 × Nat)} {values counts : List (BitVec 16)}

theorem get_rv_setStream (s : State) (pairs : List (BitVec 16 × Nat)) (j : Nat) :
    (s.setStream pairs).rv.get j = pairs[j]?.map Prod.fst := by
  rw [State.setStream_rv, Buffer.get_fill_nil, List.getElem?_map]

theorem get_rc_setStream (s : State) (pairs : List (BitVec 16 × Nat)) (j : Nat) :
    (s.setStream pairs).rc.get j = pairs[j]?.map fun c => BitVec.ofNat 16 c.2 := by
  rw [State.setStream_rc, Buffer.get_fill_nil, List.getElem?_map]

theorem toNat_rlen_setStream (s : State) (h : Storable pairs) : (s.setStream pairs).rlen.toNat = pairs.length := by
  obtain ⟨hlen, -⟩ := h
  rw [State.setStream_rlen, BitVec.toNat_ofNat, Nat.mod_eq_of_lt (by omega)]

theorem toNat_count (h : Storable pairs) {c : BitVec 16 × Nat} (hc : c ∈ pairs) :
    (BitVec.ofNat 16 c.2).toNat = c.2 :=
  (BitVec.toNat_ofNat _ _).trans (Nat.mod_eq_of_lt (h.2 c hc))

/-- The code of an extent is storable: N is at most 16 (R111). -/
theorem storable_rleEncode {sequence : List (BitVec 16)} (h : sequence.length ≤ 256) :
    Storable (rleEncode sequence) :=
  ⟨(length_rleEncode_le sequence).trans h, fun _ hc => by have := count_le_of_mem_rleEncode hc; omega⟩

/-- A stream written to the buffers is the stream read from them. -/
theorem streamSource_setStream (h : Storable pairs) : streamSource (s.setStream pairs) = .ok pairs := by
  refine streamSource_ok.mpr ⟨pairs.map Prod.fst, pairs.map fun c => BitVec.ofNat 16 c.2, ?_, ?_, ?_⟩
  · rw [toNat_rlen_setStream s h, State.setStream_rv, ← List.length_map (f := Prod.fst), Buffer.cells_fill]
  · rw [toNat_rlen_setStream s h, State.setStream_rc, ← List.length_map (f := fun c => BitVec.ofNat 16 c.2),
      Buffer.cells_fill]
  · have hcounts : (pairs.map fun c => BitVec.ofNat 16 c.2).map BitVec.toNat = pairs.map Prod.snd := by
      rw [List.map_map]
      exact List.map_congr_left fun c hc => toNat_count h hc
    rw [hcounts, List.zip_map']
    exact (List.map_id pairs).symm

/-- The stream that RLD reads is all there is in the cells below `RLEN`. -/
theorem cells_of_streamSource (h : streamSource s = .ok pairs) :
    s.rv.cells s.rlen.toNat = some (pairs.map Prod.fst) ∧
      s.rc.cells s.rlen.toNat = some (pairs.map fun c => BitVec.ofNat 16 c.2) := by
  obtain ⟨values, counts, hvalues, hcounts, rfl⟩ := streamSource_ok.mp h
  have hlen : values.length = (counts.map BitVec.toNat).length := by
    rw [List.length_map, Buffer.cells_length hvalues, Buffer.cells_length hcounts]
  have hpatterns : ((values.zip (counts.map BitVec.toNat)).map fun c => BitVec.ofNat 16 c.2) = counts := by
    calc (values.zip (counts.map BitVec.toNat)).map fun c => BitVec.ofNat 16 c.2
      _ = ((values.zip (counts.map BitVec.toNat)).map Prod.snd).map (BitVec.ofNat 16) := by rw [List.map_map]; rfl
      _ = counts.map (BitVec.ofNat 16 ∘ BitVec.toNat) := by rw [List.map_snd_zip hlen.ge, List.map_map]
      _ = counts := List.map_id'' (fun c => BitVec.eq_of_toNat_eq (by simp)) counts
  rw [List.map_fst_zip hlen.le, hpatterns]
  exact ⟨hvalues, hcounts⟩

/-- Streams of the same cells and the same length are the same, and conversely. -/
theorem sameStream_iff (hs : streamSource s = .ok pairs) (ht : streamSource t = .ok pairs') :
    (t.rlen = s.rlen ∧ ∀ j < s.rlen.toNat, t.rv.get j = s.rv.get j ∧ t.rc.get j = s.rc.get j) ↔
      pairs' = pairs := by
  obtain ⟨hsv, hsc⟩ := cells_of_streamSource hs
  obtain ⟨htv, htc⟩ := cells_of_streamSource ht
  constructor
  · rintro ⟨hlen, hcells⟩
    have hsame : streamSource t = streamSource s := by
      unfold streamSource source
      rw [hlen, Buffer.cells_congr fun j hj => (hcells j hj).1, Buffer.cells_congr fun j hj => (hcells j hj).2]
    exact Except.ok.inj (ht.symm.trans (hsame.trans hs))
  · rintro rfl
    have hlen : t.rlen = s.rlen :=
      BitVec.eq_of_toNat_eq ((Buffer.cells_length htv).symm.trans (Buffer.cells_length hsv))
    rw [hlen] at htv htc
    refine ⟨hlen, fun j hj => ⟨?_, ?_⟩⟩
    · rw [← Buffer.getElem?_of_cells htv hj, Buffer.getElem?_of_cells hsv hj]
    · rw [← Buffer.getElem?_of_cells htc hj, Buffer.getElem?_of_cells hsc hj]

/-- The stream of full value and count cells, its count sum and what it spells, in the words of the statements. -/
theorem stream_of_cells (hvalues : s.rv.cells s.rlen.toNat = some values)
    (hcounts : s.rc.cells s.rlen.toNat = some counts) :
    streamSource s = .ok (values.zip (counts.map BitVec.toNat)) ∧
      countSum (values.zip (counts.map BitVec.toNat)) = (counts.map BitVec.toNat).sum ∧
      rleDecode (values.zip (counts.map BitVec.toNat)) =
        (values.zip counts).flatMap fun c => List.replicate c.2.toNat c.1 := by
  have hlen : (counts.map BitVec.toNat).length ≤ values.length := by
    rw [List.length_map, Buffer.cells_length hvalues, Buffer.cells_length hcounts]
  refine ⟨streamSource_ok.mpr ⟨values, counts, hvalues, hcounts, rfl⟩, ?_, ?_⟩
  · rw [countSum, List.map_snd_zip hlen]
  · rw [rleDecode_eq_flatMap, List.zip_map_right, List.flatMap_map]
    rfl

/-- An empty value or count below `RLEN` ends RLD with `E_EMPTY` (R112). -/
theorem streamSource_of_not_full (h : s.rv.full s.rlen.toNat = false ∨ s.rc.full s.rlen.toNat = false) :
    streamSource s = .error .empty :=
  streamSource_error.mpr ⟨rfl, Bool.and_eq_false_iff.mpr h⟩

end Stream

/-! ### The commands -/

/-- The state after an RLE that completes (R108). -/
def afterRle (s : State) (sequence : List (BitVec 16)) : State :=
  (s.setStream (rleEncode sequence)).respond .ok

/-- The state after an RLD that completes (R112). -/
def afterRld (s : State) (pairs : List (BitVec 16 × Nat)) : State :=
  (s.setZ (s.z.fill (rleDecode pairs))).respond .ok

section Commands

variable {s : State} {sequence : List (BitVec 16)} {pairs : List (BitVec 16 × Nat)} {k : Nat}

theorem exec_rle (hs : s.err = none) (hc : s.z.cells s.extent = some sequence) :
    exec .rle s = .next (afterRle s sequence) :=
  exec_of_ok hs (body_rle.mpr ⟨sequence, hc, rfl⟩)

theorem exec_rld (hs : s.err = none) (hsource : streamSource s = .ok pairs) (hsum : countSum pairs = s.extent) :
    exec .rld s = .next (afterRld s pairs) :=
  exec_of_ok hs (body_rld.mpr ⟨pairs, hsource, hsum, rfl⟩)

/-- Counts that miss N² end RLD with `E_RLESUM` (R114). -/
theorem raises_rleSum (hs : s.err = none) (hsource : streamSource s = .ok pairs) (hsum : countSum pairs ≠ s.extent) :
    Raises .rld s .rleSum :=
  raises_of_error hs (except_bind_error.mpr
    (.inr ⟨pairs, hsource, except_bind_error.mpr (.inl (sumCheck_error.mpr ⟨rfl, hsum⟩))⟩))

/-- For N up to 16 the code of `Z` is storable. -/
theorem storable_of_cells (h16 : s.n ≤ 16) (hc : s.z.cells s.extent = some sequence) :
    Storable (rleEncode sequence) :=
  storable_rleEncode ((Buffer.cells_length hc).trans_le (Nat.mul_le_mul h16 h16))

/-- The counts of the code of `Z` sum to N² (R110, R114). -/
theorem countSum_of_cells (hc : s.z.cells s.extent = some sequence) : countSum (rleEncode sequence) = s.extent :=
  (countSum_rleEncode sequence).trans (Buffer.cells_length hc)

/-- RLD reads the stream that RLE wrote. -/
theorem streamSource_afterRle (h16 : s.n ≤ 16) (hc : s.z.cells s.extent = some sequence) :
    streamSource (afterRle s sequence) = .ok (rleEncode sequence) :=
  streamSource_setStream (s := s) (storable_of_cells h16 hc)

/-- RLE reads the sequence that RLD wrote. -/
theorem cells_afterRld (hsum : countSum pairs = s.extent) :
    (afterRld s pairs).z.cells s.extent = some (rleDecode pairs) := by
  have h := Buffer.cells_fill s.z (rleDecode pairs)
  rwa [length_rleDecode, hsum] at h

theorem get_afterRld_beyond (hsum : countSum pairs = s.extent) (hk : s.extent ≤ k) :
    (afterRld s pairs).z.get k = s.z.get k :=
  Buffer.get_fill_ge s.z (by rwa [length_rleDecode, hsum])

/-- RLD after RLE puts every cell of `Z` back (R116). -/
theorem get_afterRld_afterRle (hc : s.z.cells s.extent = some sequence) (k : Nat) :
    (afterRld (afterRle s sequence) (rleEncode sequence)).z.get k = s.z.get k := by
  have hsum : countSum (rleEncode sequence) = (afterRle s sequence).extent := countSum_of_cells hc
  rcases Nat.lt_or_ge k s.extent with hk | hk
  · have hc' := cells_afterRld hsum
    rw [rleDecode_rleEncode] at hc'
    rw [← Buffer.getElem?_of_cells hc' hk, Buffer.getElem?_of_cells hc hk]
  · exact get_afterRld_beyond hsum hk

end Commands

end Sys2Proof.Machine

/-! # The statements of the run-length coder -/

namespace Sys2Proof.Proofs

open Sys2Proof.Machine Sys2Proof.Claims

/-- Settles O35: the code is canonical, and what it spells bounds its counts and their sum. -/
theorem rleEncodeProperties : Obligations.RleEncodeProperties := by
  intro sequence hlen
  obtain ⟨hpos, hneighbours⟩ := canonical_rleEncode sequence
  exact ⟨fun c hc => ⟨hpos c hc, count_le_of_mem_rleEncode hc⟩, countSum_rleEncode sequence, hneighbours,
    length_rleEncode_pos hlen, length_rleEncode_le sequence, rleDecode_rleEncode sequence⟩

/-- Settles O37: the empty check, and the cells of the state after RLE. -/
theorem rleWritesTheStream : Obligations.RleWritesTheStream := by
  refine ⟨rfl, fun s hs h1 h16 => ⟨fun hempty => ?_, fun sequence hc => ?_⟩⟩
  · exact raises_of_error hs (except_bind_error.mpr (.inl (source_of_not_full hempty)))
  · have hlen : sequence.length = s.extent := Buffer.cells_length hc
    have hstorable := storable_of_cells h16 hc
    have hrlen : (afterRle s sequence).rlen.toNat = (rleEncode sequence).length := toNat_rlen_setStream s hstorable
    refine ⟨_, exec_rle hs hc, rfl, hrlen, ?_, ?_, fun j v c hj => ⟨?_, BitVec.ofNat 16 c, ?_, ?_⟩,
      fun j hj => ⟨?_, ?_⟩⟩
    · rw [hrlen]
      exact length_rleEncode_pos (hlen ▸ Nat.mul_le_mul h1 h1)
    · rw [hrlen, ← hlen]
      exact length_rleEncode_le sequence
    · exact (get_rv_setStream s _ j).trans (congrArg _ hj)
    · exact (get_rc_setStream s _ j).trans (congrArg _ hj)
    · exact toNat_count hstorable (List.mem_of_getElem? hj)
    · exact (get_rv_setStream s _ j).trans (congrArg _ (List.getElem?_eq_none (hrlen ▸ hj)))
    · exact (get_rc_setStream s _ j).trans (congrArg _ (List.getElem?_eq_none (hrlen ▸ hj)))

/-- Settles O38: the two checks in their order, and the cells of the state after RLD. -/
theorem rldReplaysTheStream : Obligations.RldReplaysTheStream := by
  refine ⟨rfl, fun s hs => ⟨fun hempty => ?_, fun values counts hvalues hcounts => ?_⟩⟩
  · exact raises_of_error hs (except_bind_error.mpr (.inl (streamSource_of_not_full hempty)))
  · obtain ⟨hsource, hsum, hspelled⟩ := stream_of_cells hvalues hcounts
    rw [← hsum, ← hspelled]
    exact ⟨raises_rleSum hs hsource, fun hextent => ⟨_, exec_rld hs hsource hextent, rfl, cells_afterRld hextent,
      fun k => get_afterRld_beyond hextent⟩⟩

/-- Settles O39: the code's two laws, and in the engine the second command reads what the first one wrote. -/
theorem runLengthCodeIsLossless : Obligations.RunLengthCodeIsLossless := by
  refine ⟨fun sequence => ⟨rleDecode_rleEncode sequence, countSum_rleEncode sequence⟩,
    fun pairs => rleEncode_rleDecode_iff, fun s hs h1 h16 hfull => ?_,
    fun s values counts hs h1 h16 hvalues hcounts hsum => ?_⟩
  · obtain ⟨sequence, hc⟩ := Buffer.full_iff_cells.mp hfull
    exact ⟨_, _, exec_rle hs hc, exec_rld hs (streamSource_afterRle h16 hc) (countSum_of_cells hc), rfl,
      get_afterRld_afterRle hc⟩
  · obtain ⟨hsource, hcountSum, -⟩ := stream_of_cells hvalues hcounts
    have hextent := hcountSum.trans hsum
    have hc := cells_afterRld hextent
    refine ⟨_, _, exec_rld hs hsource hextent, exec_rle hs hc, rfl, ?_⟩
    exact (sameStream_iff hsource (streamSource_afterRle (s := afterRld s _) h16 hc)).trans rleEncode_rleDecode_iff

/-- Settles O36: each side by the first step of the code. -/
theorem rleOfEmptyAndSingle : Obligations.RleOfEmptyAndSingle :=
  ⟨rleEncode_nil, rleDecode_nil, fun v => rleEncode_cons v []⟩

end Sys2Proof.Proofs

/-! # The sample conversions

A sample and its real have the same value, and a real becomes the sample nearest to it among 0 to 255 (R118, R120); so
the two commands undo each other as far as rule R123 says. -/

namespace Sys2Proof.Machine

open Sys2Proof.Claims

/-! ### Samples and reals -/

theorem natAbs_toNat_le (v : BitVec 8) : (v.toNat : Int).natAbs ≤ 2 ^ 31 := by
  rw [Int.natAbs_natCast]
  exact v.isLt.le.trans (by norm_num)

@[simp] theorem val_sampleToReal (v : BitVec 8) : F64.val (sampleToReal v) = v.toNat :=
  (F64.val_ofInt ((natAbs_toNat_le v).trans (by norm_num))).trans (Int.cast_natCast _)

theorem transformable_sampleToReal (v : BitVec 8) : F64.transformable (sampleToReal v) = true :=
  F64.transformable_ofInt (natAbs_toNat_le v)

@[simp] theorem finite_sampleToReal (v : BitVec 8) : F64.finite (sampleToReal v) = true :=
  F64.finite_of_transformable (transformable_sampleToReal v)

theorem sampleToReal_zero : sampleToReal 0 = 0 := rfl

/-- A converted sample holds the rounded and saturated value: 8 bits hold it (R120, R121). -/
theorem toNat_realToSample (c : F64) : ((realToSample c).toNat : Int) = sat (rhaz (F64.val c)) 0 255 := by
  obtain ⟨hlow, hhigh⟩ := sat_mem (show (0 : Int) ≤ 255 by decide) (rhaz (F64.val c))
  rw [realToSample, BitVec.toNat_ofInt]
  omega

/-- A real that rounds to the value of a sample becomes that sample. -/
theorem realToSample_of_rhaz {c : F64} {v : BitVec 8} (h : rhaz (F64.val c) = v.toNat) : realToSample c = v := by
  have hval := toNat_realToSample c
  rw [h, sat_of_mem (Int.natCast_nonneg _) (by have := v.isLt; omega)] at hval
  exact BitVec.eq_of_toNat_eq (by exact_mod_cast hval)

/-- A sample comes back from its real (R123). -/
@[simp] theorem realToSample_sampleToReal (v : BitVec 8) : realToSample (sampleToReal v) = v := by
  refine realToSample_of_rhaz ?_
  rw [val_sampleToReal, ← Int.cast_natCast, rhaz_intCast]

/-! ### Cell by cell -/

section FillMap

variable {width width' count k : Nat} {b : Buffer width} {values : List (BitVec width)} {v : BitVec width}

/-- A fill with the images of a source extent gives each cell the image of its source cell. -/
theorem Buffer.get_fill_map (d : Buffer width') (g : BitVec width → BitVec width') (hc : b.cells count = some values)
    (hk : k < count) (hget : b.get k = some v) : (d.fill (values.map g)).get k = some (g v) :=
  Buffer.get_fill_of_getElem? d (by rw [List.getElem?_map, Buffer.getElem?_of_cells hc hk, hget, Option.map_some])

theorem Buffer.get_fill_map_beyond (d : Buffer width') (g : BitVec width → BitVec width')
    (hc : b.cells count = some values) (hk : count ≤ k) : (d.fill (values.map g)).get k = d.get k :=
  Buffer.get_fill_ge d (by rwa [List.length_map, Buffer.cells_length hc])

theorem Buffer.cells_fill_map (d : Buffer width') (g : BitVec width → BitVec width')
    (hc : b.cells count = some values) : (d.fill (values.map g)).cells count = some (values.map g) := by
  have h := Buffer.cells_fill d (values.map g)
  rwa [List.length_map, Buffer.cells_length hc] at h

end FillMap

/-! ### The commands -/

/-- The state after an LDPX that completes (R118). -/
def afterLdpx (s : State) (samples : List (BitVec 8)) : State :=
  (s.setX (s.x.fill (samples.map sampleToReal))).respond .ok

/-- The state after an STPX that completes (R120). -/
def afterStpx (s : State) (reals : List F64) : State :=
  (s.setP (s.p.fill (reals.map realToSample))).respond .ok

section Commands

variable {s : State} {samples : List (BitVec 8)} {reals : List F64}

theorem exec_ldpx (hs : s.err = none) (hc : s.p.cells s.extent = some samples) :
    exec .ldpx s = .next (afterLdpx s samples) :=
  exec_of_ok hs (body_ldpx.mpr ⟨samples, hc, rfl⟩)

theorem exec_stpx (hs : s.err = none) (hc : s.x.cells s.extent = some reals)
    (hfinite : reals.all F64.finite = true) : exec .stpx s = .next (afterStpx s reals) :=
  exec_of_ok hs (body_stpx.mpr ⟨reals, hc, hfinite, rfl⟩)

/-- LDPX leaves in `X` the reals of the samples. -/
theorem cells_afterLdpx (hc : s.p.cells s.extent = some samples) :
    (afterLdpx s samples).x.cells (afterLdpx s samples).extent = some (samples.map sampleToReal) :=
  Buffer.cells_fill_map s.x sampleToReal hc

/-- STPX leaves in `P` the samples of the reals. -/
theorem cells_afterStpx (hc : s.x.cells s.extent = some reals) :
    (afterStpx s reals).p.cells (afterStpx s reals).extent = some (reals.map realToSample) :=
  Buffer.cells_fill_map s.p realToSample hc

theorem all_finite_sampleToReal (samples : List (BitVec 8)) : (samples.map sampleToReal).all F64.finite = true := by
  simp

/-- STPX after LDPX puts every cell of `P` back (R123). -/
theorem get_afterStpx_afterLdpx (hc : s.p.cells s.extent = some samples) (k : Nat) :
    (afterStpx (afterLdpx s samples) (samples.map sampleToReal)).p.get k = s.p.get k := by
  have hc' := cells_afterLdpx hc
  rcases Nat.lt_or_ge k s.extent with hk | hk
  · obtain ⟨v, hget⟩ := Buffer.exists_get (Buffer.full_iff_cells.mpr ⟨samples, hc⟩) hk
    have hreal : (afterLdpx s samples).x.get k = some (sampleToReal v) := Buffer.get_fill_map s.x _ hc hk hget
    have hsample := Buffer.get_fill_map s.p realToSample hc' hk hreal
    rw [realToSample_sampleToReal] at hsample
    exact hsample.trans hget.symm
  · exact Buffer.get_fill_map_beyond s.p realToSample hc' hk

end Commands

end Sys2Proof.Machine

/-! # The statements of the sample conversions -/

namespace Sys2Proof.Proofs

open Sys2Proof.Machine Sys2Proof.Claims

/-- Settles O16: the empty check, and the cells of the state after LDPX. -/
theorem ldpxConvertsEverySample : Obligations.LdpxConvertsEverySample := by
  refine ⟨rfl, fun s hs => ⟨fun hempty => ?_, fun hfull => ?_⟩⟩
  · exact raises_of_error hs (except_bind_error.mpr (.inl (source_of_not_full hempty)))
  · obtain ⟨samples, hc⟩ := Buffer.full_iff_cells.mp hfull
    refine ⟨_, exec_ldpx hs hc, rfl, fun k hk => ?_, fun k => Buffer.get_fill_map_beyond s.x _ hc⟩
    obtain ⟨v, hget⟩ := Buffer.exists_get hfull hk
    exact ⟨v, _, hget, Buffer.get_fill_map s.x _ hc hk hget, finite_sampleToReal v, val_sampleToReal v,
      fun h => h ▸ sampleToReal_zero⟩

/-- Settles O17: the checks of a command that reads reals, and the cells of the state after STPX. -/
theorem stpxRoundsAndSaturates : Obligations.StpxRoundsAndSaturates := by
  refine ⟨rfl, fun s hs => ⟨fun hempty => raises_of_error hs (realBody_empty hempty),
    fun hfull => (raises_num_and_completes hs rfl hasNonFinite_iff hfull).left, fun hfull hfinite => ?_⟩⟩
  obtain ⟨reals, hc⟩ := Buffer.full_iff_cells.mp hfull
  refine ⟨_, exec_stpx hs hc (all_finite_of_not_hasNonFinite hc hfinite), rfl, fun k hk => ?_,
    fun k => Buffer.get_fill_map_beyond s.p _ hc⟩
  obtain ⟨c, hget⟩ := Buffer.exists_get hfull hk
  exact ⟨c, _, hget, Buffer.get_fill_map s.p _ hc hk hget, toNat_realToSample c⟩

/-- Settles O18: one state after the other, and each cell through the two conversions. -/
theorem samplesSurviveLdpxThenStpx : Obligations.SamplesSurviveLdpxThenStpx := by
  refine ⟨fun s hs hfull => ?_, fun s hs hfull hfinite => ?_⟩
  · obtain ⟨samples, hc⟩ := Buffer.full_iff_cells.mp hfull
    exact ⟨_, _, exec_ldpx hs hc, exec_stpx hs (cells_afterLdpx hc) (all_finite_sampleToReal samples), rfl,
      get_afterStpx_afterLdpx hc⟩
  · obtain ⟨reals, hc⟩ := Buffer.full_iff_cells.mp hfull
    have hc' := cells_afterStpx hc
    refine ⟨_, _, exec_stpx hs hc (all_finite_of_not_hasNonFinite hc hfinite), exec_ldpx hs hc', rfl, fun k hk => ?_⟩
    obtain ⟨c, hget⟩ := Buffer.exists_get hfull hk
    have hsample : (afterStpx s reals).p.get k = some (realToSample c) := Buffer.get_fill_map s.p _ hc hk hget
    refine ⟨c, _, hget, Buffer.get_fill_map s.x _ hc' hk hsample, ?_⟩
    rw [val_sampleToReal, ← toNat_realToSample, Int.cast_natCast]

end Sys2Proof.Proofs

/-! # A flat block through both chains

A flat block has a lone DC coefficient, and a lone DC coefficient is that of a flat block (R82, R89). A conforming
result within 1/2 of an integer rounds to it, so the quantizer and STPX recover both exactly (R92, R123); the scanner
and the coder between them lose nothing (R105, R116). -/

namespace Sys2Proof.Machine

open Sys2Proof.Claims

/-! ### Results that round to an integer -/

theorem rhaz_of_abs_sub_lt {r : ℚ} {i : Int} (h : |r - i| < 1 / 2) : rhaz r = i := by
  have hlt : |((rhaz r - i : Int) : ℚ)| < 1 := by
    push_cast
    linarith [abs_sub_le (rhaz r : ℚ) r i, abs_rhaz_sub_le r]
  have hzero : |rhaz r - i| < 1 := by exact_mod_cast hlt
  exact sub_eq_zero.mp (Int.abs_lt_one_iff.mp hzero)

/-- A result that conforms within less than 1/2 rounds to the exact matrix where that is integral. -/
theorem Conforms.rhaz_eq {tol m : ℚ} {n k : Nat} {exact : Nat → Nat → ℝ} {g : Nat → F64} {value : Nat → Int}
    (hg : Conforms tol n exact m g) (htol : tol * max 1 m < 1 / 2)
    (hexact : ∀ a < n, ∀ b < n, exact a b = value (idx n a b)) (hk : k < n * n) :
    F64.finite (g k) = true ∧ rhaz (F64.val (g k)) = value k := by
  obtain ⟨a, ha, b, hb, rfl⟩ := exists_idx_eq hk
  obtain ⟨hfinite, haccurate⟩ := hg a ha b hb
  rw [hexact a ha b hb] at haccurate
  have hval : |F64.val (g (idx n a b)) - value (idx n a b)| ≤ tol * max 1 m := by exact_mod_cast haccurate
  exact ⟨hfinite, rhaz_of_abs_sub_lt (hval.trans_lt htol)⟩

/-! ### Source extents of integral reals -/

theorem Buffer.full_of_forall_get {width count : Nat} {b : Buffer width} (h : ∀ k < count, ∃ v, b.get k = some v) :
    b.full count = true :=
  Buffer.full_iff.mpr fun k hk => Option.isSome_iff_exists.mpr (h k hk)

/-- The cells below `count` hold reals that a transform accepts, cell k of integral value `value k`. -/
def HoldsIntegers (b : Buffer 64) (count : Nat) (value : Nat → Int) : Prop :=
  ∀ k < count, ∃ c, b.get k = some c ∧ F64.transformable c = true ∧ F64.val c = value k

section HoldsIntegers

variable {b : Buffer 64} {n count : Nat} {value : Nat → Int} {cells : List F64}

theorem HoldsIntegers.exists_cells (h : HoldsIntegers b count value) : ∃ cells, b.cells count = some cells :=
  Buffer.full_iff_cells.mp (Buffer.full_of_forall_get fun k hk => (h k hk).imp fun _ hc => hc.left)

/-- Every listed cell is an accepted real of the value of some cell below `count`. -/
theorem HoldsIntegers.of_mem (h : HoldsIntegers b count value) (hc : b.cells count = some cells) {c : F64}
    (hmem : c ∈ cells) : ∃ k < count, F64.transformable c = true ∧ F64.val c = value k := by
  obtain ⟨k, hk, rfl⟩ := List.mem_iff_getElem.mp hmem
  have hlt : k < count := Buffer.cells_length hc ▸ hk
  obtain ⟨c, hget, hfit, hval⟩ := h k hlt
  cases (Buffer.get_of_cells hc hk).symm.trans hget
  exact ⟨k, hlt, hfit, hval⟩

theorem HoldsIntegers.all_transformable (h : HoldsIntegers b count value) (hc : b.cells count = some cells) :
    cells.all F64.transformable = true :=
  List.all_eq_true.mpr fun _ hmem => by
    obtain ⟨_, _, hfit, _⟩ := h.of_mem hc hmem
    exact hfit

theorem HoldsIntegers.largest_le {m : ℚ} (h : HoldsIntegers b count value) (hc : b.cells count = some cells)
    (h0 : 0 ≤ m) (hm : ∀ k < count, |(value k : ℚ)| ≤ m) : largest cells ≤ m :=
  largest_le_of_forall h0 fun _ hmem => by
    obtain ⟨k, hk, -, hval⟩ := h.of_mem hc hmem
    rw [hval]
    exact hm k hk

theorem HoldsIntegers.matrixOf_eq (h : HoldsIntegers b (n * n) value) (hc : b.cells (n * n) = some cells) {x y : Nat}
    (hx : x < n) (hy : y < n) : matrixOf n cells x y = value (idx n x y) := by
  obtain ⟨c, hget, -, hval⟩ := h (idx n x y) (idx_lt hx hy)
  rw [matrixOf, List.getD_eq_getElem?_getD, Buffer.getElem?_of_cells hc (idx_lt hx hy), hget, Option.getD_some, hval,
    Rat.cast_intCast]

end HoldsIntegers

/-! ### Flat blocks and lone DC terms -/

/-- The coefficients of a flat block: N times its sample in cell 0, and 0 in every other cell (R82). -/
def dcTerm (n : Nat) (v : BitVec 8) (k : Nat) : Int := if k = 0 then n * v.toNat else 0

theorem idx_eq_zero_iff {n a b : Nat} (hn : 1 ≤ n) : idx n a b = 0 ↔ a = 0 ∧ b = 0 := by
  have hn0 : n ≠ 0 := by omega
  simp [idx, hn0, and_comm]

/-- The DC term of a flat block fits the cells it goes through: N is at most 16. -/
theorem dcTerm_bounds {n : Nat} (h16 : n ≤ 16) (v : BitVec 8) (k : Nat) :
    pinLow k ≤ dcTerm n v k ∧ dcTerm n v k ≤ pinHigh k := by
  have hle : (n * v.toNat : Int) ≤ 16 * 255 := by exact_mod_cast Nat.mul_le_mul h16 (Nat.le_of_lt_succ v.isLt)
  have h0 : (0 : Int) ≤ n * v.toNat := by positivity
  unfold dcTerm pinLow pinHigh
  split
  · omega
  · decide

theorem abs_dcTerm_le (n : Nat) (v : BitVec 8) (k : Nat) : |(dcTerm n v k : ℚ)| ≤ n * v.toNat := by
  have h0 : (0 : ℚ) ≤ n * v.toNat := by positivity
  unfold dcTerm
  split
  · push_cast
    rw [abs_of_nonneg h0]
  · simpa using h0

/-- A coefficient that rounds to the DC term is quantized to it. -/
theorem toInt_quantizeCell_of_rhaz {n k : Nat} {v : BitVec 8} {c : F64} (h16 : n ≤ 16)
    (h : rhaz (F64.val c) = dcTerm n v k) : (quantizeCell k c).toInt = dcTerm n v k := by
  obtain ⟨hlow, hhigh⟩ := dcTerm_bounds h16 v k
  rw [toInt_quantizeCell, h, sat_of_mem hlow hhigh]

/-- The forward transform reads the entries below N only (R78). -/
theorem forwardExact_congr {n : Nat} {s t : Nat → Nat → ℝ} (h : ∀ x < n, ∀ y < n, s x y = t x y) :
    forwardExact n s = forwardExact n t := by
  funext u v
  unfold forwardExact
  congr 1
  refine Finset.sum_congr rfl fun x hx => Finset.sum_congr rfl fun y hy => ?_
  rw [h x (Finset.mem_range.mp hx) y (Finset.mem_range.mp hy)]

theorem forwardExact_flat {n u w : Nat} (hn : 1 ≤ n) (v : BitVec 8) (hu : u < n) (hw : w < n) :
    forwardExact n (fun _ _ => (v.toNat : ℝ)) u w = dcTerm n v (idx n u w) := by
  by_cases h : u = 0 ∧ w = 0
  · rw [dcTerm, if_pos ((idx_eq_zero_iff hn).mpr h), h.1, h.2, forwardExact_const_dc hn]
    push_cast
    rfl
  · rw [dcTerm, if_neg (mt (idx_eq_zero_iff hn).mp h), forwardExact_const_ac _ hu hw (mt Prod.mk.inj h), Int.cast_zero]

theorem inverseExact_dcTerm {n : Nat} (hn : 1 ≤ n) (v : BitVec 8) (x y : Nat) :
    inverseExact n (fun u w => dcTerm n v (idx n u w)) x y = v.toNat := by
  have hn0 : (n : ℝ) ≠ 0 := by exact_mod_cast (show n ≠ 0 by omega)
  have hterms : (fun u w => (dcTerm n v (idx n u w) : ℝ)) =
      fun u w => if u = 0 ∧ w = 0 then (n * v.toNat : ℝ) else 0 := by
    funext u w
    simp only [dcTerm, idx_eq_zero_iff hn]
    split <;> push_cast <;> rfl
  rw [hterms, inverseExact_dc hn, mul_div_cancel_left₀ _ hn0]

section Flat

variable {unit : Dct} {n k : Nat} {v : BitVec 8} {b : Buffer 64} {cells : List F64}

/-- The results of FDCT on a flat block round to its exact coefficients (R80, R82). -/
theorem rhaz_fdct_flat (h1 : 1 ≤ n) (h16 : n ≤ 16) (htol : unit.tol * max 1 (n * v.toNat : ℚ) < 1 / 2)
    (hb : HoldsIntegers b (n * n) fun _ => v.toNat) (hc : b.cells (n * n) = some cells) (hk : k < n * n) :
    F64.finite (unit.fdct n cells k) = true ∧ rhaz (F64.val (unit.fdct n cells k)) = dcTerm n v k := by
  have hn : (1 : ℚ) ≤ n := by exact_mod_cast h1
  have hsample : |((v.toNat : Int) : ℚ)| ≤ n * v.toNat := by
    rw [Int.cast_natCast, Nat.abs_cast]
    exact le_mul_of_one_le_left (by positivity) hn
  have hconforms := (unit.fdct_conforms n cells h1 h16 (Buffer.cells_length hc) (hb.all_transformable hc)).mono
    unit.tol_nonneg (hb.largest_le hc (by positivity) fun _ _ => hsample)
  have hflat : forwardExact n (matrixOf n cells) = forwardExact n fun _ _ => (v.toNat : ℝ) :=
    forwardExact_congr fun _ hx _ hy => (hb.matrixOf_eq hc hx hy).trans (Int.cast_natCast _)
  rw [hflat] at hconforms
  exact hconforms.rhaz_eq htol (fun _ hu _ hw => forwardExact_flat h1 v hu hw) hk

/-- The results of IDCT on the coefficients of a flat block round to its sample (R87, R89). -/
theorem rhaz_idct_dcTerm (h1 : 1 ≤ n) (h16 : n ≤ 16) (htol : unit.tol * max 1 (n * v.toNat : ℚ) < 1 / 2)
    (hb : HoldsIntegers b (n * n) (dcTerm n v)) (hc : b.cells (n * n) = some cells) (hk : k < n * n) :
    F64.finite (unit.idct n cells k) = true ∧ rhaz (F64.val (unit.idct n cells k)) = v.toNat := by
  have hconforms := (unit.idct_conforms n cells h1 h16 (Buffer.cells_length hc) (hb.all_transformable hc)).mono
    unit.tol_nonneg (hb.largest_le hc (by positivity) fun k _ => abs_dcTerm_le n v k)
  rw [inverseExact_congr fun _ hu _ hw => hb.matrixOf_eq hc hu hw] at hconforms
  exact hconforms.rhaz_eq (value := fun _ => v.toNat) htol
    (fun x _ y _ => (inverseExact_dcTerm h1 v x y).trans (Int.cast_natCast _).symm) hk

end Flat

/-! ### The parts of the chains -/

theorem chainOk_append {unit : Dct} {first second : List Instr} {s t u : State} (hst : ChainOk unit first s t)
    (htu : ChainOk unit second t u) : ChainOk unit (first ++ second) s u := by
  induction first generalizing s with
  | nil => cases hst; exact htu
  | cons i rest ih =>
    obtain ⟨r, hexec, hanswers, hrest⟩ := hst
    exact ⟨r, hexec, hanswers, ih hrest⟩

/-- The cells below N² hold the quantized coefficients of a flat block. -/
def HoldsDcTerm (q : Buffer 16) (n : Nat) (v : BitVec 8) : Prop :=
  ∀ k < n * n, ∃ w, q.get k = some w ∧ w.toInt = dcTerm n v k

theorem HoldsDcTerm.full {q : Buffer 16} {n : Nat} {v : BitVec 8} (h : HoldsDcTerm q n v) : q.full (n * n) = true :=
  Buffer.full_of_forall_get fun k hk => (h k hk).imp fun _ hw => hw.left

theorem transformable_dequantizeCell (w : BitVec 16) : F64.transformable (dequantizeCell w) = true :=
  F64.transformable_ofInt (by have := toInt_bounds w; omega)

theorem all_finite_resultCells {count : Nat} {result : Nat → F64} (h : ∀ k < count, F64.finite (result k) = true) :
    (resultCells count result).all F64.finite = true :=
  List.all_eq_true.mpr fun _ hmem => by
    obtain ⟨k, hk, rfl⟩ := mem_resultCells.mp hmem
    exact h k hk

/-- The state after an IDCT that completes (R84). -/
def afterIdct (unit : Dct) (s : State) (cells : List F64) : State :=
  (s.setX (s.x.fill (resultCells s.extent (unit.idct s.n cells)))).respond .ok

theorem cells_afterIdct (unit : Dct) (s : State) (cells : List F64) :
    (afterIdct unit s cells).x.cells (afterIdct unit s cells).extent =
      some (resultCells s.extent (unit.idct s.n cells)) := by
  have h := Buffer.cells_fill s.x (resultCells s.extent (unit.idct s.n cells))
  rwa [length_resultCells] at h

section Chains

variable {s : State} {v : BitVec 8}

theorem holdsIntegers_afterLdpx {samples : List (BitVec 8)} (hc : s.p.cells s.extent = some samples)
    (hflat : ∀ k < s.extent, s.p.get k = some v) :
    HoldsIntegers (afterLdpx s samples).x s.extent fun _ => v.toNat := fun k hk =>
  ⟨_, Buffer.get_fill_map s.x _ hc hk (hflat k hk), transformable_sampleToReal v,
    (val_sampleToReal v).trans (Int.cast_natCast _).symm⟩

theorem holdsIntegers_afterDqt {integers : List (BitVec 16)} (hc : s.q.cells s.extent = some integers)
    (hq : HoldsDcTerm s.q s.n v) : HoldsIntegers (afterDqt s integers).f s.extent (dcTerm s.n v) := fun k hk => by
  obtain ⟨w, hget, hval⟩ := hq k hk
  exact ⟨_, get_afterDqt hc hk hget, transformable_dequantizeCell w, by rw [val_dequantizeCell, hval]⟩

section Lossless

variable {matrix sequence : List (BitVec 16)}

@[simp] theorem err_afterZzf : (afterZzf s matrix).err = s.err := by simp [afterZzf]

@[simp] theorem extent_afterZzf : (afterZzf s matrix).extent = s.extent := by simp [afterZzf]

@[simp] theorem extent_afterRle : (afterRle s sequence).extent = s.extent := by simp [afterRle]

/-- The state after an RLE and the RLD that reads its stream. -/
def afterRldRle (s : State) (sequence : List (BitVec 16)) : State :=
  afterRld (afterRle s sequence) (rleEncode sequence)

@[simp] theorem err_afterRldRle : (afterRldRle s sequence).err = s.err := by
  simp [afterRldRle, afterRld, afterRle]

@[simp] theorem extent_afterRldRle : (afterRldRle s sequence).extent = s.extent := by
  simp [afterRldRle, afterRld]

/-- RLD completes on the stream that RLE wrote. -/
theorem exec_rld_afterRle (hs : s.err = none) (h16 : s.n ≤ 16) (hc : s.z.cells s.extent = some sequence) :
    exec .rld (afterRle s sequence) = .next (afterRldRle s sequence) :=
  exec_rld hs (streamSource_afterRle h16 hc) ((countSum_of_cells hc).trans extent_afterRle.symm)

theorem cells_afterRldRle (hc : s.z.cells s.extent = some sequence) :
    (afterRldRle s sequence).z.cells (afterRldRle s sequence).extent = some sequence := by
  rw [extent_afterRldRle]
  exact (Buffer.cells_congr fun k _ => get_afterRld_afterRle hc k).trans hc

/-- The lossless middle of both chains: what the scanner and the coder store, they read back (R105, R116). -/
theorem chainOk_zigzag_runLength (unit : Dct) (hs : s.err = none) (h16 : s.n ≤ 16)
    (hfull : s.q.full s.extent = true) : ∃ t u : State, ChainOk unit [.zzf, .rle] s t ∧ t.q = s.q ∧
      ChainOk unit [.rld, .zzu] t u ∧ u.err = none ∧ u.n = s.n ∧ ∀ k, u.q.get k = s.q.get k := by
  obtain ⟨matrix, hmatrix⟩ := Buffer.full_iff_cells.mp hfull
  obtain ⟨sequence, hsequence⟩ := Buffer.full_iff_cells.mp (full_afterZzf hmatrix)
  have hr : (afterZzf s matrix).err = none := err_afterZzf.trans hs
  have hc : (afterZzf s matrix).z.cells (afterZzf s matrix).extent = some sequence := by rwa [extent_afterZzf]
  have hzzu := exec_zzu (err_afterRldRle.trans hr) (cells_afterRldRle hc)
  have hq : (afterZzu (afterRldRle (afterZzf s matrix) sequence) sequence).q =
      (afterZzu (afterZzf s matrix) sequence).q := by
    simp [afterZzu, afterRldRle, afterRld, afterRle]
  refine ⟨_, _, ⟨_, exec_zzf hs hmatrix, rfl, _, exec_rle hr hc, rfl, rfl⟩, ?_,
    ⟨_, exec_rld_afterRle hr h16 hc, rfl, _, hzzu, rfl, rfl⟩, ?_, ?_, fun k => ?_⟩
  · simp [afterRle, afterZzf]
  · simpa [afterZzu] using hs
  · simp [afterZzu, afterRldRle, afterRld, afterRle, afterZzf]
  · rw [hq]
    exact get_afterZzu_afterZzf hmatrix hsequence k

end Lossless

variable {unit : Dct}

/-- The first three commands of the encode chain take a flat block to its exact coefficients (R82, R92). -/
theorem chainOk_transform_quantize (hs : s.err = none) (h1 : 1 ≤ s.n) (h16 : s.n ≤ 16)
    (htol : unit.tol * max 1 (s.n * v.toNat : ℚ) < 1 / 2) (hflat : ∀ k < s.extent, s.p.get k = some v) :
    ∃ t : State, ChainOk unit [.ldpx, .fdct, .qnt] s t ∧ t.err = none ∧ t.n = s.n ∧ HoldsDcTerm t.q s.n v := by
  obtain ⟨samples, hsamples⟩ := Buffer.full_iff_cells.mp (Buffer.full_of_forall_get fun k hk => ⟨v, hflat k hk⟩)
  have hx := holdsIntegers_afterLdpx hsamples hflat
  obtain ⟨cells, hcells⟩ := hx.exists_cells
  have hround (k : Nat) (hk : k < s.n * s.n) := rhaz_fdct_flat h1 h16 htol hx hcells hk
  have hfdct := fdctWith_ok (unit := unit) (s := afterLdpx s samples) hs hcells (hx.all_transformable hcells)
  have hc := cells_afterFdct unit (afterLdpx s samples) cells
  have hfinite := all_finite_resultCells fun k hk => (hround k hk).1
  have hqnt := exec_qnt (s := afterFdct unit (afterLdpx s samples) cells) hs hc hfinite
  refine ⟨_, ⟨_, exec_ldpx hs hsamples, rfl, _, hfdct, rfl, _, hqnt, rfl, rfl⟩, hs, rfl, fun k hk => ?_⟩
  exact ⟨_, get_afterQnt (s := afterFdct _ _ _) hc hk (get_fill_resultCells s.f _ hk),
    toInt_quantizeCell_of_rhaz h16 (hround k hk).2⟩

/-- The last three commands of the decode chain take the coefficients of a flat block back to it (R89, R120). -/
theorem chainOk_dequantize_transform (hs : s.err = none) (h1 : 1 ≤ s.n) (h16 : s.n ≤ 16)
    (htol : unit.tol * max 1 (s.n * v.toNat : ℚ) < 1 / 2) (hq : HoldsDcTerm s.q s.n v) :
    ∃ t : State, ChainOk unit [.dqt, .idct, .stpx] s t ∧ ∀ k < s.extent, t.p.get k = some v := by
  obtain ⟨integers, hintegers⟩ := Buffer.full_iff_cells.mp hq.full
  have hf := holdsIntegers_afterDqt hintegers hq
  obtain ⟨cells, hcells⟩ := hf.exists_cells
  have hround (k : Nat) (hk : k < s.n * s.n) := rhaz_idct_dcTerm h1 h16 htol hf hcells hk
  have hidct := idctWith_ok (unit := unit) (s := afterDqt s integers) hs hcells (hf.all_transformable hcells)
  have hc := cells_afterIdct unit (afterDqt s integers) cells
  have hfinite := all_finite_resultCells fun k hk => (hround k hk).1
  have hstpx := exec_stpx (s := afterIdct unit (afterDqt s integers) cells) hs hc hfinite
  refine ⟨_, ⟨_, exec_dqt hs hintegers, rfl, _, hidct, rfl, _, hstpx, rfl, rfl⟩, fun k hk => ?_⟩
  have hsample := Buffer.get_fill_map s.p realToSample hc hk (get_fill_resultCells s.x _ hk)
  exact hsample.trans (congrArg some (realToSample_of_rhaz (hround k hk).2))

end Chains

end Sys2Proof.Machine

/-! # The statement of the flat blocks -/

namespace Sys2Proof.Proofs

open Sys2Proof.Machine Sys2Proof.Claims

/-- Settles O60: on a flat block rounding makes both transforms exact; the scanner and the coder lose nothing. -/
theorem flatBlocksSurviveBothChains : Obligations.FlatBlocksSurviveBothChains := by
  intro unit s v hs h1 h16 hflat htol
  push_cast at htol
  obtain ⟨r, hquantized, hr, hrn, hrq⟩ := chainOk_transform_quantize hs h1 h16 htol hflat
  have hfull : r.q.full r.extent = true := by rw [State.extent, hrn]; exact hrq.full
  obtain ⟨t, u, hstored, htq, hread, hu, hun, huq⟩ := chainOk_zigzag_runLength unit hr (hrn ▸ h16) hfull
  have hn : s.n = u.n := (hun.trans hrn).symm
  have hudc : HoldsDcTerm u.q s.n v := fun k hk => (huq k).symm ▸ hrq k hk
  have hextent : s.extent = u.extent := congrArg (fun n => n * n) hn
  rw [hn] at h1 h16 htol hudc
  obtain ⟨w, hback, hp⟩ := chainOk_dequantize_transform hu h1 h16 htol hudc
  refine ⟨t, w, chainOk_append hquantized hstored, chainOk_append hread hback, htq ▸ hrq, ?_⟩
  rwa [hextent]

end Sys2Proof.Proofs

/-! # The checks and the tiles of a pass -/

namespace Sys2Proof.Machine

/-! ### The shape and the offset check -/

theorem encodePass_of_shape_error {r : Raster} {n : Int} (h : shapeOk n r.width r.height = false) (s : State) :
    encodePass r n s = .failed .shape s := by
  rw [encodePass, h]; rfl

theorem decodePass_of_shape_error {image : EncodedImage} (h : shapeOk image.n image.w image.h = false) (s : State) :
    decodePass image s = .failed .shape s := by
  rw [decodePass, h]; rfl

theorem decodeBlock_of_offset_error {image : EncodedImage} {block : EncodedBlock} (h : offsetOk image block = false)
    (out : Raster) (s : State) : decodeBlock image out block s = .failed .offset s := by
  rw [decodeBlock, h]; rfl

/-! ### The tile order -/

/-- A tile's offset is a pair of multiples of N, one for each column and each row of tiles (R125). -/
theorem mem_tiles {n w h : Nat} {c : Nat × Nat} :
    c ∈ tiles n w h ↔ ∃ i < w / n, ∃ j < h / n, (i * n, j * n) = c := by
  simp [tiles]

theorem length_tiles (n w h : Nat) : (tiles n w h).length = w / n * (h / n) := by
  simp [tiles, List.length_flatMap]

/-- The multiples of N below a multiple of N. -/
theorem exists_mul_eq_iff {n w x : Nat} (hn : 1 ≤ n) (hw : n ∣ w) : (∃ i < w / n, i * n = x) ↔ n ∣ x ∧ x < w := by
  have hlt (i : Nat) : i < w / n ↔ i * n < w := Nat.lt_div_iff_mul_lt_of_dvd (by omega) hw
  constructor
  · rintro ⟨i, hi, rfl⟩
    exact ⟨Nat.dvd_mul_left n i, (hlt i).mp hi⟩
  · rintro ⟨⟨i, rfl⟩, hx⟩
    exact ⟨i, (hlt i).mpr (by rwa [Nat.mul_comm]), Nat.mul_comm i n⟩

/-- The tiles cover the raster's multiples of N (R125). -/
theorem mem_tiles_iff {n w h x y : Nat} (hn : 1 ≤ n) (hw : n ∣ w) (hh : n ∣ h) :
    (x, y) ∈ tiles n w h ↔ n ∣ x ∧ n ∣ y ∧ x < w ∧ y < h := by
  have hx := exists_mul_eq_iff (x := x) hn hw
  have hy := exists_mul_eq_iff (x := y) hn hh
  rw [mem_tiles]
  constructor
  · rintro ⟨i, hi, j, hj, hc⟩
    obtain ⟨hix, hjy⟩ := Prod.mk.inj hc
    obtain ⟨hdx, hxw⟩ := hx.mp ⟨i, hi, hix⟩
    obtain ⟨hdy, hyh⟩ := hy.mp ⟨j, hj, hjy⟩
    exact ⟨hdx, hdy, hxw, hyh⟩
  · rintro ⟨hdx, hdy, hxw, hyh⟩
    obtain ⟨i, hi, rfl⟩ := hx.mpr ⟨hdx, hxw⟩
    obtain ⟨j, hj, rfl⟩ := hy.mpr ⟨hdy, hyh⟩
    exact ⟨i, hi, j, hj, rfl⟩

/-- The columns of tiles ascend, and so do the tiles of each column (R125). -/
theorem pairwise_tiles {n : Nat} (hn : 1 ≤ n) (w h : Nat) :
    (tiles n w h).Pairwise fun c d => c.1 < d.1 ∨ c.1 = d.1 ∧ c.2 < d.2 := by
  have hmul {i j : Nat} (hij : i < j) : i * n < j * n := Nat.mul_lt_mul_of_pos_right hij hn
  refine List.pairwise_flatMap.mpr ⟨fun i _ => List.pairwise_map.mpr ?_, ?_⟩
  · exact List.pairwise_lt_range.imp fun hjk => .inr ⟨rfl, hmul hjk⟩
  · refine List.pairwise_lt_range.imp fun hij c hc d hd => ?_
    obtain ⟨_, _, rfl⟩ := List.mem_map.mp hc
    obtain ⟨_, _, rfl⟩ := List.mem_map.mp hd
    exact .inl (hmul hij)

end Sys2Proof.Machine

/-! # The statements of the checks and the tile order -/

namespace Sys2Proof.Proofs

open Sys2Proof.Machine Sys2Proof.Claims

/-- Settles O53: an offset is a column's and a row's multiple of N. -/
theorem tileOrder : Obligations.TileOrder :=
  ⟨fun n w h hn hw hh => ⟨length_tiles n w h, fun _ _ => mem_tiles_iff hn hw hh, pairwise_tiles hn w h⟩, rfl⟩

/-- Settles O54: the shape check asks for all of it, and a pass that fails it ends where it began. -/
theorem shapeErrorsTouchNothing : Obligations.ShapeErrorsTouchNothing := by
  refine ⟨fun r n s h => encodePass_of_shape_error ?_ s, fun image s h => decodePass_of_shape_error ?_ s⟩
  all_goals
    rw [← Bool.not_eq_true, shapeOk_iff]
    exact fun ⟨h1, h16, hw, hh, _⟩ => h ⟨h1, h16, hw, hh⟩

/-- Settles O56: the offset check asks for the contrary of each. -/
theorem badOffsetsAreRejected : Obligations.BadOffsetsAreRejected := by
  refine fun image out block s h => decodeBlock_of_offset_error ?_ out s
  rw [← Bool.not_eq_true, offsetOk_iff]
  omega

end Sys2Proof.Proofs

/-! # The error of a reconstructed tile

The inverse transform keeps the sum of squares, so coefficients off by at most 1/2 give a tile whose squared errors sum
to N²/4 at most (R86, R138); rounding and saturating to a sample add at most 1/2 (R92, R121). -/

namespace Sys2Proof.Machine

/-- The inverse transform preserves the sum of squares too (R86). -/
theorem sum_inverseExact_sq (n : Nat) (c : Nat → Nat → ℝ) :
    ∑ x ∈ Finset.range n, ∑ y ∈ Finset.range n, inverseExact n c x y ^ 2 =
      ∑ u ∈ Finset.range n, ∑ v ∈ Finset.range n, c u v ^ 2 := by
  rw [← sum_forwardExact_sq]
  refine Finset.sum_congr rfl fun u hu => Finset.sum_congr rfl fun v hv => ?_
  rw [forwardExact_inverseExact c (Finset.mem_range.mp hu) (Finset.mem_range.mp hv)]

/-- The entries of an N×N block, each off by at most 1/2, have squares that sum to N²/4 at most. -/
theorem sum_sq_le_of_abs_le_half {n : Nat} {d : Nat → Nat → ℝ} (h : ∀ u < n, ∀ v < n, |d u v| ≤ 1 / 2) :
    ∑ u ∈ Finset.range n, ∑ v ∈ Finset.range n, d u v ^ 2 ≤ (n : ℝ) ^ 2 * (1 / 4) := by
  have hentry : ∀ u ∈ Finset.range n, ∀ v ∈ Finset.range n, d u v ^ 2 ≤ 1 / 4 := fun u hu v hv => by
    obtain ⟨hlow, hhigh⟩ := abs_le.mp (h u (Finset.mem_range.mp hu) v (Finset.mem_range.mp hv))
    nlinarith
  calc _ ≤ ∑ _u ∈ Finset.range n, ∑ _v ∈ Finset.range n, (1 / 4 : ℝ) :=
        Finset.sum_le_sum fun u hu => Finset.sum_le_sum (hentry u hu)
    _ = (n : ℝ) ^ 2 * (1 / 4) := by
        simp only [Finset.sum_const, Finset.card_range, nsmul_eq_mul]
        ring

/-- One square of a block is at most the sum of all. -/
theorem sq_le_sum_sq {n x y : Nat} (d : Nat → Nat → ℝ) (hx : x < n) (hy : y < n) :
    d x y ^ 2 ≤ ∑ x ∈ Finset.range n, ∑ y ∈ Finset.range n, d x y ^ 2 :=
  calc d x y ^ 2 ≤ ∑ y ∈ Finset.range n, d x y ^ 2 :=
        Finset.single_le_sum (f := fun y => d x y ^ 2) (fun _ _ => sq_nonneg _) (Finset.mem_range.mpr hy)
    _ ≤ _ := Finset.single_le_sum (f := fun x => ∑ y ∈ Finset.range n, d x y ^ 2)
        (fun _ _ => Finset.sum_nonneg fun _ _ => sq_nonneg _) (Finset.mem_range.mpr hx)

section Reconstruction

variable {n : Nat} {s c : Nat → Nat → ℝ}

/-- Coefficients off by at most 1/2 give a mean squared error of at most 1/4 (R138). -/
theorem sum_sq_error_le (h : ∀ u < n, ∀ v < n, |c u v - forwardExact n s u v| ≤ 1 / 2) :
    ∑ x ∈ Finset.range n, ∑ y ∈ Finset.range n, (inverseExact n c x y - s x y) ^ 2 ≤ (n : ℝ) ^ 2 * (1 / 4) :=
  calc _ = ∑ x ∈ Finset.range n, ∑ y ∈ Finset.range n,
        inverseExact n (fun u v => c u v - forwardExact n s u v) x y ^ 2 := by
        refine Finset.sum_congr rfl fun x hx => Finset.sum_congr rfl fun y hy => ?_
        rw [inverseExact_sub, inverseExact_forwardExact s (Finset.mem_range.mp hx) (Finset.mem_range.mp hy)]
    _ ≤ _ := (sum_inverseExact_sq n _).trans_le (sum_sq_le_of_abs_le_half h)

/-- No sample is then off by more than N/2 (R138). -/
theorem abs_error_le (h : ∀ u < n, ∀ v < n, |c u v - forwardExact n s u v| ≤ 1 / 2) {x y : Nat} (hx : x < n)
    (hy : y < n) : |inverseExact n c x y - s x y| ≤ n / 2 := by
  have hsq := (sq_le_sum_sq (fun x y => inverseExact n c x y - s x y) hx hy).trans (sum_sq_error_le h)
  refine abs_le_of_sq_le_sq (hsq.trans_eq ?_) (by positivity)
  ring

end Reconstruction

/-- Saturating brings a value no further from any value between the bounds. -/
theorem abs_sat_sub_le {i j lo hi : Int} (hlo : lo ≤ j) (hhi : j ≤ hi) : |sat i lo hi - j| ≤ |i - j| := by
  unfold sat
  rw [abs_le]
  have hdistance := abs_cases (i - j)
  split_ifs <;> omega

/-- A real and a sample e apart: the sample that the real becomes is within e + 1/2 of it (R92, R121). -/
theorem abs_realToSample_sub_le {g : F64} {p : BitVec 8} {e : ℝ} (h : |(F64.val g : ℝ) - p.toNat| ≤ e) :
    |((realToSample g).toNat : ℝ) - p.toNat| ≤ e + 1 / 2 := by
  have hsat : |((realToSample g).toNat : Int) - p.toNat| ≤ |rhaz (F64.val g) - p.toNat| := by
    rw [toNat_realToSample]
    exact abs_sat_sub_le (by omega) (by omega)
  have hsample : |((realToSample g).toNat : ℝ) - p.toNat| ≤ |(rhaz (F64.val g) : ℝ) - p.toNat| := by
    exact_mod_cast hsat
  have hround : |(rhaz (F64.val g) : ℝ) - F64.val g| ≤ 1 / 2 := by
    simpa using (Rat.cast_le (K := ℝ)).mpr (abs_rhaz_sub_le (F64.val g))
  linarith [abs_sub_le (rhaz (F64.val g) : ℝ) (F64.val g) p.toNat]

end Sys2Proof.Machine

/-! # The statement of the reconstruction error -/

namespace Sys2Proof.Proofs

open Sys2Proof.Machine

/-- Settles O29: the inverse transform preserves the sum of squares, and STPX adds its rounding. -/
theorem reconstructionErrorBound : Obligations.ReconstructionErrorBound := by
  refine fun n s c _ h => ⟨sum_sq_error_le h, fun x hx y hy => ⟨abs_error_le h hx hy, fun p g hp hg => ?_⟩⟩
  refine abs_realToSample_sub_le ?_
  rw [hg, ← hp]
  exact abs_error_le h hx hy

end Sys2Proof.Proofs

/-! # The transactions of a pass

What one transaction of a pass does and where a run of them ends (R136), and what the runs of cell writes and of cell
reads do that load and unload a tile (R126, R132). -/

namespace Sys2Proof.Machine

open Sys2Proof.Claims

/-! ### One transaction -/

section Transact

variable {e : HostEvent} {s t : State}

/-- A transaction is answered; the reset line is none (R8, R161). -/
theorem perform_answers (he : e ≠ .hardReset) (s : State) :
    ∃ t a, perform e s = .next t ∧ t.answers = a :: s.answers := by
  cases e with
  | read a =>
    rcases hostRead_cases a s with ⟨d, hd⟩ | ⟨r, -, hr⟩
    · exact ⟨_, _, congrArg Host.Outcome.next hd, rfl⟩
    · exact ⟨_, _, congrArg Host.Outcome.next hr, rfl⟩
  | write a d =>
    obtain ⟨t, c, h, hanswers⟩ := hostWrite_answers a d s
    exact ⟨t, _, h, hanswers⟩
  | hardReset => exact absurd rfl he

theorem transact_read {a : Addr} {d : Data} (h : hostRead a s = s.respondData d) :
    transact (.read a) s = .done [d] (s.respondData d) :=
  (transact_of_perform (e := .read a) (congrArg Host.Outcome.next h) rfl).trans (if_pos rfl)

theorem transact_write {a : Addr} {d : Data} (h : hostWrite a d s = .next t)
    (ha : t.answers = code .ok :: s.answers) : transact (.write a d) s = .done [] t :=
  (transact_of_perform (e := .write a d) h ha).trans (if_pos rfl)

theorem transact_failed {r : Response} (h : perform e s = .next t) (ha : t.answers = code r :: s.answers)
    (hr : r ≠ .ok) : transact e s = .failed (.response r) t :=
  (transact_of_perform h ha).trans (if_neg hr)

end Transact

/-! ### Where a pass ends -/

theorem endsAtFirstError_done {α : Type} (v : α) (s : State) : EndsAtFirstError s (Driven.done v s) := OkSince.refl s

theorem endsAtFirstError_transact {e : HostEvent} (he : e ≠ .hardReset) (s : State) :
    EndsAtFirstError s (transact e s) := by
  obtain ⟨t, a, h, ha⟩ := perform_answers he s
  rw [transact_of_perform h ha]
  split
  case isTrue hok => exact .of_cons ha hok
  case isFalse hcode =>
    have hdata : a.data = none := data_of_code_ne_ok h he ha hcode
    exact ⟨hcode, s, .refl s, by rw [ha, ← hdata]⟩

theorem endsAtFirstError_transactAll {events : List HostEvent} (h : .hardReset ∉ events) (s : State) :
    EndsAtFirstError s (transactAll events s) := by
  induction events generalizing s with
  | nil => exact endsAtFirstError_done [] s
  | cons e rest ih =>
    obtain ⟨he, hrest⟩ := not_or.mp (mt List.mem_cons.mpr h)
    exact (endsAtFirstError_transact (Ne.symm he) s).andThen fun _ t _ =>
      (ih hrest t).andThen fun _ u _ => endsAtFirstError_done _ u

/-- The first response other than `OK` ends a run, whatever transactions come after it (R136). -/
theorem transactAll_of_failed {before : List HostEvent} {e : HostEvent} {s t u : State} {data : List Data}
    {why : PassError} (hbefore : transactAll before s = .done data t) (he : transact e t = .failed why u)
    (after : List HostEvent) : transactAll (before ++ e :: after) s = .failed why u := by
  rw [transactAll_append, hbefore, Driven.andThen_done, transactAll_cons, he]
  rfl

theorem endsAtFirstError_runChain (chain : List Instr) (s : State) : EndsAtFirstError s (runChain chain s) :=
  endsAtFirstError_transactAll (by simp [commandEvent]) s

theorem endsAtFirstError_encodeTile (r : Raster) (n x0 y0 : Nat) (s : State) :
    EndsAtFirstError s (encodeTile r n x0 y0 s) :=
  (endsAtFirstError_transactAll (by simp [extractTile, wrCell]) s).andThen fun _ s1 _ =>
    (endsAtFirstError_runChain encb s1).andThen fun _ s2 _ =>
    (endsAtFirstError_transact (e := rdReg .rlen) nofun s2).andThen fun _ s3 _ =>
    (endsAtFirstError_transactAll (by simp [rdPairs, rdCell]) s3).andThen fun _ s4 _ =>
    endsAtFirstError_done _ s4

theorem endsAtFirstError_encodeTiles (r : Raster) (n : Nat) (offsets : List (Nat × Nat)) (s : State) :
    EndsAtFirstError s (encodeTiles r n offsets s) := by
  induction offsets generalizing s with
  | nil => exact endsAtFirstError_done [] s
  | cons c rest ih =>
    exact (endsAtFirstError_encodeTile r n c.1 c.2 s).andThen fun _ s1 _ =>
      (ih s1).andThen fun _ s2 _ => endsAtFirstError_done _ s2

theorem endsAtFirstError_encodePass (r : Raster) (n : Int) (s : State) :
    EndsAtFirstError s (encodePass r n s) := by
  unfold encodePass
  split
  case isTrue =>
    exact (endsAtFirstError_transact (e := setN n) nofun s).andThen fun _ s1 _ =>
      (endsAtFirstError_encodeTiles r n.toNat _ s1).andThen fun _ s2 _ => endsAtFirstError_done _ s2
  case isFalse => exact OkSince.refl s

theorem endsAtFirstError_decodeBlock (image : EncodedImage) (out : Raster) (block : EncodedBlock) (s : State) :
    EndsAtFirstError s (decodeBlock image out block s) := by
  have hload : .hardReset ∉ wrStream block.pairs := by simp [wrStream, wrCell, wrReg]
  unfold decodeBlock
  split_ifs
  · exact OkSince.refl s
  · exact OkSince.refl s
  · exact OkSince.refl s
  · exact (endsAtFirstError_transactAll hload s).andThen fun _ s1 _ =>
      (endsAtFirstError_runChain decb s1).andThen fun _ s2 _ =>
      (endsAtFirstError_transactAll (by simp [rdCells, rdCell]) s2).andThen fun _ s3 _ => endsAtFirstError_done _ s3

theorem endsAtFirstError_decodeBlocks (image : EncodedImage) (blocks : List EncodedBlock) (out : Raster) (s : State) :
    EndsAtFirstError s (decodeBlocks image blocks out s) := by
  induction blocks generalizing out s with
  | nil => exact endsAtFirstError_done out s
  | cons block rest ih => exact (endsAtFirstError_decodeBlock image out block s).andThen fun out' t _ => ih out' t

theorem endsAtFirstError_decodePass (image : EncodedImage) (s : State) :
    EndsAtFirstError s (decodePass image s) := by
  unfold decodePass
  split
  case isTrue =>
    exact (endsAtFirstError_transact (e := setN image.n) nofun s).andThen fun _ s1 _ =>
      endsAtFirstError_decodeBlocks image _ _ s1
  case isFalse => exact OkSince.refl s

/-! ### Writes of cells -/

/-- A write of a mapped cell with the port image of a value is accepted (R50, R51, R72). -/
theorem transact_wrCell {s : State} {b : BufId} {k : Nat} {value : Int} {v : BitVec b.width} (h256 : k < 256)
    (hk : k < s.limit b) (hv : BitVec.ofInt 64 value = portImage b v) :
    transact (wrCell b k value) s = .done [] ((s.setBuffer b ((s.buffer b).set k v)).respond .ok) := by
  obtain ⟨-, -, -, -, -, hanswers⟩ := s.setBuffer_registers b ((s.buffer b).set k v)
  have hcell : (BitVec.ofNat 8 k).toNat = k := by rw [BitVec.toNat_ofNat, Nat.mod_eq_of_lt h256]
  refine transact_write ?_ (congrArg _ hanswers)
  rw [hostWrite_cellAddress, hcell, writeCell_value hk (hv ▸ ofPort_portImage b v)]

/-- The datum of a sample is its port image (R42). -/
theorem ofInt_toNat_eq_portImage (v : BitVec 8) : BitVec.ofInt 64 v.toNat = portImage .p v := by
  rw [BitVec.ofInt_natCast, BitVec.ofNat_toNat]; rfl

/-- A run of sample writes inside the extent is accepted and writes `P` alone. -/
theorem transactAll_wrSamples {s : State} {cells : List (Nat × BitVec 8)} (hn : s.n ≤ 16)
    (hcells : ∀ c ∈ cells, c.1 < s.extent) :
    ∃ t : State, transactAll (cells.map fun c => wrCell .p c.1 c.2.toNat) s = .done [] t ∧ OkSince s t ∧
      t.p = s.p.writes cells ∧ t = { s with p := t.p, answers := t.answers } := by
  induction cells generalizing s with
  | nil => exact ⟨s, rfl, .refl s, rfl, rfl⟩
  | cons c rest ih =>
    obtain ⟨hc, hrest⟩ := List.forall_mem_cons.mp hcells
    have h256 : c.1 < 256 := hc.trans_le (Nat.mul_le_mul hn hn)
    obtain ⟨t, ht, hok, hp, hframe⟩ := ih (s := (s.setP (s.p.set c.1 c.2)).respond .ok) hn hrest
    refine ⟨t, ?_, (OkSince.of_cons rfl rfl).trans hok, hp, hframe⟩
    rw [List.map_cons, transactAll_cons, transact_wrCell (b := .p) h256 hc (ofInt_toNat_eq_portImage c.2),
      Driven.andThen_done]
    exact congrArg (Driven.andThen · _) ht

/-! ### Extraction -/

/-- The cells of `P` that an extraction writes, each with its sample (R126). -/
def tileCells (r : Raster) (n x0 y0 : Nat) : List (Nat × BitVec 8) :=
  (tilePositions n).map fun c => (idx n c.1 c.2, r.sample (x0 + c.1) (y0 + c.2))

theorem extractTile_eq (r : Raster) (n x0 y0 : Nat) :
    extractTile r n x0 y0 = (tileCells r n x0 y0).map fun c => wrCell .p c.1 c.2.toNat := by
  rw [tileCells, List.map_map]; rfl

section TileCells

variable {r : Raster} {n x0 y0 : Nat}

theorem mem_tileCells {i j : Nat} (hi : i < n) (hj : j < n) :
    (idx n i j, r.sample (x0 + i) (y0 + j)) ∈ tileCells r n x0 y0 :=
  List.mem_map.mpr ⟨(i, j), mem_tilePositions.mpr ⟨hi, hj⟩, rfl⟩

theorem tileCells_lt : ∀ c ∈ tileCells r n x0 y0, c.1 < n * n := by
  refine List.forall_mem_map.mpr fun c hc => ?_
  obtain ⟨hi, hj⟩ := mem_tilePositions.mp hc
  exact idx_lt hi hj

theorem nodup_tileCells : ((tileCells r n x0 y0).map Prod.fst).Nodup := by
  rw [tileCells, List.map_map]
  refine (nodup_tilePositions n).map_on fun c hc d hd h => ?_
  obtain ⟨h1, h2⟩ := idx_inj (mem_tilePositions.mp hc).1 (mem_tilePositions.mp hd).1 h
  exact Prod.ext h1 h2

end TileCells

/-- An extraction is accepted, loads the tile and changes nothing else of the engine (R126). -/
theorem transactAll_extractTile (r : Raster) (x0 y0 : Nat) {s : State} (hn : s.n ≤ 16) :
    ∃ t : State, transactAll (extractTile r s.n x0 y0) s = .done [] t ∧ OkSince s t ∧
      (∀ i < s.n, ∀ j < s.n, t.p.get (idx s.n i j) = some (r.sample (x0 + i) (y0 + j))) ∧
      (∀ k, s.extent ≤ k → t.p.get k = s.p.get k) ∧ t = { s with p := t.p, answers := t.answers } := by
  rw [extractTile_eq]
  obtain ⟨t, ht, hok, hp, hframe⟩ := transactAll_wrSamples (cells := tileCells r s.n x0 y0) hn tileCells_lt
  refine ⟨t, ht, hok, fun i hi j hj => ?_, fun k hk => ?_, hframe⟩
  · rw [hp, Buffer.get_writes_mem s.p nodup_tileCells (mem_tileCells hi hj)]
  · rw [hp, Buffer.get_writes_beyond s.p tileCells_lt hk]

end Sys2Proof.Machine

/-! # The statements of the transactions -/

namespace Sys2Proof.Proofs

open Sys2Proof.Machine Sys2Proof.Claims

/-- Settles O57: every transaction of a pass is answered, so each part of a pass ends at its first error. -/
theorem passesEndAtTheFirstError : Obligations.PassesEndAtTheFirstError :=
  ⟨fun _ after _ _ _ _ _ _ hbefore hperform ha hr =>
    transactAll_of_failed hbefore (transact_failed hperform ha hr) after,
    endsAtFirstError_encodePass, endsAtFirstError_decodePass⟩

/-- Settles O55: the cells of a tile are those of the extent, each written once. -/
theorem extractionLoadsTheTile : Obligations.ExtractionLoadsTheTile := by
  intro r x0 y0 s _ h16
  obtain ⟨t, ht, -, htile, hbeyond, hframe⟩ := transactAll_extractTile r x0 y0 h16
  exact ⟨t, ht, htile, hbeyond, hframe⟩

end Sys2Proof.Proofs

/-! # The encode pass

From an engine that is not locked every part of the pass completes: the samples of a tile are accepted, no command of
the chain can fail on them, and the stream that `RLE` leaves is read back whole (R130, R131). -/

namespace Sys2Proof.Machine

open Sys2Proof.Claims

/-! ### The engine between the parts of a pass -/

/-- An engine that a pass over blocks of size N can go on with: not locked, its block size N. -/
def Ready (n : Nat) (s : State) : Prop := s.err = none ∧ s.n = n

theorem Ready.errField_eq_zero {n : Nat} {s : State} (h : Ready n s) : errField s = 0 := by
  rw [errField, h.1]

theorem transact_setN {n : Int} (h1 : 1 ≤ n) (h16 : n ≤ 16) {s : State} (hs : s.err = none) :
    ∃ t : State, transact (setN n) s = .done [] t ∧ OkSince s t ∧ Ready n.toNat t := by
  have hd : (BitVec.ofInt 64 n).toNat = n.toNat := by rw [BitVec.toNat_ofInt]; omega
  have hwrite : hostWrite Reg.bsize.address (BitVec.ofInt 64 n) s =
      .next ((s.setBsize ((BitVec.ofInt 64 n).setWidth 5)).respond .ok) := by
    rw [hostWrite_address, writeReg, writeBsize_ok (by omega) (by omega)]
  refine ⟨_, transact_write hwrite rfl, .of_cons rfl rfl, hs, ?_⟩
  exact (toNat_setWidth_of_lt (by omega)).trans hd

/-! ### Commands -/

/-- A script line with a command performs the command (R72, R75). -/
theorem transact_commandEvent {i : Instr} {s t : State} (h : exec i s = .next t)
    (ha : t.answers = code .ok :: s.answers) : transact (commandEvent i) s = .done [] t := by
  have hword : performWord (encode i) s = exec i s := by rw [performWord, decode_encode]
  exact transact_write ((hostWrite_word (encode i) s).trans (hword.trans h)) ha

theorem execWith_dct (i : Instr) (s : State) : execWith Config.dct i s = exec i s := by cases i <;> rfl

/-- A chain of commands that complete is a run of the machine's own. -/
theorem runChain_of_chainOk {chain : List Instr} {s t : State} (h : ChainOk Config.dct chain s t) :
    runChain chain s = .done [] t ∧ OkSince s t := by
  induction chain generalizing s with
  | nil => cases h; exact ⟨rfl, .refl _⟩
  | cons i rest ih =>
    obtain ⟨u, hexec, ha, hrest⟩ := h
    rw [execWith_dct] at hexec
    obtain ⟨hrun, hok⟩ := ih hrest
    refine ⟨?_, (OkSince.of_cons ha rfl).trans hok⟩
    rw [runChain, List.map_cons, transactAll_cons, transact_commandEvent hexec ha, Driven.andThen_done]
    exact congrArg (Driven.andThen · _) hrun

/-! ### The encode chain -/

theorem Conforms.all_finite {tol m : ℚ} {n : Nat} {exact : Nat → Nat → ℝ} {g : Nat → F64}
    (h : Conforms tol n exact m g) : (resultCells (n * n) g).all F64.finite = true :=
  all_finite_resultCells fun k hk => by
    obtain ⟨a, ha, b, hb, rfl⟩ := exists_idx_eq hk
    exact (h a ha b hb).1

section EncodeChain

variable {unit : Dct} {s : State}

/-- The first three commands complete on every tile: a sample is a real that FDCT accepts, and its results are finite
(R80, R118). -/
theorem chainOk_quantize (hs : s.err = none) (h1 : 1 ≤ s.n) (h16 : s.n ≤ 16) (hfull : s.p.full s.extent = true) :
    ∃ t : State, ChainOk unit [.ldpx, .fdct, .qnt] s t ∧ Ready s.n t ∧ t.q.full t.extent = true := by
  obtain ⟨samples, hsamples⟩ := Buffer.full_iff_cells.mp hfull
  have hx := cells_afterLdpx hsamples
  have hfit : (samples.map sampleToReal).all F64.transformable = true := by
    simp [transformable_sampleToReal]
  have hfdct := fdctWith_ok (unit := unit) (s := afterLdpx s samples) hs hx hfit
  have hfinite := (unit.fdct_conforms s.n _ h1 h16 (Buffer.cells_length hx) hfit).all_finite
  have hf := cells_afterFdct unit (afterLdpx s samples) (samples.map sampleToReal)
  have hqnt := exec_qnt (s := afterFdct unit (afterLdpx s samples) _) hs hf hfinite
  exact ⟨_, ⟨_, exec_ldpx hs hsamples, rfl, _, hfdct, rfl, _, hqnt, rfl, rfl⟩, ⟨hs, rfl⟩,
    Buffer.full_iff_cells.mpr ⟨_, cells_afterQnt hf⟩⟩

/-- The scanner and the coder leave `ERR` and `BSIZE` alone. -/
theorem Ready.afterRle_afterZzf {n : Nat} (h : Ready n s) (matrix sequence : List (BitVec 16)) :
    Ready n (afterRle (afterZzf s matrix) sequence) := by
  obtain ⟨hs, hn⟩ := h
  exact ⟨by simpa [afterRle, afterZzf] using hs, by simpa [afterRle, afterZzf] using hn⟩

/-- The stream that RLE leaves can be read back (R108, R111). -/
theorem stream_afterRle {sequence : List (BitVec 16)} (h16 : s.n ≤ 16) (hc : s.z.cells s.extent = some sequence) :
    (afterRle s sequence).rlen.toNat ≤ 256 ∧ streamSource (afterRle s sequence) = .ok (rleEncode sequence) := by
  have hstorable := storable_of_cells h16 hc
  refine ⟨?_, streamSource_afterRle h16 hc⟩
  rw [afterRle, State.respond_rlen, toNat_rlen_setStream s hstorable]
  exact hstorable.1

/-- The encode chain completes on every tile and leaves the stream of some N² integers (R130). -/
theorem chainOk_encb (hs : s.err = none) (h1 : 1 ≤ s.n) (h16 : s.n ≤ 16) (hfull : s.p.full s.extent = true) :
    ∃ (t : State) (sequence : List (BitVec 16)), ChainOk unit encb s t ∧ Ready s.n t ∧ t.rlen.toNat ≤ 256 ∧
      streamSource t = .ok (rleEncode sequence) ∧ sequence.length = s.n * s.n := by
  obtain ⟨t, hchain, hready, hq⟩ := chainOk_quantize (unit := unit) hs h1 h16 hfull
  have ⟨ht, htn⟩ := hready
  obtain ⟨matrix, hmatrix⟩ := Buffer.full_iff_cells.mp hq
  obtain ⟨sequence, hsequence⟩ := Buffer.full_iff_cells.mp (full_afterZzf hmatrix)
  have hz : (afterZzf t matrix).z.cells (afterZzf t matrix).extent = some sequence := by rwa [extent_afterZzf]
  have h16z : (afterZzf t matrix).n ≤ 16 := htn.trans_le h16
  obtain ⟨hlen, hsource⟩ := stream_afterRle h16z hz
  refine ⟨_, sequence, chainOk_append hchain ⟨_, exec_zzf ht hmatrix, rfl, _, exec_rle ht hz, rfl, rfl⟩,
    hready.afterRle_afterZzf matrix sequence, hlen, hsource, ?_⟩
  rw [Buffer.cells_length hsequence, State.extent, htn]

end EncodeChain

/-! ### Reads of cells -/

/-- The cell is mapped and holds a value. -/
def Readable (s : State) (c : BufId × Nat) : Prop :=
  c.2 < 256 ∧ c.2 < s.limit c.1 ∧ ((s.buffer c.1).get c.2).isSome = true

/-- The data that a read of the cell answers (R42); of an empty cell no read has any. -/
def cellData (s : State) (c : BufId × Nat) : Data := portImage c.1 (((s.buffer c.1).get c.2).getD 0)

@[simp] theorem State.respondData_buffer (s : State) (d : Data) (b : BufId) :
    (s.respondData d).buffer b = s.buffer b := by cases b <;> rfl

theorem readable_respondData {s : State} {d : Data} {c : BufId × Nat} :
    Readable (s.respondData d) c ↔ Readable s c := by
  rw [Readable, State.respondData_buffer]; exact Iff.rfl

theorem cellData_respondData (s : State) (d : Data) : cellData (s.respondData d) = cellData s := by
  funext c
  rw [cellData, State.respondData_buffer, cellData]

theorem cellData_of_get {s : State} {b : BufId} {k : Nat} {v : BitVec b.width} (h : (s.buffer b).get k = some v) :
    cellData s (b, k) = portImage b v := by
  rw [cellData, h, Option.getD_some]

theorem transact_rdCell {s : State} {c : BufId × Nat} (h : Readable s c) :
    transact (rdCell c.1 c.2) s = .done [cellData s c] (s.respondData (cellData s c)) := by
  obtain ⟨h256, hk, hsome⟩ := h
  obtain ⟨v, hv⟩ := Option.isSome_iff_exists.mp hsome
  have hcell : (BitVec.ofNat 8 c.2).toNat = c.2 := by rw [BitVec.toNat_ofNat, Nat.mod_eq_of_lt h256]
  have hread : hostRead (c.1.address (BitVec.ofNat 8 c.2)) s = s.respondData (cellData s c) := by
    rw [hostRead_cellAddress, hcell, readCell_value hk hv, cellData_of_get hv]
  exact transact_read hread

/-- A run of reads of readable cells answers their data in order and changes nothing (R52, R53). -/
theorem transactAll_rdCell {s : State} {cells : List (BufId × Nat)} (h : ∀ c ∈ cells, Readable s c) :
    ∃ t : State, transactAll (cells.map fun c => rdCell c.1 c.2) s = .done (cells.map (cellData s)) t ∧
      OkSince s t ∧ t = { s with answers := t.answers } := by
  induction cells generalizing s with
  | nil => exact ⟨s, rfl, .refl s, rfl⟩
  | cons c rest ih =>
    obtain ⟨hc, hrest⟩ := List.forall_mem_cons.mp h
    obtain ⟨t, ht, hok, hframe⟩ := ih (s := s.respondData (cellData s c)) fun d hd =>
      readable_respondData.mpr (hrest d hd)
    refine ⟨t, ?_, (OkSince.of_cons rfl rfl).trans hok, hframe⟩
    rw [cellData_respondData] at ht
    rw [List.map_cons, transactAll_cons, transact_rdCell hc, Driven.andThen_done, ht]
    rfl

/-! ### The stream at the port -/

/-- A stream as the host holds it, all integers (R129). -/
def hostPairs (pairs : List (BitVec 16 × Nat)) : List (Int × Int) := pairs.map fun c => (c.1.toInt, (c.2 : Int))

/-- The data of alternate reads of values and counts, by pairs. -/
theorem pairsOf_flatMap {α : Type} (l : List α) (f g : α → Data) :
    pairsOf (l.flatMap fun j => [f j, g j]) = l.map fun j => ((f j).toInt, ((g j).toNat : Int)) := by
  induction l with
  | nil => rfl
  | cons j rest ih => exact congrArg (_ :: ·) ih

/-- The cells that hold the first `count` pairs of a stream, value before count. -/
def streamCells (count : Nat) : List (BufId × Nat) := (List.range count).flatMap fun j => [(.rv, j), (.rc, j)]

theorem rdPairs_eq (count : Nat) : rdPairs count = (streamCells count).map fun c => rdCell c.1 c.2 := by
  rw [streamCells, List.map_flatMap]; rfl

section Stream

variable {s : State} {pairs : List (BitVec 16 × Nat)}

theorem readable_of_streamSource (hsource : streamSource s = .ok pairs) (hlen : s.rlen.toNat ≤ 256) :
    ∀ c ∈ streamCells s.rlen.toNat, Readable s c := by
  obtain ⟨hvalues, hcounts⟩ := cells_of_streamSource hsource
  intro c hc
  obtain ⟨j, hj, hc⟩ := List.mem_flatMap.mp hc
  rw [List.mem_range] at hj
  have h256 : j < 256 := by omega
  rcases List.mem_pair.mp hc with rfl | rfl
  · exact ⟨h256, h256, Buffer.full_iff.mp (Buffer.full_iff_cells.mpr ⟨_, hvalues⟩) j hj⟩
  · exact ⟨h256, h256, Buffer.full_iff.mp (Buffer.full_iff_cells.mpr ⟨_, hcounts⟩) j hj⟩

/-- The stream as its data says it: values sign-extended, counts zero-extended (R42). -/
theorem pairsOf_streamCells (hsource : streamSource s = .ok pairs) :
    pairsOf ((streamCells s.rlen.toNat).map (cellData s)) = hostPairs pairs := by
  obtain ⟨values, counts, hvalues, hcounts, rfl⟩ := streamSource_ok.mp hsource
  have hvlen := Buffer.cells_length hvalues
  have hclen := Buffer.cells_length hcounts
  rw [streamCells, List.map_flatMap]
  refine (pairsOf_flatMap _ (fun j => cellData s (.rv, j)) fun j => cellData s (.rc, j)).trans ?_
  refine List.ext_getElem (by simp [hostPairs, hvlen, hclen]) fun j hj _ => ?_
  rw [List.length_map, List.length_range] at hj
  have hv := cellData_of_get (b := .rv) (Buffer.get_of_cells hvalues (k := j) (by omega))
  have hc := cellData_of_get (b := .rc) (Buffer.get_of_cells hcounts (k := j) (by omega))
  simp only [hostPairs, List.getElem_map, List.getElem_range, List.getElem_zip, hv, hc]
  exact Prod.ext (toInt_portImage rfl _) (congrArg Nat.cast (toNat_portImage rfl _))

/-- The read of `RLEN` tells the host how many pairs to read (R130). -/
theorem transact_rdReg_rlen (s : State) : ∃ len : List Data, (len.map BitVec.toNat).sum = s.rlen.toNat ∧
    ∃ d, transact (rdReg .rlen) s = .done len (s.respondData d) := by
  refine ⟨[s.rlen.setWidth 64], ?_, _, transact_read (hostRead_address .rlen s)⟩
  rw [List.map_singleton, List.sum_singleton, toNat_setWidth_of_lt (by have := s.rlen.isLt; omega)]

/-- The reads of `RLEN` and of the pairs it counts (R130). -/
def readStream (s : State) : Driven (List Data) :=
  (transact (rdReg .rlen) s).andThen fun len t => transactAll (rdPairs (len.map BitVec.toNat).sum) t

/-- They give the host the whole stream. -/
theorem readStream_eq_done (hsource : streamSource s = .ok pairs) (hlen : s.rlen.toNat ≤ 256) :
    ∃ (data : List Data) (t : State), readStream s = .done data t ∧ OkSince s t ∧
      t = { s with answers := t.answers } ∧ pairsOf data = hostPairs pairs := by
  obtain ⟨len, hsum, d, hrlen⟩ := transact_rdReg_rlen s
  have hreadable : ∀ c ∈ streamCells s.rlen.toNat, Readable (s.respondData d) c := fun c hc =>
    readable_respondData.mpr (readable_of_streamSource hsource hlen c hc)
  obtain ⟨t, ht, hok, hframe⟩ := transactAll_rdCell hreadable
  rw [cellData_respondData] at ht
  refine ⟨_, t, ?_, (OkSince.of_cons rfl rfl).trans hok, hframe, pairsOf_streamCells hsource⟩
  rw [readStream, hrlen, Driven.andThen_done, hsum, rdPairs_eq, ht]

end Stream

/-! ### What a block of the image holds -/

/-- The pairs are the run-length code of N² integers of 16 bits. -/
def EncodesTile (n : Nat) (pairs : List (Int × Int)) : Prop :=
  ∃ sequence : List (BitVec 16), sequence.length = n * n ∧ pairs = hostPairs (rleEncode sequence)

section EncodesTile

variable {n : Nat} {pairs : List (Int × Int)}

theorem sum_snd_hostPairs (pairs : List (BitVec 16 × Nat)) :
    ((hostPairs pairs).map Prod.snd).sum = (countSum pairs : Int) := by
  induction pairs with
  | nil => rfl
  | cons c rest ih => rw [countSum_cons, Nat.cast_add, ← ih]; rfl

theorem canonical_hostPairs {pairs : List (BitVec 16 × Nat)} (h : Canonical pairs) : Canonical (hostPairs pairs) := by
  obtain ⟨hpos, hneighbours⟩ := h
  refine ⟨List.forall_mem_map.mpr fun c hc => Nat.one_le_cast.mpr (hpos c hc), (List.isChain_map _).mpr ?_⟩
  exact hneighbours.imp fun c d hne => mt BitVec.toInt_inj.mp hne

theorem EncodesTile.sum_eq (h : EncodesTile n pairs) : (pairs.map Prod.snd).sum = (n * n : Int) := by
  obtain ⟨sequence, hlen, rfl⟩ := h
  rw [sum_snd_hostPairs, countSum_rleEncode, hlen, Nat.cast_mul]

theorem EncodesTile.canonical (h : EncodesTile n pairs) : Canonical pairs := by
  obtain ⟨sequence, -, rfl⟩ := h
  exact canonical_hostPairs (canonical_rleEncode sequence)

theorem EncodesTile.bounds (h : EncodesTile n pairs) (h16 : n ≤ 16) :
    ∀ c ∈ pairs, -32768 ≤ c.1 ∧ c.1 ≤ 32767 ∧ c.2 ≤ 256 := by
  obtain ⟨sequence, hlen, rfl⟩ := h
  refine List.forall_mem_map.mpr fun c hc => ?_
  obtain ⟨hlow, hhigh⟩ := toInt_bounds c.1
  have hcount : c.2 ≤ 256 := (count_le_of_mem_rleEncode hc).trans (hlen.trans_le (Nat.mul_le_mul h16 h16))
  exact ⟨hlow, hhigh, Nat.cast_le_ofNat.mpr hcount⟩

end EncodesTile

/-! ### The parts of the pass -/

section Parts

variable {n : Nat} {s : State} (r : Raster)

/-- The encode of one tile: extraction, the chain, and the reads of the stream (R130). -/
theorem encodeTile_eq (n x0 y0 : Nat) (s : State) : encodeTile r n x0 y0 s =
    (transactAll (extractTile r n x0 y0) s).andThen fun _ s1 =>
    (runChain encb s1).andThen fun _ s2 =>
    (readStream s2).andThen fun data s3 =>
    .done { x := x0, y := y0, pairs := pairsOf data } s3 := by
  simp only [encodeTile, readStream, Driven.andThen_assoc]

/-- The encode of one tile succeeds and goes on with a ready engine (R130). -/
theorem encodeTile_succeeds (h1 : 1 ≤ n) (h16 : n ≤ 16) (hs : Ready n s) (x0 y0 : Nat) :
    ∃ (pairs : List (Int × Int)) (t : State),
      encodeTile r n x0 y0 s = .done { x := x0, y := y0, pairs := pairs } t ∧ OkSince s t ∧ Ready n t ∧
        EncodesTile n pairs := by
  obtain ⟨hunlocked, rfl⟩ := hs
  obtain ⟨s1, hload, hok1, htile, -, hframe1⟩ := transactAll_extractTile r x0 y0 h16
  have hn1 : s1.n = s.n := by rw [hframe1]; rfl
  have hs1 : s1.err = none := by rw [hframe1]; exact hunlocked
  have hfull : s1.p.full s1.extent = true := Buffer.full_of_forall_get fun k hk => by
    rw [State.extent, hn1] at hk
    obtain ⟨i, hi, j, hj, rfl⟩ := exists_idx_eq hk
    exact ⟨_, htile i hi j hj⟩
  obtain ⟨s2, sequence, hchain, ⟨hs2, hn2⟩, hlen, hsource, hsequence⟩ :=
    chainOk_encb hs1 (hn1 ▸ h1) (hn1 ▸ h16) hfull
  rw [hn1] at hn2 hsequence
  obtain ⟨hrun, hok2⟩ := runChain_of_chainOk hchain
  obtain ⟨data, t, hread, hok3, hframe2, hpairs⟩ := readStream_eq_done hsource hlen
  refine ⟨pairsOf data, t, ?_, (hok1.trans hok2).trans hok3, ⟨?_, ?_⟩, sequence, hsequence, hpairs⟩
  · rw [encodeTile_eq, hload, Driven.andThen_done, hrun, Driven.andThen_done, hread, Driven.andThen_done]
  · rw [hframe2]; exact hs2
  · rw [hframe2]; exact hn2

/-- The encode of a list of tiles succeeds, its blocks in the order of the tiles (R130, R131). -/
theorem encodeTiles_succeeds (h1 : 1 ≤ n) (h16 : n ≤ 16) (hs : Ready n s) (offsets : List (Nat × Nat)) :
    ∃ (blocks : List EncodedBlock) (t : State), encodeTiles r n offsets s = .done blocks t ∧ OkSince s t ∧
      Ready n t ∧ blocks.map (fun b => (b.x, b.y)) = offsets.map (fun c => ((c.1 : Int), (c.2 : Int))) ∧
      ∀ b ∈ blocks, EncodesTile n b.pairs := by
  induction offsets generalizing s with
  | nil => exact ⟨[], s, rfl, .refl s, hs, rfl, nofun⟩
  | cons c rest ih =>
    obtain ⟨pairs, t, htile, hok1, ht, hpairs⟩ := encodeTile_succeeds r h1 h16 hs c.1 c.2
    obtain ⟨blocks, u, hrest, hok2, hu, hoffsets, hblocks⟩ := ih ht
    refine ⟨{ x := c.1, y := c.2, pairs := pairs } :: blocks, u, ?_, hok1.trans hok2, hu, congrArg (_ :: ·) hoffsets,
      List.forall_mem_cons.mpr ⟨hpairs, hblocks⟩⟩
    rw [encodeTiles, htile, Driven.andThen_done, hrest, Driven.andThen_done]

theorem encodePass_succeeds {n : Int} (h1 : 1 ≤ n) (h16 : n ≤ 16) (hw : n ∣ r.width) (hh : n ∣ r.height)
    (hs : s.err = none) : ∃ (image : EncodedImage) (t : State), EncodeSucceeded r n s image t ∧
      ∀ b ∈ image.blocks, EncodesTile n.toNat b.pairs := by
  have hshape : shapeOk n r.width r.height = true :=
    shapeOk_iff.mpr ⟨h1, h16, hw, hh, Int.natCast_nonneg _, Int.natCast_nonneg _⟩
  obtain ⟨s1, hsize, hok1, hs1⟩ := transact_setN h1 h16 hs
  obtain ⟨blocks, t, hblocks, hok2, ht, hoffsets, hpairs⟩ :=
    encodeTiles_succeeds r (by omega) (by omega) hs1 (tiles n.toNat r.width r.height)
  refine ⟨{ n := n, w := r.width, h := r.height, blocks := blocks }, t,
    ⟨?_, hok1.trans hok2, ht.errField_eq_zero, rfl, rfl, rfl, hoffsets⟩, hpairs⟩
  rw [encodePass, if_pos hshape, hsize, Driven.andThen_done, hblocks, Driven.andThen_done]

end Parts

end Sys2Proof.Machine

/-! # The statement of the encode pass -/

namespace Sys2Proof.Proofs

open Sys2Proof.Machine Sys2Proof.Claims

/-- Settles O58: no part of the pass can fail, and each block is the run-length code of N² integers. -/
theorem encodePassAlwaysSucceeds : Obligations.EncodePassAlwaysSucceeds := by
  intro r n s hs h1 h16 hw hh
  obtain ⟨image, t, hsucceeded, hblocks⟩ := encodePass_succeeds r h1 h16 hw hh hs
  refine ⟨image, t, hsucceeded, fun b hb => ⟨?_, (hblocks b hb).canonical, (hblocks b hb).bounds (by omega)⟩⟩
  rw [EncodedBlock.total, (hblocks b hb).sum_eq, Int.toNat_of_nonneg (by omega)]

end Sys2Proof.Proofs

/-! # The decode pass

A well-formed block fits the port and the stream buffers, its stream decodes to N² integers of 16 bits, and from those
no command of the chain can fail (R112, R81, R87, R96). So every block is written, each over what is there (R135). -/

namespace Sys2Proof.Machine

open Sys2Proof.Claims

/-! ### Loading a stream -/

theorem Buffer.fill_concat {width : Nat} (b : Buffer width) (values : List (BitVec width)) (v : BitVec width) :
    b.fill (values ++ [v]) = (b.fill values).set values.length v := by
  unfold Buffer.fill Buffer.writes
  rw [List.length_append, List.length_singleton, List.range_succ, List.zip_append (by simp), List.foldl_append]
  rfl

/-- The data of a value of 16 bits is its port image in `RV` (R42). -/
theorem ofInt_eq_portImage_rv {v : Int} (hlow : -32768 ≤ v) (hhigh : v ≤ 32767) :
    BitVec.ofInt 64 v = portImage .rv (BitVec.ofInt 16 v) := by
  have hdata : (BitVec.ofInt 64 v).toInt = v := BitVec.toInt_ofInt_eq_self (by omega) (by omega) (by omega)
  have hcell : (BitVec.ofInt 16 v).toInt = v := BitVec.toInt_ofInt_eq_self (by omega) (by omega) (by omega)
  exact BitVec.eq_of_toInt_eq (hdata.trans (hcell.symm.trans (toInt_portImage (b := .rv) rfl _).symm))

theorem toNat_ofInt_count {c : Int} (h0 : 0 ≤ c) (hlt : c < 65536) : (BitVec.ofInt 16 c).toNat = c.toNat := by
  rw [BitVec.toNat_ofInt]
  omega

/-- The data of a count of 16 bits is its port image in `RC` (R42). -/
theorem ofInt_eq_portImage_rc {c : Int} (h0 : 0 ≤ c) (hlt : c < 65536) :
    BitVec.ofInt 64 c = portImage .rc (BitVec.ofInt 16 c) := by
  have hdata : (BitVec.ofInt 64 c).toNat = c.toNat := by rw [BitVec.toNat_ofInt]; omega
  have hcell := toNat_ofInt_count h0 hlt
  exact BitVec.eq_of_toNat_eq (hdata.trans (hcell.symm.trans (toNat_portImage (b := .rc) rfl _).symm))

/-- The pair of a block fits the cells of the stream buffers (R129). -/
def PairFits (c : Int × Int) : Prop := -32768 ≤ c.1 ∧ c.1 ≤ 32767 ∧ 0 ≤ c.2 ∧ c.2 < 65536

/-- A stream as the engine holds it. -/
def enginePairs (pairs : List (Int × Int)) : List (BitVec 16 × Nat) :=
  pairs.map fun c => (BitVec.ofInt 16 c.1, c.2.toNat)

/-- The writes of the pairs of a stream, value before count (R73). -/
def wrPairs (pairs : List (Int × Int)) : List HostEvent :=
  (pairs.mapIdx fun j c => [wrCell .rv j c.1, wrCell .rc j c.2]).flatten

section Load

variable {s : State} {pairs : List (Int × Int)}

/-- The values and counts of a stream that fits are accepted and written to the stream buffers alone. -/
theorem transactAll_wrPairs (hlen : pairs.length ≤ 256) (hfits : ∀ c ∈ pairs, PairFits c) :
    ∃ t : State, transactAll (wrPairs pairs) s = .done [] t ∧ OkSince s t ∧
      t.rv = s.rv.fill (pairs.map fun c => BitVec.ofInt 16 c.1) ∧
      t.rc = s.rc.fill (pairs.map fun c => BitVec.ofInt 16 c.2) ∧
      t = { s with rv := t.rv, rc := t.rc, answers := t.answers } := by
  induction pairs using List.reverseRecOn with
  | nil => exact ⟨s, rfl, .refl s, rfl, rfl, rfl⟩
  | append_singleton rest c ih =>
    obtain ⟨hrest, hc⟩ := List.forall_mem_append.mp hfits
    obtain ⟨hlow, hhigh, h0, hcount⟩ := hc c (List.mem_singleton_self c)
    rw [List.length_append, List.length_singleton] at hlen
    obtain ⟨t, ht, hok, hrv, hrc, hframe⟩ := ih (by omega) hrest
    have hk : rest.length < 256 := by omega
    refine ⟨((((t.setRv (t.rv.set rest.length (BitVec.ofInt 16 c.1))).respond .ok).setRc
      (t.rc.set rest.length (BitVec.ofInt 16 c.2))).respond .ok), ?_,
      hok.trans ((OkSince.of_cons rfl rfl).trans (OkSince.of_cons rfl rfl)), ?_, ?_, ?_⟩
    · rw [wrPairs, List.mapIdx_concat, List.flatten_append, transactAll_append, ← wrPairs, ht, Driven.andThen_done,
        List.flatten_singleton, transactAll_cons,
        transact_wrCell (b := .rv) hk hk (ofInt_eq_portImage_rv hlow hhigh), Driven.andThen_done, transactAll_cons,
        transact_wrCell (b := .rc) hk hk (ofInt_eq_portImage_rc h0 hcount)]
      rfl
    · rw [List.map_append, List.map_singleton, Buffer.fill_concat, List.length_map, ← hrv]
      rfl
    · rw [List.map_append, List.map_singleton, Buffer.fill_concat, List.length_map, ← hrc]
      rfl
    · rw [hframe]; rfl

theorem transact_wrReg_rlen {len : Nat} (h : len ≤ 256) (s : State) : ∃ t : State,
    transact (wrReg .rlen len) s = .done [] t ∧ OkSince s t ∧ t.rlen.toNat = len ∧
      t = { s with rlen := t.rlen, answers := t.answers } := by
  have hd : (BitVec.ofInt 64 (len : Int)).toNat = len := by rw [BitVec.toNat_ofInt]; omega
  have hwrite : hostWrite Reg.rlen.address (BitVec.ofInt 64 len) s =
      .next ((s.setRlen ((BitVec.ofInt 64 len).setWidth 9)).respond .ok) := by
    rw [hostWrite_address, writeReg, writeRlen_ok (by omega)]
  refine ⟨_, transact_write hwrite rfl, .of_cons rfl rfl, ?_, rfl⟩
  exact (toNat_setWidth_of_lt (by omega)).trans hd

/-- A stream that fits is loaded as `RLD` reads it (R112, R132). -/
theorem transactAll_wrStream {n : Nat} (hlen : pairs.length ≤ 256) (hfits : ∀ c ∈ pairs, PairFits c)
    (hs : Ready n s) : ∃ t : State, transactAll (wrStream pairs) s = .done [] t ∧ OkSince s t ∧ Ready n t ∧
      streamSource t = .ok (enginePairs pairs) := by
  obtain ⟨t, ht, hok1, hrv, hrc, hframe1⟩ := transactAll_wrPairs (s := s) hlen hfits
  obtain ⟨u, hu, hok2, hrlen, hframe2⟩ := transact_wrReg_rlen hlen t
  have hready : Ready n u := by rw [hframe2, hframe1]; exact hs
  refine ⟨u, ?_, hok1.trans hok2, hready, streamSource_ok.mpr
    ⟨pairs.map fun c => BitVec.ofInt 16 c.1, pairs.map fun c => BitVec.ofInt 16 c.2, ?_, ?_, ?_⟩⟩
  · rw [wrStream, ← wrPairs, transactAll_append, ht, Driven.andThen_done, transactAll_cons, hu]
    rfl
  · have hrv' : u.rv = t.rv := by rw [hframe2]
    have hcells := Buffer.cells_fill s.rv (pairs.map fun c => BitVec.ofInt 16 c.1)
    rwa [List.length_map, ← hrv, ← hrv', ← hrlen] at hcells
  · have hrc' : u.rc = t.rc := by rw [hframe2]
    have hcells := Buffer.cells_fill s.rc (pairs.map fun c => BitVec.ofInt 16 c.2)
    rwa [List.length_map, ← hrc, ← hrc', ← hrlen] at hcells
  · rw [List.map_map, List.zip_map']
    refine List.map_congr_left fun c hc => Prod.ext rfl ?_
    obtain ⟨-, -, h0, hlt⟩ := hfits c hc
    exact (toNat_ofInt_count h0 hlt).symm

/-- The counts that the engine sums are those of the block. -/
theorem countSum_enginePairs (hfits : ∀ c ∈ pairs, PairFits c) :
    (countSum (enginePairs pairs) : Int) = (pairs.map Prod.snd).sum := by
  induction pairs with
  | nil => rfl
  | cons c rest ih =>
    obtain ⟨⟨-, -, h0, -⟩, hrest⟩ := List.forall_mem_cons.mp hfits
    rw [List.map_cons, List.sum_cons, ← ih hrest, enginePairs, List.map_cons, countSum_cons, Nat.cast_add,
      Int.toNat_of_nonneg h0]
    rfl

end Load

/-! ### The decode chain -/

section DecodeChain

variable {unit : Dct} {s : State}

/-- The first two commands complete on a stream whose counts sum to N² and fill `Q` (R104, R112). -/
theorem chainOk_unflatten {pairs : List (BitVec 16 × Nat)} (hs : s.err = none)
    (hsource : streamSource s = .ok pairs) (hsum : countSum pairs = s.extent) :
    ∃ t : State, ChainOk unit [.rld, .zzu] s t ∧ Ready s.n t ∧ t.q.full t.extent = true := by
  have hz := cells_afterRld hsum
  have hzzu := exec_zzu (s := afterRld s pairs) hs hz
  exact ⟨_, ⟨_, exec_rld hs hsource hsum, rfl, _, hzzu, rfl, rfl⟩, ⟨hs, rfl⟩, full_afterZzu hz⟩

/-- The last three commands complete on every `Q`: an integer of 16 bits is a real that IDCT accepts, and its results
are finite (R87, R96). -/
theorem chainOk_restore (hs : s.err = none) (h1 : 1 ≤ s.n) (h16 : s.n ≤ 16) (hfull : s.q.full s.extent = true) :
    ∃ t : State, ChainOk unit [.dqt, .idct, .stpx] s t ∧ Ready s.n t ∧ t.p.full t.extent = true := by
  obtain ⟨integers, hintegers⟩ := Buffer.full_iff_cells.mp hfull
  have hf := cells_afterDqt hintegers
  have hfit : (integers.map dequantizeCell).all F64.transformable = true := by
    simp [transformable_dequantizeCell]
  have hidct := idctWith_ok (unit := unit) (s := afterDqt s integers) hs hf hfit
  have hfinite := (unit.idct_conforms s.n _ h1 h16 (Buffer.cells_length hf) hfit).all_finite
  have hx := cells_afterIdct unit (afterDqt s integers) (integers.map dequantizeCell)
  have hstpx := exec_stpx (s := afterIdct unit (afterDqt s integers) _) hs hx hfinite
  exact ⟨_, ⟨_, exec_dqt hs hintegers, rfl, _, hidct, rfl, _, hstpx, rfl, rfl⟩, ⟨hs, rfl⟩,
    Buffer.full_iff_cells.mpr ⟨_, cells_afterStpx hx⟩⟩

/-- The decode chain completes on a stream whose counts sum to N² and fills `P` (R132). -/
theorem chainOk_decb {n : Nat} {pairs : List (BitVec 16 × Nat)} (h1 : 1 ≤ n) (h16 : n ≤ 16) (hs : Ready n s)
    (hsource : streamSource s = .ok pairs) (hsum : countSum pairs = n * n) :
    ∃ t : State, ChainOk unit decb s t ∧ Ready n t ∧ t.p.full t.extent = true := by
  obtain ⟨hunlocked, rfl⟩ := hs
  obtain ⟨t, hfirst, ⟨ht, htn⟩, hq⟩ := chainOk_unflatten (unit := unit) hunlocked hsource hsum
  obtain ⟨u, hsecond, ⟨hu, hun⟩, hp⟩ := chainOk_restore (unit := unit) ht (htn ▸ h1) (htn ▸ h16) hq
  exact ⟨u, chainOk_append hfirst hsecond, ⟨hu, hun.trans htn⟩, hp⟩

end DecodeChain

/-! ### Unloading a tile -/

theorem setWidth_portImage_p (v : BitVec 8) : (portImage .p v).setWidth 8 = v :=
  (BitVec.setWidth_setWidth_of_le v (by decide : 8 ≤ 64)).trans (BitVec.setWidth_eq v)

/-- The reads of a full `P` give the host its samples in cell order (R132). -/
theorem transactAll_rdSamples {s : State} (h16 : s.n ≤ 16) (hfull : s.p.full s.extent = true) :
    ∃ (data : List Data) (t : State), transactAll (rdCells .p s.extent) s = .done data t ∧ OkSince s t ∧
      t = { s with answers := t.answers } ∧ data.length = s.extent ∧
      ∀ k < s.extent, ∃ d, data[k]? = some d ∧ s.p.get k = some (d.setWidth 8) := by
  have hevents : rdCells .p s.extent =
      ((List.range s.extent).map fun k => (BufId.p, k)).map fun c => rdCell c.1 c.2 := by
    rw [List.map_map]; rfl
  have hreadable : ∀ c ∈ (List.range s.extent).map fun k => (BufId.p, k), Readable s c := by
    refine List.forall_mem_map.mpr fun k hk => ?_
    have hk : k < s.extent := List.mem_range.mp hk
    exact ⟨hk.trans_le (Nat.mul_le_mul h16 h16), hk, Buffer.full_iff.mp hfull k hk⟩
  obtain ⟨t, ht, hok, hframe⟩ := transactAll_rdCell hreadable
  refine ⟨_, t, hevents ▸ ht, hok, hframe, by simp, fun k hk => ?_⟩
  obtain ⟨v, hv⟩ := Buffer.exists_get hfull hk
  refine ⟨portImage .p v, ?_, hv.trans (congrArg some (setWidth_portImage_p v).symm)⟩
  rw [List.map_map, List.getElem?_map, List.getElem?_range hk, Option.map_some]
  exact congrArg some (cellData_of_get (b := .p) hv)

/-! ### One block -/

/-- A block of the image that the engine can decode: its tile inside the raster, its stream of at most 256 pairs of 16
bits whose counts sum to N² (R129, R131, R134). -/
def EncodedBlock.WellFormed (image : EncodedImage) (b : EncodedBlock) : Prop :=
  image.n ∣ b.x ∧ image.n ∣ b.y ∧ 0 ≤ b.x ∧ 0 ≤ b.y ∧ b.x + image.n ≤ image.w ∧ b.y + image.n ≤ image.h ∧
    b.pairs.length ≤ 256 ∧ b.total = image.n * image.n ∧ ∀ c ∈ b.pairs, PairFits c

/-- The raster is whole and has the dimensions that the image declares (R133). -/
def EncodedImage.Declares (image : EncodedImage) (out : Raster) : Prop :=
  out.Whole ∧ (out.width : Int) = image.w ∧ (out.height : Int) = image.h

/-- The tile of the block holds what `P` does, and every other sample is as before (R132). -/
def EncodedBlock.Written (n : Int) (b : EncodedBlock) (before after : Raster) (s : State) : Prop :=
  (∀ i j : Nat, i < n → j < n →
    s.p.get (idx n.toNat i j) = some (after.sample (b.x + i).toNat (b.y + j).toNat)) ∧
  ∀ x y : Nat, x < before.width → ¬ b.Covers n x y → after.sample x y = before.sample x y

section Block

variable {image : EncodedImage} {block : EncodedBlock} {out : Raster} {s : State}

/-- A block that passes the host's checks is loaded, decoded and unloaded (R132). -/
theorem decodeBlock_of_checks (hoffset : offsetOk image block = true) (hlen : block.pairs.length ≤ 256)
    (hportable : block.pairs.all portable = true) (out : Raster) (s : State) : decodeBlock image out block s =
    (transactAll (wrStream block.pairs) s).andThen fun _ s1 =>
    (runChain decb s1).andThen fun _ s2 =>
    (transactAll (rdCells .p (image.n.toNat * image.n.toNat)) s2).andThen fun data s3 =>
    .done (out.putTile image.n.toNat block.x.toNat block.y.toNat data) s3 := by
  have hlen' : ¬ Config.ncell < block.pairs.length := Nat.not_lt.mpr hlen
  rw [decodeBlock, hoffset, hportable, if_neg nofun, if_neg hlen', if_neg nofun]

/-- A well-formed block passes the host's checks (R132, R134). -/
theorem EncodedBlock.WellFormed.checks (h : block.WellFormed image) :
    offsetOk image block = true ∧ block.pairs.length ≤ 256 ∧ block.pairs.all portable = true := by
  obtain ⟨hdx, hdy, hx, hy, hxw, hyh, hlen, -, hfits⟩ := h
  refine ⟨offsetOk_iff.mpr ⟨Int.emod_eq_zero_of_dvd hdx, Int.emod_eq_zero_of_dvd hdy, hxw, hyh, hx, hy⟩, hlen,
    List.all_eq_true.mpr fun c hc => portable_iff.mpr ?_⟩
  obtain ⟨hlow, hhigh, h0, hlt⟩ := hfits c hc
  omega

/-- The samples of a decoded tile go to the block's place in the raster (R132). -/
theorem EncodedBlock.WellFormed.putTile (h : block.WellFormed image) (h1 : 1 ≤ image.n) (hout : image.Declares out)
    {data : List Data} (hlen : data.length = image.n.toNat * image.n.toNat)
    (hdata : ∀ k < image.n.toNat * image.n.toNat, ∃ d, data[k]? = some d ∧ s.p.get k = some (d.setWidth 8)) :
    image.Declares (out.putTile image.n.toNat block.x.toNat block.y.toNat data) ∧
      block.Written image.n out (out.putTile image.n.toNat block.x.toNat block.y.toNat data) s := by
  obtain ⟨-, -, hx, hy, hxw, hyh, -⟩ := h
  obtain ⟨hwhole, hw, hh⟩ := hout
  obtain ⟨hw', hh', hwhole', htile, hother⟩ := Raster.sample_putTile hwhole (x0 := block.x.toNat)
    (y0 := block.y.toNat) hlen (by omega) (by omega)
  refine ⟨⟨hwhole', by rw [hw', hw], by rw [hh', hh]⟩, fun i j hi hj => ?_, fun x y hxlt hcovers => ?_⟩
  · obtain ⟨d, hd, hp⟩ := hdata _ (idx_lt (n := image.n.toNat) (a := i) (b := j) (by omega) (by omega))
    have hxi : (block.x + i).toNat = block.x.toNat + i := by omega
    have hyj : (block.y + j).toNat = block.y.toNat + j := by omega
    rw [hp, hxi, hyj, htile i (by omega) j (by omega) d hd]
  · refine hother x hxlt y fun hinside => hcovers ?_
    unfold EncodedBlock.Covers
    omega

/-- A well-formed block decodes, its tile is written, and the pass goes on with a ready engine (R132). -/
theorem EncodedBlock.WellFormed.decodes (h : block.WellFormed image) (h1 : 1 ≤ image.n) (h16 : image.n ≤ 16)
    (hout : image.Declares out) (hs : Ready image.n.toNat s) :
    ∃ (out' : Raster) (t : State), decodeBlock image out block s = .done out' t ∧ OkSince s t ∧
      Ready image.n.toNat t ∧ image.Declares out' ∧ block.Written image.n out out' t := by
  obtain ⟨hoffset, hlen, hportable⟩ := h.checks
  have ⟨_, _, _, _, _, _, _, htotal, hfits⟩ := h
  obtain ⟨s1, hload, hok1, hs1, hsource⟩ := transactAll_wrStream hlen hfits hs
  have hsum : countSum (enginePairs block.pairs) = image.n.toNat * image.n.toNat := by
    have := (countSum_enginePairs hfits).trans htotal
    zify
    rwa [Int.toNat_of_nonneg (by omega)]
  obtain ⟨s2, hchain, ⟨hs2, hn2⟩, hfull⟩ := chainOk_decb (by omega) (by omega) hs1 hsource hsum
  obtain ⟨hrun, hok2⟩ := runChain_of_chainOk hchain
  obtain ⟨data, t, hread, hok3, hframe, hdatalen, hdata⟩ := transactAll_rdSamples (by omega) hfull
  rw [State.extent, hn2] at hread hdatalen hdata
  obtain ⟨hdeclares, hwritten⟩ := h.putTile h1 hout hdatalen hdata
  refine ⟨_, t, ?_, (hok1.trans hok2).trans hok3, ?_, hdeclares, ?_⟩
  · rw [decodeBlock_of_checks hoffset hlen hportable, hload, Driven.andThen_done, hrun, Driven.andThen_done, hread,
      Driven.andThen_done]
  · rw [hframe]; exact ⟨hs2, hn2⟩
  · rw [hframe]; exact hwritten

end Block

/-! ### The blocks of an image -/

section Blocks

variable {image : EncodedImage} {out : Raster} {s : State} {blocks : List EncodedBlock}

/-- The decode of one block reads the declared fields of the image, not its blocks. -/
theorem decodeBlocks_with_blocks (image : EncodedImage) (others blocks : List EncodedBlock) (out : Raster) (s : State) :
    decodeBlocks { image with blocks := others } blocks out s = decodeBlocks image blocks out s := by
  induction blocks generalizing out s with
  | nil => rfl
  | cons block rest ih => exact congrArg (decodeBlock image out block s).andThen (funext₂ ih)

theorem decodeBlocks_append (image : EncodedImage) (first second : List EncodedBlock) (out : Raster) (s : State) :
    decodeBlocks image (first ++ second) out s =
      (decodeBlocks image first out s).andThen (decodeBlocks image second) := by
  induction first generalizing out s with
  | nil => rfl
  | cons block rest ih =>
    rw [List.cons_append, decodeBlocks, decodeBlocks, Driven.andThen_assoc]
    exact congrArg (decodeBlock image out block s).andThen (funext₂ ih)

/-- Well-formed blocks decode one after another; a sample that none of them covers is as before (R132, R135). -/
theorem decodeBlocks_succeeds (h1 : 1 ≤ image.n) (h16 : image.n ≤ 16) (hblocks : ∀ b ∈ blocks, b.WellFormed image)
    (hout : image.Declares out) (hs : Ready image.n.toNat s) :
    ∃ (out' : Raster) (t : State), decodeBlocks image blocks out s = .done out' t ∧ OkSince s t ∧
      Ready image.n.toNat t ∧ image.Declares out' ∧
      ∀ x y : Nat, x < image.w → (∀ b ∈ blocks, ¬ b.Covers image.n x y) → out'.sample x y = out.sample x y := by
  induction blocks generalizing out s with
  | nil => exact ⟨out, s, rfl, .refl s, hs, hout, fun _ _ _ _ => rfl⟩
  | cons block rest ih =>
    obtain ⟨hblock, hrest⟩ := List.forall_mem_cons.mp hblocks
    obtain ⟨out1, s1, hdecode, hok1, hs1, hout1, -, hother1⟩ := hblock.decodes h1 h16 hout hs
    obtain ⟨out2, t, hdecodes, hok2, ht, hout2, hother2⟩ := ih hrest hout1 hs1
    refine ⟨out2, t, ?_, hok1.trans hok2, ht, hout2, fun x y hx hcovers => ?_⟩
    · rw [decodeBlocks, hdecode, Driven.andThen_done, hdecodes]
    · obtain ⟨hcblock, hcrest⟩ := List.forall_mem_cons.mp hcovers
      obtain ⟨-, hw, -⟩ := hout
      rw [hother2 x y hx hcrest, hother1 x y (by omega) hcblock]

/-- Of a list of well-formed blocks each is written: its tile holds what `P` does after it, unless a later block covers
the position (R132, R135). -/
theorem decodeBlocks_writes (h1 : 1 ≤ image.n) (h16 : image.n ≤ 16) {before after : List EncodedBlock}
    {block : EncodedBlock} (hblocks : ∀ b ∈ before ++ block :: after, b.WellFormed image)
    (hout : image.Declares out) (hs : Ready image.n.toNat s) {final : Raster} {t : State}
    (hfinal : decodeBlocks image (before ++ block :: after) out s = .done final t) :
    ∃ (partialOut : Raster) (u : State), decodeBlocks image (before ++ [block]) out s = .done partialOut u ∧
      ∀ i j : Nat, i < image.n → j < image.n →
        (∀ b ∈ after, ¬ b.Covers image.n (block.x + i) (block.y + j)) →
        u.p.get (idx image.n.toNat i j) = some (final.sample (block.x + i).toNat (block.y + j).toNat) := by
  obtain ⟨hbefore, hrest⟩ := List.forall_mem_append.mp hblocks
  obtain ⟨hblock, hafter⟩ := List.forall_mem_cons.mp hrest
  obtain ⟨out1, s1, hdecode1, -, hs1, hout1, -⟩ := decodeBlocks_succeeds h1 h16 hbefore hout hs
  obtain ⟨out2, s2, hdecode2, -, hs2, hout2, htile, -⟩ := hblock.decodes h1 h16 hout1 hs1
  obtain ⟨out3, s3, hdecode3, -, -, -, hother⟩ := decodeBlocks_succeeds h1 h16 hafter hout2 hs2
  rw [decodeBlocks_append, hdecode1, Driven.andThen_done, decodeBlocks, hdecode2, Driven.andThen_done, hdecode3]
    at hfinal
  cases hfinal
  refine ⟨out2, s2, ?_, fun i j hi hj hcovers => ?_⟩
  · rw [decodeBlocks_append, hdecode1, Driven.andThen_done, decodeBlocks, hdecode2]
    rfl
  · obtain ⟨-, -, hx, hy, hxw, -⟩ := hblock
    have hxi : ((block.x + i).toNat : Int) = block.x + i := Int.toNat_of_nonneg (by omega)
    have hyj : ((block.y + j).toNat : Int) = block.y + j := Int.toNat_of_nonneg (by omega)
    rw [htile i j hi hj, hother _ _ (by omega) (by rwa [hxi, hyj])]

end Blocks

/-! ### The pass -/

section Pass

variable {image : EncodedImage} {s : State}

/-- Past the shape check the pass sets the block size and decodes its blocks into a blank raster (R132, R133). -/
theorem decodePass_with_blocks (hshape : shapeOk image.n image.w image.h = true) (blocks : List EncodedBlock)
    (s : State) : decodePass { image with blocks := blocks } s = (transact (setN image.n) s).andThen fun _ s1 =>
      decodeBlocks image blocks (Raster.blank image.w.toNat image.h.toNat) s1 := by
  rw [decodePass, if_pos hshape]
  exact congrArg (transact (setN image.n) s).andThen
    (funext₂ fun _ s1 => decodeBlocks_with_blocks image blocks blocks _ s1)

theorem declares_blank (hw : 0 ≤ image.w) (hh : 0 ≤ image.h) :
    image.Declares (Raster.blank image.w.toNat image.h.toNat) :=
  ⟨Raster.blank_whole _ _, Int.toNat_of_nonneg hw, Int.toNat_of_nonneg hh⟩

/-- The decode pass of an image of well-formed blocks succeeds; a sample that no block covers is 0 (R139). -/
theorem decodePass_succeeds (hshape : shapeOk image.n image.w image.h = true)
    (hblocks : ∀ b ∈ image.blocks, b.WellFormed image) (hs : s.err = none) :
    ∃ (out : Raster) (t : State), DecodeSucceeded image s out t ∧ image.Declares out ∧
      ∀ x y : Nat, x < image.w → (∀ b ∈ image.blocks, ¬ b.Covers image.n x y) → out.sample x y = 0 := by
  obtain ⟨h1, h16, -, -, hw, hh⟩ := shapeOk_iff.mp hshape
  obtain ⟨s1, hsize, hok1, hs1⟩ := transact_setN h1 h16 hs
  have hblank := declares_blank hw hh
  obtain ⟨out, t, hdecodes, hok2, ht, hout, hother⟩ := decodeBlocks_succeeds h1 h16 hblocks hblank hs1
  have hpass (blocks : List EncodedBlock) : decodePass { image with blocks := blocks } s =
      decodeBlocks image blocks (Raster.blank image.w.toNat image.h.toNat) s1 := by
    rw [decodePass_with_blocks hshape, hsize, Driven.andThen_done]
  have hwritten : BlocksWritten image s out := fun before block after hsplit => by
    rw [hsplit] at hblocks hdecodes
    rw [hpass]
    exact decodeBlocks_writes h1 h16 hblocks hblank hs1 hdecodes
  refine ⟨out, t, ⟨(hpass image.blocks).trans hdecodes, hok1.trans hok2, ht.errField_eq_zero, hwritten⟩, hout,
    fun x y hx hcovers => ?_⟩
  rw [hother x y hx hcovers, Raster.blank_sample]

end Pass

end Sys2Proof.Machine

/-! # The statement of the decode pass -/

namespace Sys2Proof.Proofs

open Sys2Proof.Machine Sys2Proof.Claims

/-- Settles O59: every block decodes, and the blocks after it leave the samples they do not cover. -/
theorem decodePassOfWellFormedImageSucceeds : Obligations.DecodePassOfWellFormedImageSucceeds := by
  intro image s hs h1 h16 hdw hdh hw hh hblocks
  have hshape := shapeOk_iff.mpr ⟨h1, h16, hdw, hdh, hw, hh⟩
  obtain ⟨out, t, hsucceeded, ⟨hwhole, hwidth, hheight⟩, hzero⟩ := decodePass_succeeds hshape hblocks hs
  refine ⟨out, t, hsucceeded, hwidth, hheight, ?_, fun x y hx _ => hzero x y hx⟩
  rw [hwhole, Nat.cast_mul, hwidth, hheight]

end Sys2Proof.Proofs

/-! # Command errors

The outcomes of a command write are said once, as `performWord_outcome`: the refusal by a locked engine and the error
entry are read off it. The order of a command's own checks follows the three shapes of a body: the empty check alone,
the empty and the numeric check, and the two checks of `RLD`. -/

namespace Sys2Proof.Machine

open Sys2Proof.Claims

/-! ### A command write, legal or illegal -/

/-- What a command write can do: the refusal by a locked engine (R147), error entry with the written word (R145), or
the writes of a command and the answer `OK` (R75). -/
theorem performWord_outcome (w : CmdWord) (s : State) :
    (s.err ≠ none ∧ performWord w s = .next (s.respond .locked)) ∨
    (s.err = none ∧ ∃ e, performWord w s = .next (s.raise e w)) ∨
    (s.err = none ∧ ∃ i u, Writes s i u ∧ performWord w s = .next (u.respond .ok)) := by
  rcases performWord_cases w s with ⟨i, hi, hp⟩ | ⟨-, hp⟩ <;> rw [hp]
  · rcases exec_cases i s with hlocked | ⟨hs, e, -, hx⟩ | ⟨hs, u, hu, hx⟩
    · exact .inl hlocked
    · exact .inr (.inl ⟨hs, e, encode_of_decode hi ▸ hx⟩)
    · exact .inr (.inr ⟨hs, i, u, body_writes hu, hx⟩)
  · by_cases hs : s.err = none
    · exact .inr (.inl ⟨hs, .illCmd, illegalWord_unlocked hs⟩)
    · exact .inl ⟨hs, illegalWord_locked hs⟩

theorem performWord_locked {s : State} (h : s.err ≠ none) (w : CmdWord) :
    performWord w s = .next (s.respond .locked) := by
  rcases performWord_outcome w s with ⟨-, hp⟩ | ⟨hs, -⟩ | ⟨hs, -⟩
  · exact hp
  · exact absurd hs h
  · exact absurd hs h

/-- A command write changes `ERR` by error entry alone (R145). -/
theorem raise_of_err_changed {w : CmdWord} {s t : State} (h : performWord w s = .next t) (hchanged : t.err ≠ s.err) :
    s.err = none ∧ ∃ e, t = s.raise e w := by
  rcases performWord_outcome w s with ⟨-, hp⟩ | ⟨hs, e, hp⟩ | ⟨-, i, u, hwrites, hp⟩ <;> cases hp.symm.trans h
  · exact absurd rfl hchanged
  · exact ⟨hs, e, rfl⟩
  · obtain ⟨-, -, -, herr, -⟩ := hwrites.registers
    exact absurd herr hchanged

/-- After error entry the lock bit of `STATUS` reads 1 (R27). -/
theorem statusWord_lock_raise (s : State) (e : CmdError) (w : CmdWord) :
    (statusWord (s.raise e w)).getLsbD 4 = true :=
  (getLsbD_statusWord _ le_rfl).trans (lockBit_iff.mpr (Option.some_ne_none e))

/-! ### The checks of a command, in order -/

/-- How a command on an engine that is not locked ends, each outcome after the checks before it have passed (R148). -/
def EndsInPriorityOrder (i : Instr) (s : State) : Prop :=
  (sourceFull i s = false → Raises i s .empty) ∧
  (sourceFull i s = true → NumericFails i s → Raises i s .num) ∧
  (sourceFull i s = true → ¬ NumericFails i s → SumFails i s → Raises i s .rleSum) ∧
  (sourceFull i s = true → ¬ NumericFails i s → ¬ SumFails i s → Completes i s)

section Checks

variable {i : Instr} {s : State} {count : Nat}

/-- A command whose one check is the empty check. -/
theorem endsInPriorityOrder_of_source {width : Nat} {b : Buffer width} {write : List (BitVec width) → State}
    (hs : s.err = none) (hbody : body i s = source b count >>= fun values => .ok (write values))
    (hsource : sourceFull i s = b.full count) (hnumeric : ¬ NumericFails i s) (hi : i ≠ .rld) :
    EndsInPriorityOrder i s := by
  unfold EndsInPriorityOrder
  rw [hsource]
  refine ⟨fun hempty => ?_, fun _ hunfit => absurd hunfit hnumeric, fun _ _ hsum => absurd hsum.left hi,
    fun hfull _ _ => ?_⟩
  · exact raises_of_error hs (hbody.trans (except_bind_error.mpr (.inl (source_of_not_full hempty))))
  · obtain ⟨values, hc⟩ := Buffer.full_iff_cells.mp hfull
    exact completes_of_ok hs (hbody.trans (except_bind_ok.mpr ⟨values, source_ok.mpr hc, rfl⟩))

/-- A command that reads reals. -/
theorem endsInPriorityOrder_of_realBody {b : Buffer 64} {accepts : F64 → Bool} {write : List F64 → State}
    (hs : s.err = none) (hbody : body i s = realBody b count accepts write)
    (hsource : sourceFull i s = b.full count)
    (hnumeric : ∀ {cells}, b.cells count = some cells → (NumericFails i s ↔ cells.all accepts = false))
    (hi : i ≠ .rld) : EndsInPriorityOrder i s := by
  have hends := raises_num_and_completes hs hbody hnumeric
  unfold EndsInPriorityOrder
  rw [hsource]
  exact ⟨fun hempty => raises_of_error hs (hbody.trans (realBody_empty hempty)), fun hfull => (hends hfull).left,
    fun _ _ hsum => absurd hsum.left hi, fun hfull hfit _ => (hends hfull).right hfit⟩

theorem streamSum_of_cells {counts : List (BitVec 16)} (hc : s.rc.cells s.rlen.toNat = some counts) :
    streamSum s = (counts.map BitVec.toNat).sum := by
  refine congrArg List.sum (List.ext_getElem ?_ fun k _ hk => ?_)
  · rw [List.length_map, List.length_map, List.length_range, Buffer.cells_length hc]
  · rw [List.length_map] at hk
    simp [Buffer.get_of_cells hc hk]

/-- `RLD`: the empty check of the stream, then the corruption check (R112, R114). -/
theorem endsInPriorityOrder_rld (hs : s.err = none) : EndsInPriorityOrder .rld s := by
  have hread (hfull : sourceFull .rld s = true) :
      ∃ pairs, streamSource s = .ok pairs ∧ countSum pairs = streamSum s := by
    obtain ⟨hvalues, hcounts⟩ := Bool.and_eq_true_iff.mp hfull
    obtain ⟨values, hvalues⟩ := Buffer.full_iff_cells.mp hvalues
    obtain ⟨counts, hcounts⟩ := Buffer.full_iff_cells.mp hcounts
    obtain ⟨hsource, hsum, -⟩ := stream_of_cells hvalues hcounts
    exact ⟨_, hsource, hsum.trans (streamSum_of_cells hcounts).symm⟩
  refine ⟨fun hempty => ?_, fun _ hunfit => hunfit.elim, fun hfull _ hfails => ?_, fun hfull _ hpasses => ?_⟩
  · exact raises_of_error hs (except_bind_error.mpr (.inl (streamSource_error.mpr ⟨rfl, hempty⟩)))
  · obtain ⟨pairs, hsource, hsum⟩ := hread hfull
    exact raises_rleSum hs hsource (hsum ▸ hfails.right)
  · obtain ⟨pairs, hsource, hsum⟩ := hread hfull
    have hextent : streamSum s = s.extent := not_not.mp fun hne => hpasses ⟨rfl, hne⟩
    exact completes_of_ok hs (body_rld.mpr ⟨pairs, hsource, hsum.trans hextent, rfl⟩)

/-- The ten commands by the shape of their body (R149). -/
theorem endsInPriorityOrder (i : Instr) (hs : s.err = none) : EndsInPriorityOrder i s := by
  cases i with
  | ldpx | zzf | rle | dqt | zzu => exact endsInPriorityOrder_of_source hs rfl rfl id nofun
  | fdct | idct => exact endsInPriorityOrder_of_realBody hs rfl rfl hasUnfit_iff nofun
  | qnt | stpx => exact endsInPriorityOrder_of_realBody hs rfl rfl hasNonFinite_iff nofun
  | rld => exact endsInPriorityOrder_rld hs

/-- A command that completes was not locked and leaves `ERR` at 0. -/
theorem exists_next_of_completes (h : Completes i s) :
    ∃ t : State, exec i s = .next t ∧ t.answers = code .ok :: s.answers ∧ t.err = none := by
  obtain ⟨t, hx, hok⟩ := h
  obtain ⟨hs, u, hu, rfl⟩ := exec_completed hx hok
  obtain ⟨-, -, -, herr, -⟩ := (body_writes hu).registers
  exact ⟨_, hx, hok, herr.trans hs⟩

end Checks

end Sys2Proof.Machine

/-! # The statements of the command errors -/

namespace Sys2Proof.Proofs

open Sys2Proof.Machine Sys2Proof.Claims

/-- Settles O10: the lock stands before the decoder and before every check of a command. -/
theorem lockedEngineRefusesEveryCommand : Obligations.LockedEngineRefusesEveryCommand := fun s hs =>
  ⟨fun w => (hostWrite_word w s).trans (performWord_locked hs w), fun _ => exec_locked hs⟩

/-- Settles O11: of the outcomes of a command write only error entry changes `ERR`. -/
theorem errorEntryLatchesAndChangesNothingElse : Obligations.ErrorEntryLatchesAndChangesNothingElse := by
  intro s t w h hchanged
  rw [hostWrite_word] at h
  obtain ⟨hs, e, rfl⟩ := raise_of_err_changed h hchanged
  exact ⟨e, hs, rfl, statusWord_lock_raise s e w⟩

/-- Settles O12: the lock comes first, and an engine that is not locked makes the checks in their order. -/
theorem commandErrorsInPriorityOrder : Obligations.CommandErrorsInPriorityOrder := by
  refine fun i s => ⟨exec_locked, fun hs => ?_⟩
  obtain ⟨hempty, hnum, hsum, hok⟩ := endsInPriorityOrder i hs
  exact ⟨hempty, hnum, hsum, fun hfull hfit hcounts => exists_next_of_completes (hok hfull hfit hcounts)⟩

end Sys2Proof.Proofs

/-! # One event, one answer

The answer to a transaction is `perform_answers`; what is left to say is that the host's list is touched by the taking of
the event alone, whichever effect the event has (R57, R176). -/

namespace Sys2Proof.Machine

/-- No event changes what the host has still to do, a reset no more than any other. -/
theorem Effect.pending {s t : State} {e : HostEvent} (h : Effect s e t) : t.pending = s.pending := by
  cases h with
  | answered | hardReset | softReset | clearError | resize | setLength | raised => rfl
  | setCell b v hk =>
    obtain ⟨-, -, -, -, hpending, -⟩ := s.setBuffer_registers b ((s.buffer b).set _ v)
    exact hpending
  | completed _ hwrites =>
    obtain ⟨-, hpending, -⟩ := hwrites.registers
    exact hpending

end Sys2Proof.Machine

/-! # The statement of the answers -/

namespace Sys2Proof.Proofs

open Sys2Proof.Machine Sys2Proof.Claims

/-- Settles O5: the step performs the event in the state from whose list it is taken; a hard reset gives the reset
state, a transaction its answer. -/
theorem everyTransactionIsAnswered : Obligations.EveryTransactionIsAnswered := by
  intro s e rest hs
  rw [step_of_pending hs]
  by_cases he : e = .hardReset
  · subst he
    exact ⟨(s.taken rest).resetEngine, rfl, rfl, fun hne => absurd rfl hne, fun _ => rfl⟩
  · obtain ⟨t, a, ht, ha⟩ := perform_answers he (s.taken rest)
    exact ⟨t, ht, (perform_effect ht).pending, fun _ => ⟨a, ha⟩, fun h => absurd h he⟩

end Sys2Proof.Proofs
